-- ==== Sys2Proof/Word.lean ====
section
/-! DEFINITION. The word types of the 6502 instance: the byte of the bus and the 16-bit address (spec R14, R20). -/

namespace Sys2Proof

/-- A byte, the unit of the bus and the width of A, X, Y and S (R14, R20). -/
abbrev Byte := BitVec 8

/-- A 16-bit address, the width of PC and of the address bus (R14, R20). -/
abbrev Addr := BitVec 16

end Sys2Proof
end

