-- ==== Sys2Proof/Syntax.lean ====
section
/-! DEFINITION. The syntax of the 6502 instance: the 13 addressing modes, an operand in each of them, and one
constructor of `Instr` for each mnemonic of spec/opcode_table.json (JMP has two, one for each of its rules R410 and
R411; the 105 illegal opcode bytes have one, which carries the byte). Every row of the table is one constructor with
one operand form. -/

namespace Sys2Proof

/-- The 13 addressing modes (R200 to R213, R217). -/
inductive Mode where
  | acc | imp | imm | zp | zpx | zpy | izx | izy | abs | abx | aby | ind | rel
  deriving DecidableEq, Repr

/-- An operand: the addressing mode with the operand bytes the instruction carries for it (R152, R153). A word is
`{hi, lo}`, its low byte being the first of the two operand bytes (R102). -/
inductive Operand where
  /-- Accumulator mode (R201). -/
  | acc
  /-- Implied mode (R202). -/
  | imp
  /-- Immediate mode, `imm8` (R203). -/
  | imm (b : Byte)
  /-- Zero-page mode (R204). -/
  | zp (b : Byte)
  /-- Zero-page,X mode (R205). -/
  | zpx (b : Byte)
  /-- Zero-page,Y mode (R206). -/
  | zpy (b : Byte)
  /-- Indexed-indirect mode, `(zp,X)` (R208). -/
  | izx (b : Byte)
  /-- Indirect-indexed mode, `(zp),Y` (R209). -/
  | izy (b : Byte)
  /-- Absolute mode (R207). -/
  | abs (w : Addr)
  /-- Absolute,X mode (R210). -/
  | abx (w : Addr)
  /-- Absolute,Y mode (R212). -/
  | aby (w : Addr)
  /-- Indirect mode, `(abs)` (R211). -/
  | ind (w : Addr)
  /-- Relative mode, `rel8` (R213). -/
  | rel (b : Byte)
  deriving DecidableEq, Repr

/-- The addressing mode of an operand. -/
def Operand.mode : Operand → Mode
  | .acc => .acc
  | .imp => .imp
  | .imm _ => .imm
  | .zp _ => .zp
  | .zpx _ => .zpx
  | .zpy _ => .zpy
  | .izx _ => .izx
  | .izy _ => .izy
  | .abs _ => .abs
  | .abx _ => .abx
  | .aby _ => .aby
  | .ind _ => .ind
  | .rel _ => .rel

/-- An instruction of the 6502 instance (R160, R172). Which operand forms an instruction admits is `Instr.wf`. -/
inductive Instr where
  -- load, store and transfer (41_load_store_transfer.md)
  | lda (o : Operand)
  | ldx (o : Operand)
  | ldy (o : Operand)
  | sta (o : Operand)
  | stx (o : Operand)
  | sty (o : Operand)
  | tax
  | tay
  | txa
  | tya
  | tsx
  | txs
  -- arithmetic and compare (42_arithmetic_compare.md)
  | adc (o : Operand)
  | sbc (o : Operand)
  | cmp (o : Operand)
  | cpx (o : Operand)
  | cpy (o : Operand)
  -- logic, shift, increment and decrement (43_logic_shift_incdec.md)
  | and (o : Operand)
  | ora (o : Operand)
  | eor (o : Operand)
  | bit (o : Operand)
  | asl (o : Operand)
  | lsr (o : Operand)
  | rol (o : Operand)
  | ror (o : Operand)
  | inc (o : Operand)
  | dec (o : Operand)
  | inx
  | iny
  | dex
  | dey
  -- control transfer (44_control_transfer.md)
  | bpl (rel : Byte)
  | bmi (rel : Byte)
  | bvc (rel : Byte)
  | bvs (rel : Byte)
  | bcc (rel : Byte)
  | bcs (rel : Byte)
  | bne (rel : Byte)
  | beq (rel : Byte)
  | jmpAbs (target : Addr)
  | jmpInd (pointer : Addr)
  | jsr (target : Addr)
  | rts
  -- stack, flags and system (45_stack_flags_system.md)
  | pha
  | pla
  | php
  | plp
  | clc
  | sec
  | cli
  | sei
  | cld
  | sed
  | clv
  | nop
  | brk
  | rti
  -- the 105 illegal opcode bytes (R161)
  | illegal (opcode : Byte)
  deriving DecidableEq, Repr

/-- The operand with which an instruction's mode resolver runs (R500, R503). An illegal opcode's mode is `none` in
the dispatch table; its shape, where the configuration gives one, is resolved by its own meaning (R467). -/
def Instr.operand : Instr → Operand
  | .lda o | .ldx o | .ldy o | .sta o | .stx o | .sty o => o
  | .adc o | .sbc o | .cmp o | .cpx o | .cpy o => o
  | .and o | .ora o | .eor o | .bit o => o
  | .asl o | .lsr o | .rol o | .ror o | .inc o | .dec o => o
  | .bpl b | .bmi b | .bvc b | .bvs b | .bcc b | .bcs b | .bne b | .beq b => .rel b
  | .jmpAbs w | .jsr w => .abs w
  | .jmpInd w => .ind w
  | .tax | .tay | .txa | .tya | .tsx | .txs => .imp
  | .inx | .iny | .dex | .dey | .rts => .imp
  | .pha | .pla | .php | .plp | .clc | .sec | .cli | .sei | .cld | .sed | .clv => .imp
  | .nop | .brk | .rti | .illegal _ => .imp

end Sys2Proof
end

