-- ==== Sys2Proof/Config.lean ====
section
/-! DEFINITION. The configuration of an engine instance (spec R10 to R15, R66): plain data that no instruction,
interrupt or host call changes, and the bus oracle, whose answers nothing in Lean can evaluate (R107, R116). -/

namespace Sys2Proof

/-- The CPU family the engine executes (R10). Only `mos6502` has a meaning in the spec (R4). -/
inductive Family where
  | mos6502 | mc6800 | mc6809 | m68000 | tms9900
  deriving DecidableEq, Repr

/-- The chip variant (R11). -/
inductive Variant where
  | nmos | cmos
  deriving DecidableEq, Repr

/-- The decimal-mode correction of ADC and SBC (R12). -/
inductive BcdMode where
  | nmos | cmos | disabled
  deriving DecidableEq, Repr

/-- What the engine does with an illegal opcode (R13). -/
inductive IllegalPolicy where
  | strict | nop
  deriving DecidableEq, Repr

/-- The NOP shape of an illegal opcode: its mode, base cycles and page-cross eligibility (R13, R162). -/
structure Shape where
  mode : Mode
  base : Nat
  eligible : Bool
  deriving DecidableEq, Repr

/-- The registers and flags that reset loads from a parameter (R15, R702). -/
structure ResetRegs where
  a : Byte
  x : Byte
  y : Byte
  s : Byte
  n : Bool
  v : Bool
  d : Bool
  z : Bool
  c : Bool
  deriving DecidableEq, Repr

/-- A range of addresses, both ends included, that a device of the host's bus answers (R107, R108: which addresses
are devices is left to the board). -/
structure IoRange where
  first : Addr
  last : Addr
  deriving DecidableEq, Repr

/-- A bus event: one call of `read` or `write`, with its address and byte (R31). -/
inductive BusEvent where
  | read (addr : Addr) (value : Byte)
  | write (addr : Addr) (value : Byte)
  deriving DecidableEq, Repr

/-- The registers that a micro-operation reads and writes: those of this spec (R51 to R55; log 12). -/
inductive MicroReg where
  | a | x | y | sp | pc
  deriving DecidableEq, Repr

/-- The flags that a micro-operation reads and writes (R56; log 12). -/
inductive MicroFlag where
  | n | v | d | i | z | c
  deriving DecidableEq, Repr

/-- The operations on the 16-bit words of a micro-operation; the two comparisons give 1 or 0 (log 12). -/
inductive MicroOperator where
  | add | sub | and | or | xor | shl | shr | equal | less
  deriving DecidableEq, Repr

/-- A 16-bit word that a micro-operation computes: a constant, a register or a flag, the `k`-th newest byte that earlier
micro-operations kept (R68), an operation on two words, or one of two words as a third is not 0 or is 0 (log 12). -/
inductive MicroExpr where
  | const (w : Addr)
  | reg (r : MicroReg)
  | flag (f : MicroFlag)
  | kept (k : Nat)
  | apply (op : MicroOperator) (l r : MicroExpr)
  | choose (test yes no : MicroExpr)
  deriving DecidableEq, Repr

/-- The bus access of a micro-operation, at most one (R541). The byte read is kept; the byte written is the low byte of
its word (log 12). -/
inductive MicroAccess where
  | none
  | read (addr : MicroExpr)
  | write (addr value : MicroExpr)
  deriving DecidableEq, Repr

/-- Where a micro-operation puts a word: a register, which takes its low bits; a flag, which takes whether it is not 0;
or the kept bytes, whose newest its low byte becomes (R68; log 12). -/
inductive MicroTarget where
  | reg (r : MicroReg)
  | flag (f : MicroFlag)
  | keep
  deriving DecidableEq, Repr

/-- A micro-operation of a microprogram-driven family (R540, R541): its bus access, then its assignments in order, each
of which sees the ones before it. The contents are OPEN in the spec; this form is DESIGN CHOICE (log 12). -/
structure MicroOp where
  access : MicroAccess
  assigns : List (MicroTarget × MicroExpr)
  deriving DecidableEq, Repr

/-- Where a micro-operation that accesses the bus suspends (R542). -/
inductive SuspendPoint where
  | beforeWaitCheck | afterWaitCheck
  deriving DecidableEq, Repr

/-- The configuration of one engine instance (R10 to R15, R66). `illegalPolicy` is `none` where the caller gave no
policy, which the spec does not accept (R13: "no hidden default"). `illegalShape` lists the shapes by opcode, the
first entry of an opcode standing; `microprogram` lists the micro-operations of each operation. `io` is the model's
own: the addresses that a device answers (log 5). -/
structure Config where
  family : Family
  variant : Variant
  bcdMode : BcdMode
  illegalPolicy : Option IllegalPolicy
  illegalShape : List (Byte × Shape)
  clearDOnInterrupt : Bool
  resetRegs : ResetRegs
  io : List IoRange
  microprogram : List (Nat × List MicroOp)
  suspendPoint : SuspendPoint
  deriving DecidableEq, Repr

/-- The default `illegal_shape`: the 27 opcodes of the NOP class (R162). -/
def defaultIllegalShape : List (Byte × Shape) :=
  [0x1A, 0x3A, 0x5A, 0x7A, 0xDA, 0xFA].map (fun op => (op, ⟨.imp, 2, false⟩)) ++
  [0x80, 0x82, 0x89, 0xC2, 0xE2].map (fun op => (op, ⟨.imm, 2, false⟩)) ++
  [0x04, 0x44, 0x64].map (fun op => (op, ⟨.zp, 3, false⟩)) ++
  [0x14, 0x34, 0x54, 0x74, 0xD4, 0xF4].map (fun op => (op, ⟨.zpx, 4, false⟩)) ++
  [(0x0C, ⟨.abs, 4, false⟩)] ++
  [0x1C, 0x3C, 0x5C, 0x7C, 0xDC, 0xFC].map (fun op => (op, ⟨.abx, 4, true⟩))

/-- The `reset_regs` of State.reset: the defaults of 95_test_vectors.md, which the spec states for its examples only.
DESIGN CHOICE, unsafe (log 3): R702 leaves every one of them open. -/
def defaultResetRegs : ResetRegs :=
  { a := 0x00, x := 0x00, y := 0x00, s := 0xFD, n := false, v := false, d := false, z := false, c := false }

/-- The configuration of a 6502 instance of a variant and an illegal policy, every other parameter at the default
that R11 to R13 and R162 give it. -/
def Config.ofVariant (variant : Variant) (policy : IllegalPolicy) : Config :=
  { family := .mos6502
    variant := variant
    bcdMode := match variant with
      | .nmos => .nmos
      | .cmos => .cmos
    illegalPolicy := some policy
    illegalShape := defaultIllegalShape
    clearDOnInterrupt := match variant with
      | .nmos => false
      | .cmos => true
    resetRegs := defaultResetRegs
    io := []
    microprogram := []
    suspendPoint := .beforeWaitCheck }

/-- What a device of the host's bus answers to `read(address)`, given every bus event so far, newest first (R100,
R105, R107). It has no body: nothing can be proved of its value (log 5). -/
opaque Config.busAnswer : List BusEvent → Addr → Byte

/-- What a device of the host's bus answers to the side-effect-free `read_debug(address)` (R106); without a body,
like `Config.busAnswer` (log 5). -/
opaque Config.debugAnswer : List BusEvent → Addr → Byte

end Sys2Proof
end

