-- ==== Sys2Proof/WellFormed.lean ====
section
/-! DEFINITION. Which instructions exist: the operand forms each mnemonic admits (the encodings of spec R251 to R464)
and the 105 illegal opcode bytes in their three classes (R161). -/

namespace Sys2Proof

/-- The NOP class of illegal opcodes, 27 bytes (R161). -/
def nopClass : List Byte :=
  [0x1A, 0x3A, 0x5A, 0x7A, 0xDA, 0xFA, 0x80, 0x82, 0x89, 0xC2, 0xE2, 0x04, 0x44, 0x64,
   0x14, 0x34, 0x54, 0x74, 0xD4, 0xF4, 0x0C, 0x1C, 0x3C, 0x5C, 0x7C, 0xDC, 0xFC]

/-- The JAM class of illegal opcodes, 12 bytes (R161). -/
def jamClass : List Byte :=
  [0x02, 0x12, 0x22, 0x32, 0x42, 0x52, 0x62, 0x72, 0x92, 0xB2, 0xD2, 0xF2]

/-- The undocumented-operation class: low nibble 3, 7, B or F, and 0x9C, 0x9E, 66 bytes (R161). -/
def inUndocumentedClass (op : Byte) : Bool :=
  decide (op.toNat % 4 = 3) || op == 0x9C || op == 0x9E

/-- The illegal opcode bytes (R161). -/
def isIllegalOpcode (op : Byte) : Bool :=
  nopClass.contains op || jamClass.contains op || inUndocumentedClass op

/-- The operand forms of LDA, ADC, SBC, CMP, AND, ORA and EOR (R251, R301, R304, R308, R351 to R353). -/
def accumulatorForms : List Mode := [.imm, .zp, .zpx, .abs, .abx, .aby, .izx, .izy]

/-- The operand forms of ASL, LSR, ROL and ROR (R356 to R359). -/
def shiftForms : List Mode := [.acc, .zp, .zpx, .abs, .abx]

/-- The operand forms of INC and DEC (R360, R361). -/
def incDecForms : List Mode := [.zp, .zpx, .abs, .abx]

/-- Is this an instruction of the opcode map (R160)? -/
def Instr.wf : Instr → Bool
  | .lda o => accumulatorForms.contains o.mode
  | .ldx o => [Mode.imm, .zp, .zpy, .abs, .aby].contains o.mode
  | .ldy o => [Mode.imm, .zp, .zpx, .abs, .abx].contains o.mode
  | .sta o => [Mode.zp, .zpx, .abs, .abx, .aby, .izx, .izy].contains o.mode
  | .stx o => [Mode.zp, .zpy, .abs].contains o.mode
  | .sty o => [Mode.zp, .zpx, .abs].contains o.mode
  | .tax => true
  | .tay => true
  | .txa => true
  | .tya => true
  | .tsx => true
  | .txs => true
  | .adc o => accumulatorForms.contains o.mode
  | .sbc o => accumulatorForms.contains o.mode
  | .cmp o => accumulatorForms.contains o.mode
  | .cpx o => [Mode.imm, .zp, .abs].contains o.mode
  | .cpy o => [Mode.imm, .zp, .abs].contains o.mode
  | .and o => accumulatorForms.contains o.mode
  | .ora o => accumulatorForms.contains o.mode
  | .eor o => accumulatorForms.contains o.mode
  | .bit o => [Mode.zp, .abs].contains o.mode
  | .asl o => shiftForms.contains o.mode
  | .lsr o => shiftForms.contains o.mode
  | .rol o => shiftForms.contains o.mode
  | .ror o => shiftForms.contains o.mode
  | .inc o => incDecForms.contains o.mode
  | .dec o => incDecForms.contains o.mode
  | .inx => true
  | .iny => true
  | .dex => true
  | .dey => true
  | .bpl _ => true
  | .bmi _ => true
  | .bvc _ => true
  | .bvs _ => true
  | .bcc _ => true
  | .bcs _ => true
  | .bne _ => true
  | .beq _ => true
  | .jmpAbs _ => true
  | .jmpInd _ => true
  | .jsr _ => true
  | .rts => true
  | .pha => true
  | .pla => true
  | .php => true
  | .plp => true
  | .clc => true
  | .sec => true
  | .cli => true
  | .sei => true
  | .cld => true
  | .sed => true
  | .clv => true
  | .nop => true
  | .brk => true
  | .rti => true
  | .illegal op => isIllegalOpcode op

end Sys2Proof
end

