-- ==== Sys2Proof/Decode.lean ====
section
/-! DEFINITION. The decoder and the encoder of the 6502 instance, both written from the opcode map (spec R160) and the
instruction formats (R150 to R153), with the byte-order helpers they and the machine use. -/

namespace Sys2Proof

/-- The address `{hi, lo}` (R20, R102). -/
def mkAddr (hi lo : Byte) : Addr := hi ++ lo

/-- The low byte `v[7:0]` of a 16-bit value. -/
def loByte (v : Addr) : Byte := v.extractLsb' 0 8

/-- The high byte `v[15:8]` of a 16-bit value, the page of an address (R214). -/
def hiByte (v : Addr) : Byte := v.extractLsb' 8 8

/-- A byte as a zero-page address: `zext_16` (R21, R153). -/
def zeroPage (b : Byte) : Addr := b.setWidth 16

/-! ## The opcode map

A cell gives the instruction an opcode byte stands for, from its one operand byte `b` and its operand word `w`; a cell
uses at most one of the two. -/

/-- Row 0x of the opcode map (R160). -/
def mapRow0 (b : Byte) (w : Addr) : List Instr :=
  [.brk, .ora (.izx b), .illegal 0x02, .illegal 0x03,
   .illegal 0x04, .ora (.zp b), .asl (.zp b), .illegal 0x07,
   .php, .ora (.imm b), .asl .acc, .illegal 0x0B,
   .illegal 0x0C, .ora (.abs w), .asl (.abs w), .illegal 0x0F]

/-- Row 1x of the opcode map (R160). -/
def mapRow1 (b : Byte) (w : Addr) : List Instr :=
  [.bpl b, .ora (.izy b), .illegal 0x12, .illegal 0x13,
   .illegal 0x14, .ora (.zpx b), .asl (.zpx b), .illegal 0x17,
   .clc, .ora (.aby w), .illegal 0x1A, .illegal 0x1B,
   .illegal 0x1C, .ora (.abx w), .asl (.abx w), .illegal 0x1F]

/-- Row 2x of the opcode map (R160). -/
def mapRow2 (b : Byte) (w : Addr) : List Instr :=
  [.jsr w, .and (.izx b), .illegal 0x22, .illegal 0x23,
   .bit (.zp b), .and (.zp b), .rol (.zp b), .illegal 0x27,
   .plp, .and (.imm b), .rol .acc, .illegal 0x2B,
   .bit (.abs w), .and (.abs w), .rol (.abs w), .illegal 0x2F]

/-- Row 3x of the opcode map (R160). -/
def mapRow3 (b : Byte) (w : Addr) : List Instr :=
  [.bmi b, .and (.izy b), .illegal 0x32, .illegal 0x33,
   .illegal 0x34, .and (.zpx b), .rol (.zpx b), .illegal 0x37,
   .sec, .and (.aby w), .illegal 0x3A, .illegal 0x3B,
   .illegal 0x3C, .and (.abx w), .rol (.abx w), .illegal 0x3F]

/-- Row 4x of the opcode map (R160). -/
def mapRow4 (b : Byte) (w : Addr) : List Instr :=
  [.rti, .eor (.izx b), .illegal 0x42, .illegal 0x43,
   .illegal 0x44, .eor (.zp b), .lsr (.zp b), .illegal 0x47,
   .pha, .eor (.imm b), .lsr .acc, .illegal 0x4B,
   .jmpAbs w, .eor (.abs w), .lsr (.abs w), .illegal 0x4F]

/-- Row 5x of the opcode map (R160). -/
def mapRow5 (b : Byte) (w : Addr) : List Instr :=
  [.bvc b, .eor (.izy b), .illegal 0x52, .illegal 0x53,
   .illegal 0x54, .eor (.zpx b), .lsr (.zpx b), .illegal 0x57,
   .cli, .eor (.aby w), .illegal 0x5A, .illegal 0x5B,
   .illegal 0x5C, .eor (.abx w), .lsr (.abx w), .illegal 0x5F]

/-- Row 6x of the opcode map (R160). -/
def mapRow6 (b : Byte) (w : Addr) : List Instr :=
  [.rts, .adc (.izx b), .illegal 0x62, .illegal 0x63,
   .illegal 0x64, .adc (.zp b), .ror (.zp b), .illegal 0x67,
   .pla, .adc (.imm b), .ror .acc, .illegal 0x6B,
   .jmpInd w, .adc (.abs w), .ror (.abs w), .illegal 0x6F]

/-- Row 7x of the opcode map (R160). -/
def mapRow7 (b : Byte) (w : Addr) : List Instr :=
  [.bvs b, .adc (.izy b), .illegal 0x72, .illegal 0x73,
   .illegal 0x74, .adc (.zpx b), .ror (.zpx b), .illegal 0x77,
   .sei, .adc (.aby w), .illegal 0x7A, .illegal 0x7B,
   .illegal 0x7C, .adc (.abx w), .ror (.abx w), .illegal 0x7F]

/-- Row 8x of the opcode map (R160). -/
def mapRow8 (b : Byte) (w : Addr) : List Instr :=
  [.illegal 0x80, .sta (.izx b), .illegal 0x82, .illegal 0x83,
   .sty (.zp b), .sta (.zp b), .stx (.zp b), .illegal 0x87,
   .dey, .illegal 0x89, .txa, .illegal 0x8B,
   .sty (.abs w), .sta (.abs w), .stx (.abs w), .illegal 0x8F]

/-- Row 9x of the opcode map (R160). -/
def mapRow9 (b : Byte) (w : Addr) : List Instr :=
  [.bcc b, .sta (.izy b), .illegal 0x92, .illegal 0x93,
   .sty (.zpx b), .sta (.zpx b), .stx (.zpy b), .illegal 0x97,
   .tya, .sta (.aby w), .txs, .illegal 0x9B,
   .illegal 0x9C, .sta (.abx w), .illegal 0x9E, .illegal 0x9F]

/-- Row Ax of the opcode map (R160). -/
def mapRowA (b : Byte) (w : Addr) : List Instr :=
  [.ldy (.imm b), .lda (.izx b), .ldx (.imm b), .illegal 0xA3,
   .ldy (.zp b), .lda (.zp b), .ldx (.zp b), .illegal 0xA7,
   .tay, .lda (.imm b), .tax, .illegal 0xAB,
   .ldy (.abs w), .lda (.abs w), .ldx (.abs w), .illegal 0xAF]

/-- Row Bx of the opcode map (R160). -/
def mapRowB (b : Byte) (w : Addr) : List Instr :=
  [.bcs b, .lda (.izy b), .illegal 0xB2, .illegal 0xB3,
   .ldy (.zpx b), .lda (.zpx b), .ldx (.zpy b), .illegal 0xB7,
   .clv, .lda (.aby w), .tsx, .illegal 0xBB,
   .ldy (.abx w), .lda (.abx w), .ldx (.aby w), .illegal 0xBF]

/-- Row Cx of the opcode map (R160). -/
def mapRowC (b : Byte) (w : Addr) : List Instr :=
  [.cpy (.imm b), .cmp (.izx b), .illegal 0xC2, .illegal 0xC3,
   .cpy (.zp b), .cmp (.zp b), .dec (.zp b), .illegal 0xC7,
   .iny, .cmp (.imm b), .dex, .illegal 0xCB,
   .cpy (.abs w), .cmp (.abs w), .dec (.abs w), .illegal 0xCF]

/-- Row Dx of the opcode map (R160). -/
def mapRowD (b : Byte) (w : Addr) : List Instr :=
  [.bne b, .cmp (.izy b), .illegal 0xD2, .illegal 0xD3,
   .illegal 0xD4, .cmp (.zpx b), .dec (.zpx b), .illegal 0xD7,
   .cld, .cmp (.aby w), .illegal 0xDA, .illegal 0xDB,
   .illegal 0xDC, .cmp (.abx w), .dec (.abx w), .illegal 0xDF]

/-- Row Ex of the opcode map (R160). -/
def mapRowE (b : Byte) (w : Addr) : List Instr :=
  [.cpx (.imm b), .sbc (.izx b), .illegal 0xE2, .illegal 0xE3,
   .cpx (.zp b), .sbc (.zp b), .inc (.zp b), .illegal 0xE7,
   .inx, .sbc (.imm b), .nop, .illegal 0xEB,
   .cpx (.abs w), .sbc (.abs w), .inc (.abs w), .illegal 0xEF]

/-- Row Fx of the opcode map (R160). -/
def mapRowF (b : Byte) (w : Addr) : List Instr :=
  [.beq b, .sbc (.izy b), .illegal 0xF2, .illegal 0xF3,
   .illegal 0xF4, .sbc (.zpx b), .inc (.zpx b), .illegal 0xF7,
   .sed, .sbc (.aby w), .illegal 0xFA, .illegal 0xFB,
   .illegal 0xFC, .sbc (.abx w), .inc (.abx w), .illegal 0xFF]

/-- The opcode map of R160, by high nibble and low nibble. -/
def opcodeMap (b : Byte) (w : Addr) : List (List Instr) :=
  [mapRow0 b w, mapRow1 b w, mapRow2 b w, mapRow3 b w, mapRow4 b w, mapRow5 b w, mapRow6 b w, mapRow7 b w,
   mapRow8 b w, mapRow9 b w, mapRowA b w, mapRowB b w, mapRowC b w, mapRowD b w, mapRowE b w, mapRowF b w]

/-- The instruction of opcode byte `op` whose next two bytes are `b1` and `b2` (R160; the low byte of a word comes
first, R102). Bytes the instruction does not have are not looked at. -/
def instrOf (op b1 b2 : Byte) : Instr :=
  ((opcodeMap b1 (mkAddr b2 b1)).getD (op.toNat / 16) []).getD (op.toNat % 16) (.illegal op)

/-- How many operand bytes follow the opcode in a mode (R151, R217). -/
def Mode.operandBytes : Mode → Nat
  | .acc => 0
  | .imp => 0
  | .imm => 1
  | .zp => 1
  | .zpx => 1
  | .zpy => 1
  | .izx => 1
  | .izy => 1
  | .rel => 1
  | .abs => 2
  | .abx => 2
  | .aby => 2
  | .ind => 2

/-- How many operand bytes an opcode byte announces (R151). For an illegal opcode it is 0: its operand bytes, where
the configuration gives it a shape that has some, are fetched by its own meaning (R467). -/
def operandCount (op : Byte) : Nat := (instrOf op 0 0).operand.mode.operandBytes

/-- Why the decoder refuses a list of bytes: it holds no opcode byte, or fewer operand bytes than the opcode
announces. No byte value is refused: each is a documented or an illegal opcode (R160, 93 U16). -/
inductive DecodeError where
  | noOpcode
  | truncated (opcode : Byte)
  deriving DecidableEq, Repr

/-- Decode the instruction at the head of a list of bytes, and give back the bytes after it. Total on any bytes. -/
def decode (bytes : List Byte) : Except DecodeError (Instr × List Byte) :=
  match bytes with
  | [] => .error .noOpcode
  | op :: rest =>
    match operandCount op, rest with
    | 0, rest => .ok (instrOf op 0 0, rest)
    | 1, b1 :: rest => .ok (instrOf op b1 0, rest)
    | 2, b1 :: b2 :: rest => .ok (instrOf op b1 b2, rest)
    | _, _ => .error (.truncated op)

/-- The low `nbits` bits of the instruction word `w`, laid out as three bytes, the first at the lowest address; the
bits above `nbits` are 0. Three bytes is the longest instruction (R150). -/
def tableWordBytes (nbits w : Nat) : List Byte :=
  let v := w % 2 ^ nbits
  [BitVec.ofNat 8 v, BitVec.ofNat 8 (v / 256), BitVec.ofNat 8 (v / 65536)]

/-- The instruction the decoder reads from the instruction whose bits are `w`, numbered as spec/opcode_table.json
numbers them (bit 0 is the least significant bit of the first byte). -/
def decodeTableWord (nbits w : Nat) : Option Instr :=
  match decode (tableWordBytes nbits w) with
  | .ok (i, _) => some i
  | .error _ => none

/-! ## The encoder -/

/-- The opcode byte of an instruction (R251 to R464, R161); `none` where the map has no opcode for the form. -/
def opcodeOf : Instr → Option Byte
  | .lda o => match o.mode with
    | .imm => some 0xA9 | .zp => some 0xA5 | .zpx => some 0xB5 | .izx => some 0xA1
    | .izy => some 0xB1 | .abs => some 0xAD | .abx => some 0xBD | .aby => some 0xB9
    | _ => none
  | .ldx o => match o.mode with
    | .imm => some 0xA2 | .zp => some 0xA6 | .zpy => some 0xB6 | .abs => some 0xAE
    | .aby => some 0xBE
    | _ => none
  | .ldy o => match o.mode with
    | .imm => some 0xA0 | .zp => some 0xA4 | .zpx => some 0xB4 | .abs => some 0xAC
    | .abx => some 0xBC
    | _ => none
  | .sta o => match o.mode with
    | .zp => some 0x85 | .zpx => some 0x95 | .izx => some 0x81 | .izy => some 0x91
    | .abs => some 0x8D | .abx => some 0x9D | .aby => some 0x99
    | _ => none
  | .stx o => match o.mode with
    | .zp => some 0x86 | .zpy => some 0x96 | .abs => some 0x8E
    | _ => none
  | .sty o => match o.mode with
    | .zp => some 0x84 | .zpx => some 0x94 | .abs => some 0x8C
    | _ => none
  | .tax => some 0xAA
  | .tay => some 0xA8
  | .txa => some 0x8A
  | .tya => some 0x98
  | .tsx => some 0xBA
  | .txs => some 0x9A
  | .adc o => match o.mode with
    | .imm => some 0x69 | .zp => some 0x65 | .zpx => some 0x75 | .izx => some 0x61
    | .izy => some 0x71 | .abs => some 0x6D | .abx => some 0x7D | .aby => some 0x79
    | _ => none
  | .sbc o => match o.mode with
    | .imm => some 0xE9 | .zp => some 0xE5 | .zpx => some 0xF5 | .izx => some 0xE1
    | .izy => some 0xF1 | .abs => some 0xED | .abx => some 0xFD | .aby => some 0xF9
    | _ => none
  | .cmp o => match o.mode with
    | .imm => some 0xC9 | .zp => some 0xC5 | .zpx => some 0xD5 | .izx => some 0xC1
    | .izy => some 0xD1 | .abs => some 0xCD | .abx => some 0xDD | .aby => some 0xD9
    | _ => none
  | .cpx o => match o.mode with
    | .imm => some 0xE0 | .zp => some 0xE4 | .abs => some 0xEC
    | _ => none
  | .cpy o => match o.mode with
    | .imm => some 0xC0 | .zp => some 0xC4 | .abs => some 0xCC
    | _ => none
  | .and o => match o.mode with
    | .imm => some 0x29 | .zp => some 0x25 | .zpx => some 0x35 | .izx => some 0x21
    | .izy => some 0x31 | .abs => some 0x2D | .abx => some 0x3D | .aby => some 0x39
    | _ => none
  | .ora o => match o.mode with
    | .imm => some 0x09 | .zp => some 0x05 | .zpx => some 0x15 | .izx => some 0x01
    | .izy => some 0x11 | .abs => some 0x0D | .abx => some 0x1D | .aby => some 0x19
    | _ => none
  | .eor o => match o.mode with
    | .imm => some 0x49 | .zp => some 0x45 | .zpx => some 0x55 | .izx => some 0x41
    | .izy => some 0x51 | .abs => some 0x4D | .abx => some 0x5D | .aby => some 0x59
    | _ => none
  | .bit o => match o.mode with
    | .zp => some 0x24 | .abs => some 0x2C
    | _ => none
  | .asl o => match o.mode with
    | .acc => some 0x0A | .zp => some 0x06 | .zpx => some 0x16 | .abs => some 0x0E
    | .abx => some 0x1E
    | _ => none
  | .lsr o => match o.mode with
    | .acc => some 0x4A | .zp => some 0x46 | .zpx => some 0x56 | .abs => some 0x4E
    | .abx => some 0x5E
    | _ => none
  | .rol o => match o.mode with
    | .acc => some 0x2A | .zp => some 0x26 | .zpx => some 0x36 | .abs => some 0x2E
    | .abx => some 0x3E
    | _ => none
  | .ror o => match o.mode with
    | .acc => some 0x6A | .zp => some 0x66 | .zpx => some 0x76 | .abs => some 0x6E
    | .abx => some 0x7E
    | _ => none
  | .inc o => match o.mode with
    | .zp => some 0xE6 | .zpx => some 0xF6 | .abs => some 0xEE | .abx => some 0xFE
    | _ => none
  | .dec o => match o.mode with
    | .zp => some 0xC6 | .zpx => some 0xD6 | .abs => some 0xCE | .abx => some 0xDE
    | _ => none
  | .inx => some 0xE8
  | .iny => some 0xC8
  | .dex => some 0xCA
  | .dey => some 0x88
  | .bpl _ => some 0x10
  | .bmi _ => some 0x30
  | .bvc _ => some 0x50
  | .bvs _ => some 0x70
  | .bcc _ => some 0x90
  | .bcs _ => some 0xB0
  | .bne _ => some 0xD0
  | .beq _ => some 0xF0
  | .jmpAbs _ => some 0x4C
  | .jmpInd _ => some 0x6C
  | .jsr _ => some 0x20
  | .rts => some 0x60
  | .pha => some 0x48
  | .pla => some 0x68
  | .php => some 0x08
  | .plp => some 0x28
  | .clc => some 0x18
  | .sec => some 0x38
  | .cli => some 0x58
  | .sei => some 0x78
  | .cld => some 0xD8
  | .sed => some 0xF8
  | .clv => some 0xB8
  | .nop => some 0xEA
  | .brk => some 0x00
  | .rti => some 0x40
  | .illegal op => if isIllegalOpcode op then some op else none

/-- The operand bytes of an operand, in memory order (R152): the low byte of a word comes first (R102). -/
def Operand.bytes : Operand → List Byte
  | .acc => []
  | .imp => []
  | .imm b => [b]
  | .zp b => [b]
  | .zpx b => [b]
  | .zpy b => [b]
  | .izx b => [b]
  | .izy b => [b]
  | .rel b => [b]
  | .abs w => [loByte w, hiByte w]
  | .abx w => [loByte w, hiByte w]
  | .aby w => [loByte w, hiByte w]
  | .ind w => [loByte w, hiByte w]

/-- The bytes of an instruction (R150, R152); `none` where it is not well-formed. -/
def encode (i : Instr) : Option (List Byte) :=
  match opcodeOf i with
  | some op => some (op :: i.operand.bytes)
  | none => none

/-- The length of an instruction in bytes (R150, R151). -/
def Instr.length (i : Instr) : Nat := 1 + i.operand.mode.operandBytes

end Sys2Proof
end

