-- ==== Sys2Proof/Machine/State.lean ====
section
/-! DEFINITION. The state of one engine instance (spec R50 to R70), the reasons a step can stop, and the state right
after creation and reset (R700, R703). -/

namespace Sys2Proof.Machine

/-- The status register P: six flag bits of storage (R56). B and bit 5 are no storage (R57). -/
structure Flags where
  n : Bool
  v : Bool
  d : Bool
  i : Bool
  z : Bool
  c : Bool
  deriving DecidableEq, Repr

/-- The transient decode state of the current instruction (R60). No rule reads what an earlier instruction left. -/
structure Scratch where
  opcode : Byte
  ea : Addr
  accMode : Bool
  rel : Int
  value : Byte
  pageCross : Bool
  opPenalty : Bool
  deriving DecidableEq, Repr

/-- The host entry points that a hook must not call (R521). -/
inductive HostEntry where
  | step | run | reset | restore | registerHook
  deriving DecidableEq, Repr

/-- One call that the hook makes while it runs (R521): the three bus functions (R100, R106), the raises, the debug
accessors of R632, or an entry point it must not call. -/
inductive HookCall where
  | busRead (addr : Addr)
  | readDebug (addr : Addr)
  | busWrite (addr : Addr) (value : Byte)
  | raiseNmi
  | raiseIrq
  | getPc
  | getCycles
  | getInstructions
  | save
  | forbidden (entry : HostEntry)
  deriving DecidableEq, Repr

/-- What a hook asks of the answer of its latest call: is it a number, below a number, is a bit of it set (log 10)? -/
inductive HookTest where
  | equals (n : Nat)
  | below (n : Nat)
  | bit (k : Nat)
  deriving DecidableEq, Repr

/-- What a hook does, as plain data (R521): its calls in order, and its decisions on what they answered. `ret` ends one
invocation, and the next one goes on after it; `done` ends one, and the next starts the callback's `again`.
DESIGN CHOICE (log 10). -/
inductive HookProgram where
  | done
  | ret (rest : HookProgram)
  | call (c : HookCall) (rest : HookProgram)
  | test (t : HookTest) (yes no : HookProgram)
  deriving DecidableEq, Repr

/-- A host callback (R65, R520) as plain data: which one it is, how often it has been called, what it does from its
next invocation on, and what it does after that has ended. DESIGN CHOICE (log 10). -/
structure Callback where
  id : Nat
  invocations : Nat
  program : HookProgram
  again : HookProgram
  deriving DecidableEq, Repr

/-- The state of a microprogram-driven family's sequencer (R68, R541): the current operation, none before the first
boundary (log 12), the saved micro-step index and the scratch values of earlier micro-steps, newest first; whether the current micro-operation is suspended at
its suspension point (R542); and whether the current operation is an interrupt entry, which is no instruction (R511,
R543). The 6502 instance does not use it (R544). -/
structure SeqState where
  currentOp : Option Nat
  microStep : Nat
  scratch : List Byte
  suspended : Bool
  entry : Bool
  deriving DecidableEq, Repr

/-- No operation has begun: the next micro-step call is a boundary (log 12). -/
def SeqState.idle : SeqState :=
  { currentOp := none, microStep := 0, scratch := [], suspended := false, entry := false }

/-- What one call of `step()` returns (R512): the cycles it added, or the illegal opcode with its address. -/
inductive StepResult where
  | ok (n : Nat)
  | illegal (pc : Addr) (opcode : Byte) (n : Nat)
  deriving DecidableEq, Repr

/-- The reasons the machine stops with a fault. There is none: the one exceptional condition, IllegalOpcode, leaves a
next state (R514, R620; log 8), and the engine has no other exception and no fault on any address (R601). Safe. -/
inductive Fault where
  deriving DecidableEq, Repr

/-- The reasons a step is refused. Every one of them is safe: the model stops where the spec gives no behaviour. -/
inductive Refusal where
  /-- Raised by `exec`'s arm of an instruction that has no meaning yet; there is none left. Safe. -/
  | notModelled (mnemonic : String)
  /-- Raised by `step` when the configured family is not Mos6502 (R4, R10; 93 U6). Safe. -/
  | familyNotDescribed (family : Family)
  /-- Raised by `step`, and by `exec` of an illegal opcode, when the configuration gives no illegal_policy (R13;
  93 U5). Safe. -/
  | policyNotGiven
  /-- Raised by `step` when the hook calls an entry point it must not call (R521; 93 U8). Safe. -/
  | hookCalled (entry : HostEntry)
  /-- Raised by `exec` for a term that is no instruction of the opcode map; the decoder makes none (log 14). Safe. -/
  | illFormed
  deriving DecidableEq, Repr

/-- The state of one engine instance (R50). -/
structure State where
  /-- The accumulator A (R51). -/
  a : Byte
  /-- Index register X (R52). -/
  x : Byte
  /-- Index register Y (R53). -/
  y : Byte
  /-- The stack pointer S (R54). -/
  sp : Byte
  /-- The program counter PC (R55). -/
  pc : Addr
  /-- The status register P (R56). -/
  p : Flags
  /-- The transient decode state (R60). -/
  scratch : Scratch
  /-- The cycle counter (R61). -/
  cycles : Nat
  /-- The executed-instruction counter (R62). -/
  instructions : Nat
  /-- The NMI latch (R63). -/
  nmiPending : Bool
  /-- The IRQ latch (R64). -/
  irqPending : Bool
  /-- The hook slot (R65). -/
  hook : Option Callback
  /-- The bytes behind the bus where no device answers, in canonical form (R101, R116). -/
  mem : List Host.Cell
  /-- Every bus event so far, newest first: the model's own record (R105, R110; log 5). -/
  busLog : List BusEvent
  /-- The sequencer of a microprogram-driven family (R68). -/
  seq : SeqState
  /-- What the last `step()` returned, or nothing before the first: the model's own field (R512; log 8). -/
  lastStep : Option StepResult
  /-- The configuration, which nothing changes (R66; log 1). -/
  cfg : Config
  deriving DecidableEq, Repr

/-- An instance right after its creation and first reset (R700, R703) on memory with nothing listed, in the
configuration of the spec's examples (log 2): I set, latches and counters 0, the hook slot empty, PC loaded from the
reset vector (two bytes of unlisted memory), the two vector reads made, every other register from `reset_regs`. -/
def State.reset : State :=
  { a := 0x00
    x := 0x00
    y := 0x00
    sp := 0xFD
    pc := 0x0000
    p := { n := false, v := false, d := false, i := true, z := false, c := false }
    scratch :=
      { opcode := 0x00, ea := 0x0000, accMode := false, rel := 0, value := 0x00, pageCross := false,
        opPenalty := false }
    cycles := 0
    instructions := 0
    nmiPending := false
    irqPending := false
    hook := none
    mem := []
    busLog := [.read 0xFFFD 0x00, .read 0xFFFC 0x00]
    seq := .idle
    lastStep := none
    cfg := Config.ofVariant .nmos .strict }

/-! ## Updates, one for each field that changes -/

def State.setA (s : State) (v : Byte) : State := { s with a := v }
def State.setX (s : State) (v : Byte) : State := { s with x := v }
def State.setY (s : State) (v : Byte) : State := { s with y := v }
def State.setSp (s : State) (v : Byte) : State := { s with sp := v }
def State.setPc (s : State) (v : Addr) : State := { s with pc := v }
def State.setP (s : State) (v : Flags) : State := { s with p := v }
def State.setScratch (s : State) (v : Scratch) : State := { s with scratch := v }
def State.setCycles (s : State) (v : Nat) : State := { s with cycles := v }
def State.setInstructions (s : State) (v : Nat) : State := { s with instructions := v }
def State.setNmi (s : State) (v : Bool) : State := { s with nmiPending := v }
def State.setIrq (s : State) (v : Bool) : State := { s with irqPending := v }
def State.setHook (s : State) (v : Option Callback) : State := { s with hook := v }
def State.setMem (s : State) (v : List Host.Cell) : State := { s with mem := v }
def State.setBusLog (s : State) (v : List BusEvent) : State := { s with busLog := v }
def State.setSeq (s : State) (v : SeqState) : State := { s with seq := v }
def State.setLastStep (s : State) (v : Option StepResult) : State := { s with lastStep := v }

end Sys2Proof.Machine
end

