-- ==== Sys2Proof/Machine/Ops.lean ====
section
/-! DEFINITION. The named operations every instruction is made of: the bus (spec R100 to R107), fetch (R23, R501), the
stack (R120 to R122), the image of P (R57, R58), taking an exception and returning from one (R463, R464, R600, R610),
the interrupt check (R613) and reset (R700). -/

namespace Sys2Proof.Machine

/-! ## The bus -/

/-- Does the range hold the address? -/
def IoRange.holds (r : IoRange) (a : Addr) : Bool := decide (r.first ≤ a) && decide (a ≤ r.last)

/-- Is the address one that a device of the bus answers (log 5)? -/
def State.isIo (s : State) (a : Addr) : Bool := s.cfg.io.any (fun r => IoRange.holds r a)

/-- The byte that plain memory holds at an address. -/
def State.byteAt (s : State) (a : Addr) : Byte := Memory.read s.mem a.toNat

/-- What the bus would answer to a read of `a` now (R107, R110): memory's byte, or the device's answer. -/
def State.answer (s : State) (a : Addr) : Byte :=
  if s.isIo a then Config.busAnswer s.busLog a else s.byteAt a

/-- Record a bus event. -/
def State.logEvent (s : State) (e : BusEvent) : State := s.setBusLog (e :: s.busLog)

/-- `MemRead(a, 1)`: one call of the bus `read` (R23, R100), as the byte answered and the state after. -/
def busRead (a : Addr) (s : State) : Byte × State := (s.answer a, s.logEvent (.read a (s.answer a)))

/-- `MemWrite(a, 1, v)`: one call of the bus `write` (R23, R100). A device's address keeps nothing in memory. -/
def busWrite (a : Addr) (v : Byte) (s : State) : State :=
  (if s.isIo a then s else s.setMem (Memory.write s.mem a.toNat v)).logEvent (.write a v)

/-- `read_debug(a)`: free of side effects, so it answers a byte and no state (R106). -/
def readDebug (a : Addr) (s : State) : Byte :=
  if s.isIo a then Config.debugAnswer s.busLog a else s.byteAt a

/-- `Read16(lo_addr, hi_addr)`: two reads, the low byte's first (R23, R103). -/
def read16 (loAddr hiAddr : Addr) (s : State) : Addr × State :=
  let lo := busRead loAddr s
  let hi := busRead hiAddr lo.2
  (mkAddr hi.1 lo.1, hi.2)

/-- `Fetch()`: read the byte at PC, then advance PC modulo 2^16 (R23, R55, R501). -/
def fetch (s : State) : Byte × State :=
  let r := busRead s.pc s
  (r.1, r.2.setPc (s.pc + 1))

/-! ## The stack -/

/-- The address `0x0100 + S` (R54, R108). -/
def stackAddr (sp : Byte) : Addr := 0x0100 + zeroPage sp

/-- `Push(v)`: write, then decrement S modulo 256 (R120). -/
def push (v : Byte) (s : State) : State := (busWrite (stackAddr s.sp) v s).setSp (s.sp - 1)

/-- `Pull()`: increment S modulo 256, then read (R121). -/
def pull (s : State) : Byte × State :=
  let s1 := s.setSp (s.sp + 1)
  busRead (stackAddr s1.sp) s1

/-- `Push16(v)`: the high byte first (R122). -/
def push16 (v : Addr) (s : State) : State := push (loByte v) (push (hiByte v) s)

/-- `Pull16()`: the low byte first (R122). -/
def pull16 (s : State) : Addr × State :=
  let lo := pull s
  let hi := pull lo.2
  (mkAddr hi.1 lo.1, hi.2)

/-! ## The image of P -/

/-- A flag as a byte, 0 or 1. -/
def bitByte (b : Bool) : Byte := if b then 1 else 0

/-- `P_image(b)` (R57): N, V, 1, B, D, I, Z, C from bit 7 down to bit 0. -/
def pImage (b : Bool) (p : Flags) : Byte :=
  bitByte p.n <<< 7 ||| bitByte p.v <<< 6 ||| (1 : Byte) <<< 5 ||| bitByte b <<< 4 |||
    bitByte p.d <<< 3 ||| bitByte p.i <<< 2 ||| bitByte p.z <<< 1 ||| bitByte p.c

/-- The six flags of an image; bits 5 and 4 are ignored (R58). -/
def loadP (v : Byte) : Flags :=
  { n := v.getLsbD 7
    v := v.getLsbD 6
    d := v.getLsbD 3
    i := v.getLsbD 2
    z := v.getLsbD 1
    c := v.getLsbD 0 }

/-! ## Exceptions -/

/-- The events that change the flow other than by an ordinary instruction (R600). -/
inductive Event where
  | reset | nmi | irq | brk | illegalOpcode
  deriving DecidableEq, Repr

/-- The spec's code of an event (R600; 92_eei_decisions.md D38). No hardware records it. -/
def Event.code : Event → Nat
  | .reset => 0
  | .nmi => 1
  | .irq => 2
  | .brk => 3
  | .illegalOpcode => 4

/-- The address of the low byte of an event's vector; IllegalOpcode has none (R108, R600). -/
def Event.vector : Event → Option Addr
  | .reset => some 0xFFFC
  | .nmi => some 0xFFFA
  | .irq => some 0xFFFE
  | .brk => some 0xFFFE
  | .illegalOpcode => none

/-- Taking an exception, the one operation that NMI, IRQ and BRK share (R463, R610): push PC and the image of P with
break bit `b`, set I, clear D where the configuration says so, and load PC from the vector at `vec`. -/
def enterException (b : Bool) (vec : Addr) (s : State) : State :=
  let s1 := push16 s.pc s
  let s2 := push (pImage b s1.p) s1
  let s3 := s2.setP { s2.p with i := true, d := if s2.cfg.clearDOnInterrupt then false else s2.p.d }
  let r := read16 vec (vec + 1) s3
  r.2.setPc r.1

/-- The return from an exception (R464, R616): pull the six flags, then PC. -/
def returnFromException (s : State) : State :=
  let v := pull s
  let s1 := v.2.setP (loadP v.1)
  let r := pull16 s1
  r.2.setPc r.1

/-- `InterruptEntry(vec)`: the entry of NMI and IRQ, 7 cycles (R610). -/
def interruptEntry (vec : Addr) (s : State) : State :=
  let t := enterException false vec s
  t.setCycles (t.cycles + 7)

/-- The two interrupts (R600). -/
inductive Interrupt where
  | nmi | irq
  deriving DecidableEq, Repr

/-- The address of the low byte of an interrupt's vector (R108, R611, R612). -/
def Interrupt.vector : Interrupt → Addr
  | .nmi => 0xFFFA
  | .irq => 0xFFFE

/-- The interrupt check of a boundary (R611 to R613): which interrupt is taken, NMI first, an IRQ only with I clear; the
NMI latch is consumed where it is taken, the IRQ latch at every boundary. -/
def acceptInterrupt (s : State) : Option Interrupt × State :=
  let s1 := s.setIrq false
  if s.nmiPending then (some .nmi, s1.setNmi false)
  else if s.irqPending && !s.p.i then (some .irq, s1)
  else (none, s1)

/-- `ServiceInterrupts()`: the check and, where an interrupt is taken, its entry (R613). -/
def serviceInterrupts (s : State) : State :=
  let r := acceptInterrupt s
  match r.1 with
  | some k => interruptEntry k.vector r.2
  | none => r.2

/-- `raise_nmi()` (R614). -/
def raiseNmi (s : State) : State := s.setNmi true

/-- `raise_irq()` (R614). -/
def raiseIrq (s : State) : State := s.setIrq true

/-! ## Scratch and reset -/

/-- The scratch reset at the start of every instruction (R60, R505). -/
def State.clearScratch (s : State) : State :=
  s.setScratch { s.scratch with accMode := false, pageCross := false, opPenalty := false }

/-- P after reset (R700): I set, D clear on Cmos, the other flags from `reset_regs`. -/
def resetFlags (cfg : Config) : Flags :=
  { n := cfg.resetRegs.n
    v := cfg.resetRegs.v
    d := if cfg.variant = .cmos then false else cfg.resetRegs.d
    i := true
    z := cfg.resetRegs.z
    c := cfg.resetRegs.c }

/-- `reset()` (R700, R701): the latches and the scratch flags cleared, the registers from `reset_regs`, PC read from
the reset vector; the counters and the hook stand. DESIGN CHOICE (log 20): no family is refused here, so an instance of
another family is reset as the 6502's; its refusal is at `step` and `run`. DESIGN CHOICE (log 21): `opcode`, `ea`, `rel`
and `value` keep what the last instruction left. DESIGN CHOICE (log 22): the sequencer of a microprogram-driven family
drops its operation, so that its next micro-step call is a boundary. -/
def hostReset (s : State) : State :=
  let s1 := (((s.setNmi false).setIrq false).clearScratch).setSeq .idle
  let s2 := (((s1.setA s.cfg.resetRegs.a).setX s.cfg.resetRegs.x).setY s.cfg.resetRegs.y).setSp s.cfg.resetRegs.s
  let s3 := s2.setP (resetFlags s.cfg)
  let r := read16 0xFFFC 0xFFFD s3
  r.2.setPc r.1

/-! ## Debug access -/

/-- `save()`: the seven bytes of the register file (R630). -/
def save (s : State) : List Byte :=
  [loByte s.pc, hiByte s.pc, s.a, s.x, s.y, s.sp, pImage true s.p]

/-- `get_pc()` (R632). -/
def getPc (s : State) : Addr := s.pc

/-- `get_cycles()` (R632). -/
def getCycles (s : State) : Nat := s.cycles

/-- `get_instructions()` (R632). -/
def getInstructions (s : State) : Nat := s.instructions

end Sys2Proof.Machine
end

