-- ==== Sys2Proof/Machine/Flags.lean ====
section
/-! DEFINITION. The results and flags of the arithmetic, compare and shift operations, each as the spec's pseudocode
computes it: operands to integers, the exact result, then narrowed (spec R300 to R307, R350 to R361). -/

namespace Sys2Proof.Machine

/-- `P` after `setNZ(v)` (R22). -/
def nzFlags (p : Flags) (v : Byte) : Flags := { p with n := v.getLsbD 7, z := v == 0 }

/-- `setNZ(v)` (R22). -/
def State.setNZ (s : State) (v : Byte) : State := s.setP (nzFlags s.p v)

/-- A carry as a number. -/
def carryNat (c : Bool) : Nat := if c then 1 else 0

/-- What an ALU operation gives: the result byte and P after it. -/
structure AluResult where
  value : Byte
  p : Flags
  deriving DecidableEq, Repr

/-- `AdcBinary(m)` (R302). -/
def adcBinary (a m : Byte) (p : Flags) : AluResult :=
  let t := a.toNat + m.toNat + carryNat p.c
  let r := BitVec.ofNat 8 t
  { value := r
    p := nzFlags { p with c := decide (256 ≤ t), v := ((a ^^^ r) &&& (m ^^^ r)).getLsbD 7 } r }

/-- `SbcBinary(m)`: the binary add of the complemented operand (R305). -/
def sbcBinary (a m : Byte) (p : Flags) : AluResult := adcBinary a (m ^^^ 0xFF) p

/-- The high digit of a byte as an unsigned value, `v & 0xF0`. -/
def highDigit (v : Byte) : Nat := (v &&& 0xF0).toNat

/-- The low digit of a byte, `v & 0x0F`. -/
def lowDigit (v : Byte) : Nat := (v &&& 0x0F).toNat

/-- `AdcDecimal(m)` (R303); `cmos` is true where `bcd_mode = Cmos`. -/
def adcDecimal (cmos : Bool) (a m : Byte) (p : Flags) : AluResult :=
  let c := carryNat p.c
  let al0 := lowDigit a + lowDigit m + c
  let al := if 0x0A ≤ al0 then (al0 + 0x06) % 16 + 0x10 else al0
  let s0 := highDigit a + highDigit m + al
  let ss : Int := (a &&& 0xF0).toInt + (m &&& 0xF0).toInt + al
  let nflag := s0.testBit 7
  let vflag := decide (ss < -128) || decide (127 < ss)
  let s := if 0xA0 ≤ s0 then s0 + 0x60 else s0
  let r := BitVec.ofNat 8 s
  let p1 := { p with v := vflag, c := decide (0x100 ≤ s) }
  { value := r
    p := if cmos then nzFlags p1 r
         else { p1 with n := nflag, z := decide ((a.toNat + m.toNat + c) % 256 = 0) } }

/-- `SbcDecimal(m)` (R306); `cmos` is true where `bcd_mode = Cmos`. -/
def sbcDecimal (cmos : Bool) (a m : Byte) (p : Flags) : AluResult :=
  let c := carryNat p.c
  let mc := m ^^^ 0xFF
  let t := a.toNat + mc.toNat + c
  let bin := BitVec.ofNat 8 t
  let p1 := { p with c := decide (256 ≤ t), v := ((a ^^^ bin) &&& (mc ^^^ bin)).getLsbD 7 }
  let al : Int := (lowDigit a : Int) - lowDigit m + c - 1
  if cmos then
    let s0 : Int := (a.toNat : Int) - m.toNat + c - 1
    let s1 := if s0 < 0 then s0 - 0x60 else s0
    let s2 := if al < 0 then s1 - 0x06 else s1
    let r := BitVec.ofInt 8 s2
    { value := r, p := nzFlags p1 r }
  else
    let al1 := if al < 0 then (al - 0x06) % 16 - 0x10 else al
    let s0 : Int := (highDigit a : Int) - highDigit m + al1
    let s1 := if s0 < 0 then s0 - 0x60 else s0
    { value := BitVec.ofInt 8 s1, p := nzFlags p1 bin }

/-- P after `Compare(reg, m)` (R307): no borrow in, V and D unchanged. -/
def compareFlags (reg m : Byte) (p : Flags) : Flags :=
  let t := reg.toNat + (m ^^^ 0xFF).toNat + 1
  nzFlags { p with c := decide (256 ≤ t) } (BitVec.ofNat 8 t)

/-- P after `BIT` of operand `m` (R354). -/
def bitFlags (a m : Byte) (p : Flags) : Flags :=
  { p with z := (a &&& m) == 0, n := m.getLsbD 7, v := m.getLsbD 6 }

/-- `ASL` (R356). -/
def aslResult (v : Byte) (p : Flags) : AluResult :=
  let r := v <<< 1
  { value := r, p := nzFlags { p with c := v.getLsbD 7 } r }

/-- `LSR` (R357). -/
def lsrResult (v : Byte) (p : Flags) : AluResult :=
  let r := v >>> 1
  { value := r, p := nzFlags { p with c := v.getLsbD 0 } r }

/-- `ROL` (R358). -/
def rolResult (v : Byte) (p : Flags) : AluResult :=
  let r := v <<< 1 ||| bitByte p.c
  { value := r, p := nzFlags { p with c := v.getLsbD 7 } r }

/-- `ROR` (R359). -/
def rorResult (v : Byte) (p : Flags) : AluResult :=
  let r := v >>> 1 ||| bitByte p.c <<< 7
  { value := r, p := nzFlags { p with c := v.getLsbD 0 } r }

/-- `INC` (R360). -/
def incResult (v : Byte) (p : Flags) : AluResult :=
  let r := v + 1
  { value := r, p := nzFlags p r }

/-- `DEC` (R361). -/
def decResult (v : Byte) (p : Flags) : AluResult :=
  let r := v - 1
  { value := r, p := nzFlags p r }

end Sys2Proof.Machine
end

