-- ==== Sys2Proof/Machine/Operands.lean ====
section
/-! DEFINITION. The addressing-mode resolvers (spec R200 to R213), the page test (R214), reading and writing the
operand (R215, R216), and how a resolver fetches its own operand bytes for an illegal opcode run as a NOP (R467). -/

namespace Sys2Proof.Machine

/-- Are two addresses on different pages (R214)? -/
def pagesDiffer (u v : Addr) : Bool := hiByte u != hiByte v

/-- Write the effective address. -/
def State.setEa (s : State) (ea : Addr) : State := s.setScratch { s.scratch with ea := ea }

/-- Write the effective address of an indexed mode and its page-cross flag, against the base it came from (R214). -/
def State.setEaFrom (s : State) (base ea : Addr) : State :=
  s.setScratch { s.scratch with ea := ea, pageCross := pagesDiffer ea base }

/-- The address of the high byte of a zero-page pointer: it wraps within the zero page (R208, R209). -/
def pointerHigh (p : Byte) : Addr := zeroPage (p + 1)

/-- The address of the high byte of a JMP indirect pointer: within the pointer's page on Nmos, the next address on
Cmos (R211). -/
def indirectHigh (variant : Variant) (w : Addr) : Addr :=
  match variant with
  | .nmos => mkAddr (hiByte w) (loByte w + 1)
  | .cmos => w + 1

/-- The resolver of an operand whose bytes have been fetched, PC standing after them (R201 to R213). In immediate
mode the operand byte is the last one fetched, so `ea` is PC - 1. -/
def resolve (o : Operand) (s : State) : State :=
  match o with
  | .acc => s.setScratch { s.scratch with accMode := true }
  | .imp => s
  | .imm _ => s.setEa (s.pc - 1)
  | .zp b => s.setEa (zeroPage b)
  | .zpx b => s.setEa (zeroPage (b + s.x))
  | .zpy b => s.setEa (zeroPage (b + s.y))
  | .izx b =>
    let p := b + s.x
    let r := read16 (zeroPage p) (pointerHigh p) s
    r.2.setEa r.1
  | .izy b =>
    let r := read16 (zeroPage b) (pointerHigh b) s
    r.2.setEaFrom r.1 (r.1 + zeroPage s.y)
  | .abs w => s.setEa w
  | .abx w => s.setEaFrom w (w + zeroPage s.x)
  | .aby w => s.setEaFrom w (w + zeroPage s.y)
  | .ind w =>
    let r := read16 w (indirectHigh s.cfg.variant w) s
    r.2.setEa r.1
  | .rel b => s.setScratch { s.scratch with rel := b.toInt }

/-- The resolver of a mode run from PC, fetching its own operand bytes (R201 to R213). Immediate mode makes no bus
event: it only steps PC over the byte that the handler would read (R203). -/
def fetchAndResolve (m : Mode) (s : State) : State :=
  match m with
  | .acc => resolve .acc s
  | .imp => resolve .imp s
  | .imm => resolve (.imm 0) (s.setPc (s.pc + 1))
  | .zp => let b := fetch s; resolve (.zp b.1) b.2
  | .zpx => let b := fetch s; resolve (.zpx b.1) b.2
  | .zpy => let b := fetch s; resolve (.zpy b.1) b.2
  | .izx => let b := fetch s; resolve (.izx b.1) b.2
  | .izy => let b := fetch s; resolve (.izy b.1) b.2
  | .rel => let b := fetch s; resolve (.rel b.1) b.2
  | .abs => let lo := fetch s; let hi := fetch lo.2; resolve (.abs (mkAddr hi.1 lo.1)) hi.2
  | .abx => let lo := fetch s; let hi := fetch lo.2; resolve (.abx (mkAddr hi.1 lo.1)) hi.2
  | .aby => let lo := fetch s; let hi := fetch lo.2; resolve (.aby (mkAddr hi.1 lo.1)) hi.2
  | .ind => let lo := fetch s; let hi := fetch lo.2; resolve (.ind (mkAddr hi.1 lo.1)) hi.2

/-- Write the fetched operand into the scratch `value`. -/
def State.setValue (s : State) (v : Byte) : State := s.setScratch { s.scratch with value := v }

/-- `ReadOperand()` (R215). The bus read of an immediate operand is the driver's fetch of that byte (log 7), so here
the byte is the operand's own. -/
def readOperand (o : Operand) (s : State) : State :=
  match o with
  | .imm b => s.setValue b
  | _ =>
    if s.scratch.accMode then s.setValue s.a
    else
      let r := busRead s.scratch.ea s
      r.2.setValue r.1

/-- `WriteOperand(v)` (R216). -/
def writeOperand (v : Byte) (s : State) : State :=
  if s.scratch.accMode then s.setA v else busWrite s.scratch.ea v s

/-- `op_penalty <- e` (R504). -/
def State.setPenalty (s : State) (e : Bool) : State := s.setScratch { s.scratch with opPenalty := e }

end Sys2Proof.Machine
end

