-- ==== Sys2Proof/Machine/Tables.lean ====
section
/-! DEFINITION. The dispatch tables of the engine (spec R500) and the driver's frame around a handler: scratch reset,
mode resolver, handler, cycle accounting (R503 to R505, R510, R511). -/

namespace Sys2Proof.Machine

/-- The addressing-mode table: `none` for an illegal opcode (R500). -/
def modeTable (op : Byte) : Option Mode :=
  match instrOf op 0 0 with
  | .illegal _ => none
  | i => some i.operand.mode

/-- The base cycle counts by high nibble and low nibble, 0 for an illegal opcode (R500, R720). -/
def baseCyclesMap : List (List Nat) :=
  [[7, 6, 0, 0, 0, 3, 5, 0, 3, 2, 2, 0, 0, 4, 6, 0],
   [2, 5, 0, 0, 0, 4, 6, 0, 2, 4, 0, 0, 0, 4, 7, 0],
   [6, 6, 0, 0, 3, 3, 5, 0, 4, 2, 2, 0, 4, 4, 6, 0],
   [2, 5, 0, 0, 0, 4, 6, 0, 2, 4, 0, 0, 0, 4, 7, 0],
   [6, 6, 0, 0, 0, 3, 5, 0, 3, 2, 2, 0, 3, 4, 6, 0],
   [2, 5, 0, 0, 0, 4, 6, 0, 2, 4, 0, 0, 0, 4, 7, 0],
   [6, 6, 0, 0, 0, 3, 5, 0, 4, 2, 2, 0, 5, 4, 6, 0],
   [2, 5, 0, 0, 0, 4, 6, 0, 2, 4, 0, 0, 0, 4, 7, 0],
   [0, 6, 0, 0, 3, 3, 3, 0, 2, 0, 2, 0, 4, 4, 4, 0],
   [2, 6, 0, 0, 4, 4, 4, 0, 2, 5, 2, 0, 0, 5, 0, 0],
   [2, 6, 2, 0, 3, 3, 3, 0, 2, 2, 2, 0, 4, 4, 4, 0],
   [2, 5, 0, 0, 4, 4, 4, 0, 2, 4, 2, 0, 4, 4, 4, 0],
   [2, 6, 0, 0, 3, 3, 5, 0, 2, 2, 2, 0, 4, 4, 6, 0],
   [2, 5, 0, 0, 0, 4, 6, 0, 2, 4, 0, 0, 0, 4, 7, 0],
   [2, 6, 0, 0, 3, 3, 5, 0, 2, 2, 2, 0, 4, 4, 6, 0],
   [2, 5, 0, 0, 0, 4, 6, 0, 2, 4, 0, 0, 0, 4, 7, 0]]

/-- The base cycle count of an opcode: the map's, but 6 for JMP indirect on Cmos (R500, R741). -/
def baseCycles (variant : Variant) (op : Byte) : Nat :=
  if op = 0x6C then
    match variant with
    | .nmos => 5
    | .cmos => 6
  else (baseCyclesMap.getD (op.toNat / 16) []).getD (op.toNat % 16) 0

/-- The page-crossing penalty: 1 where both flags are set (R510). -/
def penaltyCycles (s : State) : Nat := if s.scratch.pageCross && s.scratch.opPenalty then 1 else 0

/-- CYCLE-ACCOUNT and the instruction counter (R510, R511); the instruction's result is the cycles since `start`. -/
def account (start base : Nat) (s : State) : State :=
  let total := s.cycles + base + penaltyCycles s
  ((s.setCycles total).setInstructions (s.instructions + 1)).setLastStep (some (.ok (total - start)))

/-- One documented instruction after its bytes have been fetched (R503 to R511): PC stands after the instruction. A
term that is no instruction of the opcode map is refused (log 14). -/
def perform (i : Instr) (handler : State → State) (s : State) : Host.Outcome State Fault Refusal :=
  match opcodeOf i with
  | some op =>
    .next (account s.cycles (baseCycles s.cfg.variant op) (handler (resolve i.operand s.clearScratch)))
  | none => .refused .illFormed

end Sys2Proof.Machine
end

