-- ==== Sys2Proof/Machine/Arith.lean ====
section
/-! DEFINITION. The arithmetic and compare instructions (spec R300 to R310). -/

namespace Sys2Proof.Machine

/-- Is the arithmetic of ADC and SBC decimal (R301, R304)? -/
def decimalMode (s : State) : Bool := s.p.d && decide (s.cfg.bcdMode ≠ .disabled)

/-- The extra cycle of the Cmos decimal form (R301, R304, R741). -/
def decimalCycle (s : State) : Nat := if s.p.d && decide (s.cfg.bcdMode = .cmos) then 1 else 0

/-- What ADC computes of A and the operand byte (R301). -/
def adcResult (m : Byte) (s : State) : AluResult :=
  if decimalMode s then adcDecimal (decide (s.cfg.bcdMode = .cmos)) s.a m s.p else adcBinary s.a m s.p

/-- What SBC computes of A and the operand byte (R304). -/
def sbcResult (m : Byte) (s : State) : AluResult :=
  if decimalMode s then sbcDecimal (decide (s.cfg.bcdMode = .cmos)) s.a m s.p else sbcBinary s.a m s.p

/-- The handler that ADC and SBC share: read the operand, set `op_penalty`, write A and P, add the Cmos decimal cycle
(R301, R304). -/
def arithmeticHandler (f : Byte → State → AluResult) (o : Operand) (s : State) : State :=
  let s1 := (readOperand o s).setPenalty true
  let r := f s1.scratch.value s1
  ((s1.setA r.value).setP r.p).setCycles (s1.cycles + decimalCycle s1)

/-- The compare handler: the operand is read and only P is written (R307). -/
def compareHandler (reg : State → Byte) (o : Operand) (s : State) : State :=
  let s1 := readOperand o s
  s1.setP (compareFlags (reg s1) s1.scratch.value s1.p)

/-- ADC (R301). -/
def execAdc (o : Operand) (s : State) : Host.Outcome State Fault Refusal :=
  perform (.adc o) (arithmeticHandler adcResult o) s

/-- SBC (R304). -/
def execSbc (o : Operand) (s : State) : Host.Outcome State Fault Refusal :=
  perform (.sbc o) (arithmeticHandler sbcResult o) s

/-- CMP, which also sets `op_penalty` (R308). -/
def execCmp (o : Operand) (s : State) : Host.Outcome State Fault Refusal :=
  perform (.cmp o) (fun t => (compareHandler State.a o t).setPenalty true) s

/-- CPX (R309). -/
def execCpx (o : Operand) (s : State) : Host.Outcome State Fault Refusal :=
  perform (.cpx o) (compareHandler State.x o) s

/-- CPY (R310). -/
def execCpy (o : Operand) (s : State) : Host.Outcome State Fault Refusal :=
  perform (.cpy o) (compareHandler State.y o) s

end Sys2Proof.Machine
end

