-- ==== Sys2Proof/Machine/Control.lean ====
section
/-! DEFINITION. The control transfer instructions (spec R400 to R413). -/

namespace Sys2Proof.Machine

/-- Where a taken branch goes: PC plus the displacement, modulo 2^16 (R400). -/
def branchTarget (pc : Addr) (rel : Int) : Addr := BitVec.ofInt 16 (pc.toNat + rel)

/-- `Branch(cond)`: a taken branch costs one cycle, and one more where its target is on another page than the next
instruction (R400). -/
def branchHandler (cond : Flags → Bool) (s : State) : State :=
  if cond s.p then
    let target := branchTarget s.pc s.scratch.rel
    (s.setCycles (s.cycles + 1 + if pagesDiffer target s.pc then 1 else 0)).setPc target
  else s

/-- BPL (R401). -/
def execBpl (rel : Byte) (s : State) : Host.Outcome State Fault Refusal :=
  perform (.bpl rel) (branchHandler (fun p => !p.n)) s

/-- BMI (R402). -/
def execBmi (rel : Byte) (s : State) : Host.Outcome State Fault Refusal :=
  perform (.bmi rel) (branchHandler (fun p => p.n)) s

/-- BVC (R403). -/
def execBvc (rel : Byte) (s : State) : Host.Outcome State Fault Refusal :=
  perform (.bvc rel) (branchHandler (fun p => !p.v)) s

/-- BVS (R404). -/
def execBvs (rel : Byte) (s : State) : Host.Outcome State Fault Refusal :=
  perform (.bvs rel) (branchHandler (fun p => p.v)) s

/-- BCC (R405). -/
def execBcc (rel : Byte) (s : State) : Host.Outcome State Fault Refusal :=
  perform (.bcc rel) (branchHandler (fun p => !p.c)) s

/-- BCS (R406). -/
def execBcs (rel : Byte) (s : State) : Host.Outcome State Fault Refusal :=
  perform (.bcs rel) (branchHandler (fun p => p.c)) s

/-- BNE (R407). -/
def execBne (rel : Byte) (s : State) : Host.Outcome State Fault Refusal :=
  perform (.bne rel) (branchHandler (fun p => !p.z)) s

/-- BEQ (R408). -/
def execBeq (rel : Byte) (s : State) : Host.Outcome State Fault Refusal :=
  perform (.beq rel) (branchHandler (fun p => p.z)) s

/-- JMP absolute (R410). -/
def execJmpAbs (target : Addr) (s : State) : Host.Outcome State Fault Refusal :=
  perform (.jmpAbs target) (fun t => t.setPc t.scratch.ea) s

/-- JMP indirect (R411). -/
def execJmpInd (pointer : Addr) (s : State) : Host.Outcome State Fault Refusal :=
  perform (.jmpInd pointer) (fun t => t.setPc t.scratch.ea) s

/-- JSR: push the address of its last byte, then jump (R412). -/
def execJsr (target : Addr) (s : State) : Host.Outcome State Fault Refusal :=
  perform (.jsr target) (fun t => (push16 (t.pc - 1) t).setPc t.scratch.ea) s

/-- The handler of RTS: the pulled address plus one (R413). -/
def rtsHandler (s : State) : State :=
  let r := pull16 s
  r.2.setPc (r.1 + 1)

/-- RTS (R413). -/
def execRts (s : State) : Host.Outcome State Fault Refusal := perform .rts rtsHandler s

end Sys2Proof.Machine
end

