-- ==== Sys2Proof/Machine/Illegal.lean ====
section
/-! DEFINITION. The illegal opcodes, raised or executed as NOPs by the configuration (spec R13, R467, R502, R620 to R622). -/

namespace Sys2Proof.Machine

/-- The configured NOP shape of an illegal opcode, the first listed (R13). -/
def shapeOf (cfg : Config) (op : Byte) : Option Shape :=
  (cfg.illegalShape.find? (fun e => e.1 == op)).map (fun e => e.2)

/-- What the engine does with an illegal opcode (R502): `some shape` runs as a NOP of that shape, `none` raises. -/
def illegalAction (cfg : Config) (policy : IllegalPolicy) (op : Byte) : Option Shape :=
  match policy with
  | .strict => none
  | .nop => shapeOf cfg op

/-- IllegalOpcode raised (R620): PC back to the opcode, nothing else of the machine changed; the result says so. -/
def raiseIllegal (op : Byte) (s : State) : State :=
  (s.setPc (s.pc - 1)).setLastStep (some (.illegal (s.pc - 1) op 0))

/-- An illegal opcode executed as a NOP of a shape (R467): its mode's resolver runs from PC, nothing is read or
written, and the page-cross penalty is the shape's. -/
def performNop (sh : Shape) (s : State) : State :=
  account s.cycles sh.base ((fetchAndResolve sh.mode s.clearScratch).setPenalty sh.eligible)

/-- An illegal opcode (R467, R502, R620 to R622): PC stands after the opcode byte. A byte that is no illegal opcode is
refused (log 14), and so is a configuration that gives no policy (R13, 93 U5). -/
def execIllegal (opcode : Byte) (s : State) : Host.Outcome State Fault Refusal :=
  match opcodeOf (.illegal opcode) with
  | none => .refused .illFormed
  | some op =>
    match s.cfg.illegalPolicy with
    | none => .refused .policyNotGiven
    | some policy =>
      match illegalAction s.cfg policy op with
      | some sh => .next (performNop sh s)
      | none => .next (raiseIllegal op s)

end Sys2Proof.Machine
end

