-- ==== Sys2Proof/Machine/Load.lean ====
section
/-! DEFINITION. The load, store and transfer instructions (spec R250 to R262). -/

namespace Sys2Proof.Machine

/-! ## Loads (R250) -/

/-- The common load: read the operand, write the register with `set`, set N and Z, and set `op_penalty` (R250). -/
def loadHandler (set : State → Byte → State) (o : Operand) (s : State) : State :=
  let s1 := readOperand o s
  ((set s1 s1.scratch.value).setNZ s1.scratch.value).setPenalty true

/-- LDA (R251). -/
def execLda (o : Operand) (s : State) : Host.Outcome State Fault Refusal :=
  perform (.lda o) (loadHandler State.setA o) s

/-- LDX (R252). -/
def execLdx (o : Operand) (s : State) : Host.Outcome State Fault Refusal :=
  perform (.ldx o) (loadHandler State.setX o) s

/-- LDY (R253). -/
def execLdy (o : Operand) (s : State) : Host.Outcome State Fault Refusal :=
  perform (.ldy o) (loadHandler State.setY o) s

/-! ## Stores: one bus write, no flag, no read (R254 to R256) -/

/-- STA (R254). -/
def execSta (o : Operand) (s : State) : Host.Outcome State Fault Refusal :=
  perform (.sta o) (fun t => busWrite t.scratch.ea t.a t) s

/-- STX (R255). -/
def execStx (o : Operand) (s : State) : Host.Outcome State Fault Refusal :=
  perform (.stx o) (fun t => busWrite t.scratch.ea t.x t) s

/-- STY (R256). -/
def execSty (o : Operand) (s : State) : Host.Outcome State Fault Refusal :=
  perform (.sty o) (fun t => busWrite t.scratch.ea t.y t) s

/-! ## Register transfers (R257 to R262) -/

/-- TAX (R257). -/
def execTax (s : State) : Host.Outcome State Fault Refusal := perform .tax (fun t => (t.setX t.a).setNZ t.a) s

/-- TAY (R258). -/
def execTay (s : State) : Host.Outcome State Fault Refusal := perform .tay (fun t => (t.setY t.a).setNZ t.a) s

/-- TXA (R259). -/
def execTxa (s : State) : Host.Outcome State Fault Refusal := perform .txa (fun t => (t.setA t.x).setNZ t.x) s

/-- TYA (R260). -/
def execTya (s : State) : Host.Outcome State Fault Refusal := perform .tya (fun t => (t.setA t.y).setNZ t.y) s

/-- TSX (R261). -/
def execTsx (s : State) : Host.Outcome State Fault Refusal := perform .tsx (fun t => (t.setX t.sp).setNZ t.sp) s

/-- TXS, which writes no flag (R262). -/
def execTxs (s : State) : Host.Outcome State Fault Refusal := perform .txs (fun t => t.setSp t.x) s

end Sys2Proof.Machine
end

