-- ==== Sys2Proof/Machine/Logic.lean ====
section
/-! DEFINITION. The logic, shift, increment and decrement instructions (spec R350 to R365). -/

namespace Sys2Proof.Machine

/-- The bitwise handler: A combined with the operand, N and Z from the result, `op_penalty` set (R350). -/
def logicHandler (f : Byte → Byte → Byte) (o : Operand) (s : State) : State :=
  let s1 := readOperand o s
  let r := f s1.a s1.scratch.value
  ((s1.setA r).setNZ r).setPenalty true

/-- The read-modify-write handler: one read, then one write, of A or of the byte at `ea` (R355). -/
def rmwHandler (f : Byte → Flags → AluResult) (o : Operand) (s : State) : State :=
  let s1 := readOperand o s
  let r := f s1.scratch.value s1.p
  writeOperand r.value (s1.setP r.p)

/-- AND (R351). -/
def execAnd (o : Operand) (s : State) : Host.Outcome State Fault Refusal :=
  perform (.and o) (logicHandler (fun a m => a &&& m) o) s

/-- ORA (R352). -/
def execOra (o : Operand) (s : State) : Host.Outcome State Fault Refusal :=
  perform (.ora o) (logicHandler (fun a m => a ||| m) o) s

/-- EOR (R353). -/
def execEor (o : Operand) (s : State) : Host.Outcome State Fault Refusal :=
  perform (.eor o) (logicHandler (fun a m => a ^^^ m) o) s

/-- The handler of BIT: only P is written (R354). -/
def bitHandler (o : Operand) (s : State) : State :=
  let s1 := readOperand o s
  s1.setP (bitFlags s1.a s1.scratch.value s1.p)

/-- BIT (R354). -/
def execBit (o : Operand) (s : State) : Host.Outcome State Fault Refusal :=
  perform (.bit o) (bitHandler o) s

/-- ASL (R356). -/
def execAsl (o : Operand) (s : State) : Host.Outcome State Fault Refusal :=
  perform (.asl o) (rmwHandler aslResult o) s

/-- LSR (R357). -/
def execLsr (o : Operand) (s : State) : Host.Outcome State Fault Refusal :=
  perform (.lsr o) (rmwHandler lsrResult o) s

/-- ROL (R358). -/
def execRol (o : Operand) (s : State) : Host.Outcome State Fault Refusal :=
  perform (.rol o) (rmwHandler rolResult o) s

/-- ROR (R359). -/
def execRor (o : Operand) (s : State) : Host.Outcome State Fault Refusal :=
  perform (.ror o) (rmwHandler rorResult o) s

/-- INC (R360). -/
def execInc (o : Operand) (s : State) : Host.Outcome State Fault Refusal :=
  perform (.inc o) (rmwHandler incResult o) s

/-- DEC (R361). -/
def execDec (o : Operand) (s : State) : Host.Outcome State Fault Refusal :=
  perform (.dec o) (rmwHandler decResult o) s

/-- INX (R362). -/
def execInx (s : State) : Host.Outcome State Fault Refusal := perform .inx (fun t => (t.setX (t.x + 1)).setNZ (t.x + 1)) s

/-- INY (R363). -/
def execIny (s : State) : Host.Outcome State Fault Refusal := perform .iny (fun t => (t.setY (t.y + 1)).setNZ (t.y + 1)) s

/-- DEX (R364). -/
def execDex (s : State) : Host.Outcome State Fault Refusal := perform .dex (fun t => (t.setX (t.x - 1)).setNZ (t.x - 1)) s

/-- DEY (R365). -/
def execDey (s : State) : Host.Outcome State Fault Refusal := perform .dey (fun t => (t.setY (t.y - 1)).setNZ (t.y - 1)) s

end Sys2Proof.Machine
end

