-- ==== Sys2Proof/Machine/System.lean ====
section
/-! DEFINITION. The stack, flag and system instructions (spec R451 to R464). -/

namespace Sys2Proof.Machine

/-! ## Stack (R451 to R454) -/

/-- PHA (R451). -/
def execPha (s : State) : Host.Outcome State Fault Refusal := perform .pha (fun t => push t.a t) s

/-- The handler of PLA: A, N and Z from the pulled byte (R452). -/
def plaHandler (s : State) : State :=
  let r := pull s
  (r.2.setA r.1).setNZ r.1

/-- PLA (R452). -/
def execPla (s : State) : Host.Outcome State Fault Refusal := perform .pla plaHandler s

/-- PHP, with B and bit 5 set in the pushed byte (R453). -/
def execPhp (s : State) : Host.Outcome State Fault Refusal := perform .php (fun t => push (pImage true t.p) t) s

/-- The handler of PLP: the six flags from the pulled byte (R454). -/
def plpHandler (s : State) : State :=
  let r := pull s
  r.2.setP (loadP r.1)

/-- PLP (R454). -/
def execPlp (s : State) : Host.Outcome State Fault Refusal := perform .plp plpHandler s

/-! ## Flags (R455 to R461) -/

/-- CLC (R455). -/
def execClc (s : State) : Host.Outcome State Fault Refusal := perform .clc (fun t => t.setP { t.p with c := false }) s

/-- SEC (R456). -/
def execSec (s : State) : Host.Outcome State Fault Refusal := perform .sec (fun t => t.setP { t.p with c := true }) s

/-- CLI (R457). -/
def execCli (s : State) : Host.Outcome State Fault Refusal := perform .cli (fun t => t.setP { t.p with i := false }) s

/-- SEI (R458). -/
def execSei (s : State) : Host.Outcome State Fault Refusal := perform .sei (fun t => t.setP { t.p with i := true }) s

/-- CLD (R459). -/
def execCld (s : State) : Host.Outcome State Fault Refusal := perform .cld (fun t => t.setP { t.p with d := false }) s

/-- SED (R460). -/
def execSed (s : State) : Host.Outcome State Fault Refusal := perform .sed (fun t => t.setP { t.p with d := true }) s

/-- CLV (R461). -/
def execClv (s : State) : Host.Outcome State Fault Refusal := perform .clv (fun t => t.setP { t.p with v := false }) s

/-! ## NOP, BRK, RTI (R462 to R464) -/

/-- NOP (R462). -/
def execNop (s : State) : Host.Outcome State Fault Refusal := perform .nop (fun t => t) s

/-- BRK: skip the byte after it, unread, and take the exception with B set (R463). -/
def execBrk (s : State) : Host.Outcome State Fault Refusal := perform .brk (fun t => enterException true 0xFFFE (t.setPc (t.pc + 1))) s

/-- RTI (R464). -/
def execRti (s : State) : Host.Outcome State Fault Refusal := perform .rti returnFromException s

end Sys2Proof.Machine
end

