-- ==== Sys2Proof/Machine/Driver.lean ====
section
/-! DEFINITION. The parts of one step around the instruction's meaning: the configuration the spec accepts (spec R4,
R13), FETCH and DECODE (R501, R502), the hook (R520, R521) and the step's result (R512), and how an instruction word is
placed where the next step fetches. -/

namespace Sys2Proof.Machine

/-- Why a configuration is not accepted, if it is not: a family the spec does not describe (R4; 93 U6), or no illegal
policy (R13; 93 U5). -/
def configRefusal (cfg : Config) : Option Refusal :=
  if cfg.family ≠ .mos6502 then some (.familyNotDescribed cfg.family)
  else if cfg.illegalPolicy = none then some .policyNotGiven
  else none

/-- The scratch `opcode` of the instruction being fetched (R60). -/
def State.setOpcode (s : State) (op : Byte) : State := s.setScratch { s.scratch with opcode := op }

/-- FETCH and DECODE: the opcode byte, then the operand bytes its mode has, one bus read each in order, PC standing
after the last (R501 to R503; log 7). An illegal opcode has no operand bytes of its own here (R467, R620). -/
def fetchInstr (s : State) : Instr × State :=
  let op := fetch s
  let s1 := op.2.setOpcode op.1
  match operandCount op.1 with
  | 0 => (instrOf op.1 0 0, s1)
  | 1 =>
    let b1 := fetch s1
    (instrOf op.1 b1.1 0, b1.2)
  | _ =>
    let b1 := fetch s1
    let b2 := fetch b1.2
    (instrOf op.1 b1.1 b2.1, b2.2)

/-! ## The hook -/

/-- A buffer of bytes as one number, the first byte the least significant: how a hook tests it (log 10). -/
def bytesNumber : List Byte → Nat
  | [] => 0
  | b :: rest => b.toNat + 256 * bytesNumber rest

/-- One call made by the hook: what it answers, as a number (0 where it answers nothing), and the state after (R521). -/
def runHookCall (c : HookCall) (s : State) : Host.Outcome (Nat × State) Fault Refusal :=
  match c with
  | .busRead a =>
    let r := busRead a s
    .next (r.1.toNat, r.2)
  | .readDebug a => .next ((readDebug a s).toNat, s)
  | .busWrite a v => .next (0, busWrite a v s)
  | .raiseNmi => .next (0, raiseNmi s)
  | .raiseIrq => .next (0, raiseIrq s)
  | .getPc => .next ((getPc s).toNat, s)
  | .getCycles => .next (getCycles s, s)
  | .getInstructions => .next (getInstructions s, s)
  | .save => .next (bytesNumber (save s), s)
  | .forbidden entry => .refused (.hookCalled entry)

/-- Does a test hold of an answer (log 10)? -/
def HookTest.holds (t : HookTest) (answer : Nat) : Bool :=
  match t with
  | .equals n => answer == n
  | .below n => decide (answer < n)
  | .bit k => answer.testBit k

/-- One invocation of a hook, whose latest answer is `answer`: what is left of its program, and the state after its
calls (R521). -/
def runHook : HookProgram → Nat → State → Host.Outcome (HookProgram × State) Fault Refusal
  | .done, _, s => .next (.done, s)
  | .ret rest, _, s => .next (rest, s)
  | .test t yes no, answer, s => if t.holds answer then runHook yes answer s else runHook no answer s
  | .call c rest, _, s =>
    match runHookCall c s with
    | .next r => runHook rest r.1 r.2
    | .fault f => .fault f
    | .refused r => .refused r

/-- A callback after one more invocation, with what is left of its program (log 10). -/
def Callback.invoked (cb : Callback) (rest : HookProgram) : Callback :=
  { cb with
    invocations := cb.invocations + 1
    program := match rest with
      | .done => cb.again
      | _ => rest }

/-- Call the hook, if the slot holds one (R520). -/
def callHook (s : State) : Host.Outcome State Fault Refusal :=
  match s.hook with
  | none => .next s
  | some cb =>
    match runHook cb.program 0 s with
    | .next r => .next (r.2.setHook (some (cb.invoked r.1)))
    | .fault f => .fault f
    | .refused r => .refused r

/-! ## The end of a step -/

/-- What the step returns, given the result of its instruction and the cycles of the whole step (R512). -/
def StepResult.withCycles (r : StepResult) (n : Nat) : StepResult :=
  match r with
  | .ok _ => .ok n
  | .illegal pc op _ => .illegal pc op n

/-- Record the step's result, counted from the cycle counter `start` at the step's begin (R512). -/
def recordResult (start : Nat) (s : State) : State :=
  s.setLastStep (s.lastStep.map (fun r => r.withCycles (s.cycles - start)))

/-- The end of a step: the hook is called after an instruction that completed, not after an illegal opcode that raised
(R520, R620), and the result counts every cycle since the step began (R512). -/
def finishStep (start : Nat) (r : Host.Outcome State Fault Refusal) : Host.Outcome State Fault Refusal :=
  match r with
  | .fault f => .fault f
  | .refused f => .refused f
  | .next t =>
    match t.lastStep with
    | some (.illegal _ _ _) => .next (recordResult start t)
    | _ =>
      match callHook t with
      | .next u => .next (recordResult start u)
      | .fault f => .fault f
      | .refused f => .refused f

/-! ## Placing an instruction -/

/-- Put bytes into memory from an address up, modulo 2^16, without any bus event: what a loader outside the machine
does (log 11). -/
def placeBytes : Addr → List Byte → State → State
  | _, [], s => s
  | a, b :: rest, s => placeBytes (a + 1) rest (s.setMem (Memory.write s.mem a.toNat b))

/-- The state whose next step fetches its opcode at PC from memory: no interrupt pending, and no device at the three
addresses from PC (log 11). -/
def readyToFetch (s : State) : State :=
  let clear := fun r => !(IoRange.holds r s.pc || IoRange.holds r (s.pc + 1) || IoRange.holds r (s.pc + 2))
  { (s.setNmi false).setIrq false with cfg := { s.cfg with io := s.cfg.io.filter clear } }

end Sys2Proof.Machine
end

