-- ==== Sys2Proof/Machine/Step.lean ====
section
/-! DEFINITION. One step of the machine: the host entry point `step()` (spec R512). -/

namespace Sys2Proof.Machine

/-- `step()`: take at most one pending interrupt, then carry out one instruction, then the hook (R505, R512). -/
def step (s : State) : Host.Outcome State Fault Refusal :=
  match configRefusal s.cfg with
  | some r => .refused r
  | none =>
    let f := fetchInstr (serviceInterrupts s)
    finishStep s.cycles (exec f.1 f.2)

/-- `s` with the instruction whose bits are `w`, numbered as spec/opcode_table.json numbers them, stored where the next
step fetches it: in memory from PC up, with no interrupt pending and no device there (log 11). -/
def State.withFetchWord (s : State) (nbits w : Nat) : State :=
  placeBytes s.pc (tableWordBytes nbits w) (readyToFetch s)

end Sys2Proof.Machine
end

