-- ==== Sys2Proof/Machine/Assembly.lean ====
section
/-! DEFINITION. The assembler syntax of the instructions (spec R170, R172): one mnemonic per instruction, one operand
form per addressing mode, and the byte an assembler writes for a branch target. -/

namespace Sys2Proof.Machine

/-- The mnemonic of an instruction, as spec/opcode_table.json spells it (R172). -/
def mnemonic : Instr → String
  | .lda _ => "LDA"
  | .ldx _ => "LDX"
  | .ldy _ => "LDY"
  | .sta _ => "STA"
  | .stx _ => "STX"
  | .sty _ => "STY"
  | .tax => "TAX"
  | .tay => "TAY"
  | .txa => "TXA"
  | .tya => "TYA"
  | .tsx => "TSX"
  | .txs => "TXS"
  | .adc _ => "ADC"
  | .sbc _ => "SBC"
  | .cmp _ => "CMP"
  | .cpx _ => "CPX"
  | .cpy _ => "CPY"
  | .and _ => "AND"
  | .ora _ => "ORA"
  | .eor _ => "EOR"
  | .bit _ => "BIT"
  | .asl _ => "ASL"
  | .lsr _ => "LSR"
  | .rol _ => "ROL"
  | .ror _ => "ROR"
  | .inc _ => "INC"
  | .dec _ => "DEC"
  | .inx => "INX"
  | .iny => "INY"
  | .dex => "DEX"
  | .dey => "DEY"
  | .bpl _ => "BPL"
  | .bmi _ => "BMI"
  | .bvc _ => "BVC"
  | .bvs _ => "BVS"
  | .bcc _ => "BCC"
  | .bcs _ => "BCS"
  | .bne _ => "BNE"
  | .beq _ => "BEQ"
  | .jmpAbs _ => "JMP"
  | .jmpInd _ => "JMP"
  | .jsr _ => "JSR"
  | .rts => "RTS"
  | .pha => "PHA"
  | .pla => "PLA"
  | .php => "PHP"
  | .plp => "PLP"
  | .clc => "CLC"
  | .sec => "SEC"
  | .cli => "CLI"
  | .sei => "SEI"
  | .cld => "CLD"
  | .sed => "SED"
  | .clv => "CLV"
  | .nop => "NOP"
  | .brk => "BRK"
  | .rti => "RTI"
  | .illegal _ => "ILLEGAL"

/-- The two hexadecimal digits of a byte, in capitals. -/
def hexByte (b : Byte) : String :=
  let digit := fun n => String.ofList ["0123456789ABCDEF".toList.getD n '0']
  digit (b.toNat / 16) ++ digit (b.toNat % 16)

/-- A word as four hexadecimal digits. -/
def hexWord (w : Addr) : String := hexByte (hiByte w) ++ hexByte (loByte w)

/-- A branch target as the assembler writes it, from the branch itself (R170: `BEQ *+7`). -/
def relativeText (b : Byte) : String :=
  let d := b.toInt + 2
  if d < 0 then "*" ++ toString d else "*+" ++ toString d

/-- The operand syntax of each mode (R170). -/
def operandText : Operand → String
  | .acc => " A"
  | .imp => ""
  | .imm b => " #$" ++ hexByte b
  | .zp b => " $" ++ hexByte b
  | .zpx b => " $" ++ hexByte b ++ ",X"
  | .zpy b => " $" ++ hexByte b ++ ",Y"
  | .izx b => " ($" ++ hexByte b ++ ",X)"
  | .izy b => " ($" ++ hexByte b ++ "),Y"
  | .abs w => " $" ++ hexWord w
  | .abx w => " $" ++ hexWord w ++ ",X"
  | .aby w => " $" ++ hexWord w ++ ",Y"
  | .ind w => " ($" ++ hexWord w ++ ")"
  | .rel b => " " ++ relativeText b

/-- An instruction in assembler syntax (R170). -/
def assemblyText (i : Instr) : String := mnemonic i ++ operandText i.operand

/-- The displacement byte of a branch at `at_` to `target`, which must lie in -128..127 of the address after the branch
(R170). -/
def branchByte (at_ target : Addr) : Option Byte :=
  let d := (target - (at_ + 2)).toInt
  if -128 ≤ d ∧ d ≤ 127 then some (BitVec.ofInt 8 d) else none

end Sys2Proof.Machine
end

