-- ==== Sys2Proof/Machine/Sequencer.lean ====
section
/-! DEFINITION. The microprogram sequencer of a microprogram-driven family (spec R540 to R543), a mechanism no
configuration of the spec executes (R545): its table and suspension point are parameters, and so are the host's
wait-state and hold inputs and what a family supplies (log 12). -/

namespace Sys2Proof.Machine

/-- The micro-operation at step `k` of an operation, none after the last (R540). -/
def microOpAt (cfg : Config) (op k : Nat) : Option MicroOp :=
  ((cfg.microprogram.lookup op).getD [])[k]?

/-- The micro-operation that the next call meets: none past the operation's last, and none before the first boundary
(R541). -/
def currentMicroOp (s : State) : Option MicroOp :=
  s.seq.currentOp.bind (fun op => microOpAt s.cfg op s.seq.microStep)

/-! ## What a micro-operation does -/

/-- A register as a word. -/
def regWord (r : MicroReg) (s : State) : Addr :=
  match r with
  | .a => zeroPage s.a
  | .x => zeroPage s.x
  | .y => zeroPage s.y
  | .sp => zeroPage s.sp
  | .pc => s.pc

/-- A flag of P. -/
def flagBit (f : MicroFlag) (p : Flags) : Bool :=
  match f with
  | .n => p.n
  | .v => p.v
  | .d => p.d
  | .i => p.i
  | .z => p.z
  | .c => p.c

/-- A truth value as a word. -/
def boolWord (b : Bool) : Addr := if b then 1 else 0

/-- An operation on words, modulo 2^16; comparisons are unsigned (log 12). -/
def operatorWord (op : MicroOperator) (l r : Addr) : Addr :=
  match op with
  | .add => l + r
  | .sub => l - r
  | .and => l &&& r
  | .or => l ||| r
  | .xor => l ^^^ r
  | .shl => l <<< r.toNat
  | .shr => l >>> r.toNat
  | .equal => boolWord (l == r)
  | .less => boolWord (decide (l < r))

/-- The word an expression computes (log 12). A byte that nothing has kept is 0. -/
def exprWord : MicroExpr → State → Addr
  | .const w, _ => w
  | .reg r, s => regWord r s
  | .flag f, s => boolWord (flagBit f s.p)
  | .kept k, s => zeroPage (s.seq.scratch.getD k 0)
  | .apply op l r, s => operatorWord op (exprWord l s) (exprWord r s)
  | .choose test yes no, s => if exprWord test s = 0 then exprWord no s else exprWord yes s

/-- A byte becomes the newest of the kept ones (R68). -/
def State.keep (s : State) (v : Byte) : State := s.setSeq { s.seq with scratch := v :: s.seq.scratch }

/-- P with one flag written. -/
def withFlag (f : MicroFlag) (b : Bool) (p : Flags) : Flags :=
  match f with
  | .n => { p with n := b }
  | .v => { p with v := b }
  | .d => { p with d := b }
  | .i => { p with i := b }
  | .z => { p with z := b }
  | .c => { p with c := b }

/-- One assignment of a micro-operation (log 12). -/
def microAssign (s : State) (e : MicroTarget × MicroExpr) : State :=
  let w := exprWord e.2 s
  match e.1 with
  | .reg .a => s.setA (loByte w)
  | .reg .x => s.setX (loByte w)
  | .reg .y => s.setY (loByte w)
  | .reg .sp => s.setSp (loByte w)
  | .reg .pc => s.setPc w
  | .flag f => s.setP (withFlag f (w != 0) s.p)
  | .keep => s.keep (loByte w)

/-- The bus access of a micro-operation; a byte read is kept for later micro-steps (R68, R541). -/
def performAccess (m : MicroAccess) (s : State) : State :=
  match m with
  | .none => s
  | .read addr =>
    let r := busRead (exprWord addr s) s
    r.2.keep r.1
  | .write addr value => busWrite (exprWord addr s) (loByte (exprWord value s)) s

/-- Run a micro-operation: its bus access, then its assignments in order (R541; log 12). -/
def runMicroOp (u : MicroOp) (s : State) : State := u.assigns.foldl microAssign (performAccess u.access s)

/-- Does a micro-operation make a bus access (R542)? -/
def MicroOp.accessesBus (u : MicroOp) : Bool := u.access != .none

/-! ## The micro-step call -/

/-- What a micro-step call returns (R541, R542): the operation was finished, the micro-operation ran, or it yielded
without completing. -/
inductive MicroResult where
  | boundary | continued | yielded
  deriving DecidableEq, Repr

/-- Does the micro-operation yield at this call (R542)? Suspended after the check, it yields while an input is
asserted; suspended before it, it first yields once and makes the check at the calls that follow (log 12). -/
def mustYield (u : MicroOp) (wait hold : Bool) (s : State) : Bool :=
  MicroOp.accessesBus u &&
    match s.cfg.suspendPoint with
    | .afterWaitCheck => wait || hold
    | .beforeWaitCheck => !s.seq.suspended || wait || hold

/-- What a microprogram-driven family supplies and no source gives (R540, R541, D26): FETCH and DECODE of the next
opcode, the operation of each interrupt's entry, and the cycles of a finished operation. -/
structure MicroFamily where
  decode : State → Nat × State
  entry : Interrupt → Nat
  cycles : Nat → State → Nat

/-- Begin an operation at micro-step 0 (R541). -/
def State.startOperation (s : State) (op : Nat) (entry : Bool) : State :=
  s.setSeq { SeqState.idle with currentOp := some op, entry := entry }

/-- FETCH and DECODE of the next opcode (R541). -/
def decodeOperation (fam : MicroFamily) (s : State) : State :=
  let d := fam.decode s
  d.2.startOperation d.1 false

/-- The choice of the next operation (R541, R543): the interrupt check of R613, then the entry of the interrupt taken or
the next opcode. -/
def nextOperation (fam : MicroFamily) (s : State) : State :=
  let r := acceptInterrupt s
  match r.1 with
  | some k => r.2.startOperation (fam.entry k) true
  | none => decodeOperation fam r.2

/-- An instruction boundary (R541, R543, as R505, R510, R511 and R520 have it for the 6502). The cycles of a finished
operation are added; a finished instruction is counted and the hook called after it, then the next operation is chosen.
After an interrupt's entry the handler's first opcode is decoded without more, and before the first operation nothing
has finished (log 12). -/
def microBoundary (fam : MicroFamily) (s : State) : Host.Outcome State Fault Refusal :=
  match s.seq.currentOp with
  | none => .next (nextOperation fam s)
  | some op =>
    let s1 := s.setCycles (s.cycles + fam.cycles op s)
    if s.seq.entry then .next (decodeOperation fam s1)
    else
      match callHook (s1.setInstructions (s1.instructions + 1)) with
      | .next t => .next (nextOperation fam t)
      | .fault f => .fault f
      | .refused r => .refused r

/-- One call of the micro-step function (R541 to R543). -/
def microStepCall (fam : MicroFamily) (wait hold : Bool) (s : State) :
    Host.Outcome (MicroResult × State) Fault Refusal :=
  match currentMicroOp s with
  | none =>
    match microBoundary fam s with
    | .next t => .next (.boundary, t)
    | .fault f => .fault f
    | .refused r => .refused r
  | some u =>
    if mustYield u wait hold s then .next (.yielded, s.setSeq { s.seq with suspended := true })
    else
      let t := runMicroOp u s
      .next (.continued, t.setSeq { t.seq with microStep := t.seq.microStep + 1, suspended := false })

end Sys2Proof.Machine
end

