-- ==== Sys2Proof/Machine/HostInterface.lean ====
section
/-! DEFINITION. The host's entry points besides `step()`, `reset()`, `raise_nmi()` and `raise_irq()`: creation, the
bounded run, the hook slot and restore (spec R513, R522, R530, R631, R703). -/

namespace Sys2Proof.Machine

/-- Creation of an instance (R703): counters and latches 0, the hook slot empty, then `reset()`. The registers before
that reset are never seen. DESIGN CHOICE (log 20): an instance of any family is created; its steps are refused. -/
def State.create (cfg : Config) (mem : List Host.Cell) : State :=
  hostReset { State.reset with mem := mem, busLog := [], cfg := cfg }

/-- What `run` returns (R513): the cycles consumed, or the illegal opcode that stopped it. -/
inductive RunResult where
  | ok (consumed : Nat)
  | illegal (pc : Addr) (opcode : Byte) (consumed : Nat)
  deriving DecidableEq, Repr

/-- The loop of `run`, followed for at most `steps` steps (R513); `none` where it goes on after them. A step always
leaves a result, so the last arm is never reached. -/
def runLoop (steps budget consumed : Nat) (s : State) : Option (Host.Outcome (RunResult × State) Fault Refusal) :=
  if budget ≤ consumed then some (.next (.ok consumed, s))
  else
    match steps with
    | 0 => none
    | k + 1 =>
      match step s with
      | .fault f => some (.fault f)
      | .refused r => some (.refused r)
      | .next t =>
        match t.lastStep with
        | some (.ok n) => runLoop k budget (consumed + n) t
        | some (.illegal pc op n) => some (.next (.illegal pc op (consumed + n), t))
        | none => none

/-- `run(budget)`, followed for at most `steps` steps (R513; log 15). -/
def run (steps budget : Nat) (s : State) : Option (Host.Outcome (RunResult × State) Fault Refusal) :=
  runLoop steps budget 0 s

/-- `run(budget)` has this outcome (R513): its loop, without any bound, ends so. -/
def RunReturns (budget : Nat) (s : State) (o : Host.Outcome (RunResult × State) Fault Refusal) : Prop :=
  ∃ steps, run steps budget s = some o

/-- `register_hook(callback)`: one slot, the last registered stands, no callback empties it (R65, R522). -/
def registerHook (cb : Option Callback) (s : State) : State := s.setHook cb

/-- What `restore` returns (R631). -/
inductive RestoreResult where
  | ok | rejected
  deriving DecidableEq, Repr

/-- `restore(buf)`: the register file from seven bytes; any other length is rejected and nothing changes (R631). -/
def restore (buf : List Byte) (s : State) : RestoreResult × State :=
  match buf with
  | [pcLo, pcHi, a, x, y, sp, p] =>
    let s1 := ((((s.setPc (mkAddr pcHi pcLo)).setA a).setX x).setY y).setSp sp
    (.ok, (s1.setP (loadP p)).clearScratch)
  | _ => (.rejected, s)

end Sys2Proof.Machine
end

