-- ==== Sys2Proof/Safety.lean ====
section
/-! DEFINITION. What counts as a safe run: no step is refused. The conditions on a state are that its configuration is
one the spec accepts (spec R4, R13) and that the hook makes no call it must not make (R521); no other condition exists
(R601). -/

namespace Sys2Proof.Machine

/-- A call that the hook may make (R521). -/
def HookCall.allowed : HookCall → Bool
  | .forbidden _ => false
  | _ => true

/-- Whatever its calls answer, a hook's next invocation makes only calls it may make (R521). -/
def HookProgram.obeys : HookProgram → Bool
  | .done => true
  | .ret _ => true
  | .call c rest => HookCall.allowed c && HookProgram.obeys rest
  | .test _ yes no => HookProgram.obeys yes && HookProgram.obeys no

/-- The hook in the slot, if there is one, obeys R521 at its next invocation. -/
def hookObeys (s : State) : Bool :=
  match s.hook with
  | none => true
  | some cb => HookProgram.obeys cb.program

/-- The configuration is one the spec accepts (R4, R10, R13). -/
def configured (s : State) : Bool := decide (configRefusal s.cfg = none)

/-- A state whose step is not refused. -/
def Ready (s : State) : Bool := configured s && hookObeys s

end Sys2Proof.Machine
end

