-- ==== Sys2Proof/Certificates/Slice0/Obligations.lean ====
section
/-! DEFINITION. The statements for the provers, with the words they are made of. Each cites the rules of spec/ it
formalises; a statement that rests on a choice of the model names its log entry. -/

namespace Sys2Proof.Claims

open Sys2Proof.Machine

/-! ## Words of the statements -/

/-- The architectural registers: A, X, Y, S, PC and the six flags (R51 to R56). -/
structure Regs where
  a : Byte
  x : Byte
  y : Byte
  sp : Byte
  pc : Addr
  p : Flags
  deriving DecidableEq, Repr

/-- The registers of a state. -/
def regs (s : State) : Regs := { a := s.a, x := s.x, y := s.y, sp := s.sp, pc := s.pc, p := s.p }

/-- Everything that is not a register, a counter, memory, the bus record or scratch is unchanged: the latches, the
hook slot, the sequencer and the configuration. -/
def SameHost (s t : State) : Prop :=
  t.nmiPending = s.nmiPending ∧ t.irqPending = s.irqPending ∧ t.hook = s.hook ∧ t.seq = s.seq ∧ t.cfg = s.cfg

/-- Every byte of memory reads as before. -/
def SameMemory (s t : State) : Prop := ∀ a : Addr, t.byteAt a = s.byteAt a

/-- The bytes stored, at distinct addresses, and no other byte: an address a device answers keeps nothing in memory. -/
def Stored (writes : List (Addr × Byte)) (s t : State) : Prop :=
  ∀ a : Addr, t.byteAt a =
    match writes.find? (fun w => w.1 == a) with
    | some w => if s.isIo a then s.byteAt a else w.2
    | none => s.byteAt a

/-- One completed instruction of `n` cycles: both counters and the step result (R510, R511). -/
def Took (n : Nat) (s t : State) : Prop :=
  t.cycles = s.cycles + n ∧ t.instructions = s.instructions + 1 ∧ t.lastStep = some (.ok n)

/-- P with N and Z of a byte (R22). -/
def withNZ (p : Flags) (v : Byte) : Flags := { p with n := decide (128 ≤ v.toNat), z := decide (v.toNat = 0) }

/-- The state in which the handler of an operand runs: scratch reset, mode resolved (R503, R505). -/
def ready (o : Operand) (s : State) : State := resolve o s.clearScratch

/-- The effective address the meaning uses. -/
def eaOf (o : Operand) (s : State) : Addr := (ready o s).scratch.ea

/-- Did the mode's indexing cross a page (R214)? -/
def crossed (o : Operand) (s : State) : Bool := (ready o s).scratch.pageCross

/-- The byte `ReadOperand` gives (R215): the immediate byte, A, or what the bus answers at the effective address. -/
def operandByte (o : Operand) (s : State) : Byte :=
  match o with
  | .imm b => b
  | .acc => s.a
  | _ => (ready o s).answer (eaOf o s)

/-- The bus record after `ReadOperand`: one read at the effective address, none in immediate and accumulator mode. -/
def readLog (o : Operand) (s : State) : List BusEvent :=
  match o with
  | .imm _ => s.busLog
  | .acc => s.busLog
  | _ => .read (eaOf o s) (operandByte o s) :: (ready o s).busLog

/-- One encoding of an instruction, as its rule lists it: mode, opcode, base cycles, and whether the page-cross penalty
applies (the star). -/
structure Form where
  mode : Mode
  opcode : Byte
  cycles : Nat
  star : Bool
  deriving DecidableEq, Repr

/-- The cycles of a form, its penalty included (R510). -/
def formCycles (f : Form) (o : Operand) (s : State) : Nat := f.cycles + if f.star && crossed o s then 1 else 0

/-- A rule of an instruction that reads an operand and writes registers only. `extra` is what the handler adds to the
cycles. -/
def ReadRule (mk : Operand → Instr) (forms : List Form) (pre : State → Prop) (out : Byte → State → Regs)
    (extra : State → Nat) : Prop :=
  ∀ f ∈ forms, ∀ (o : Operand) (s : State), o.mode = f.mode → pre s →
    opcodeOf (mk o) = some f.opcode ∧
    ∃ t, exec (mk o) s = .next t ∧ regs t = out (operandByte o s) s ∧ SameHost s t ∧ SameMemory s t ∧
      t.busLog = readLog o s ∧ Took (formCycles f o s + extra s) s t

/-- A rule of a store: one write at the effective address, no read of it, no register (R254 to R256). -/
def StoreRule (mk : Operand → Instr) (forms : List Form) (value : State → Byte) : Prop :=
  ∀ f ∈ forms, ∀ (o : Operand) (s : State), o.mode = f.mode →
    opcodeOf (mk o) = some f.opcode ∧
    ∃ t, exec (mk o) s = .next t ∧ regs t = regs s ∧ SameHost s t ∧ Stored [(eaOf o s, value s)] s t ∧
      t.busLog = .write (eaOf o s) (value s) :: (ready o s).busLog ∧ Took f.cycles s t

/-- A rule of a read-modify-write instruction (R355): in accumulator mode A is read and written with no bus event; in
a memory mode one read, then one write, at the effective address. `f` gives the result and P. -/
def RmwRule (mk : Operand → Instr) (forms : List Form) (f : Byte → Flags → Byte × Flags) : Prop :=
  ∀ w ∈ forms, ∀ (o : Operand) (s : State), o.mode = w.mode →
    opcodeOf (mk o) = some w.opcode ∧
    ∃ t, exec (mk o) s = .next t ∧ SameHost s t ∧ Took w.cycles s t ∧
      let r := f (operandByte o s) s.p
      if o = .acc then
        regs t = { regs s with a := r.1, p := r.2 } ∧ SameMemory s t ∧ t.busLog = s.busLog
      else
        regs t = { regs s with p := r.2 } ∧ Stored [(eaOf o s, r.1)] s t ∧
          t.busLog = .write (eaOf o s) r.1 :: readLog o s

/-- A rule of an instruction without operand and without bus events. -/
def ImpliedRule (i : Instr) (opcode : Byte) (cycles : Nat) (out : State → Regs) : Prop :=
  opcodeOf i = some opcode ∧
  ∀ s : State, ∃ t, exec i s = .next t ∧ regs t = out s ∧ SameHost s t ∧ SameMemory s t ∧ t.busLog = s.busLog ∧
    Took cycles s t

/-- A rule of a conditional branch (R400): where it goes and what it costs, taken or not. -/
def BranchRule (mk : Byte → Instr) (opcode : Byte) (cond : Flags → Prop) : Prop :=
  ∀ (rel : Byte) (s : State),
    opcodeOf (mk rel) = some opcode ∧
    ∃ t, exec (mk rel) s = .next t ∧ SameHost s t ∧ SameMemory s t ∧ t.busLog = s.busLog ∧
      (¬ cond s.p → regs t = regs s ∧ Took 2 s t) ∧
      (cond s.p → regs t = { regs s with pc := BitVec.ofInt 16 (s.pc.toNat + rel.toInt) } ∧
        (t.pc.toNat / 256 = s.pc.toNat / 256 → Took 3 s t) ∧ (t.pc.toNat / 256 ≠ s.pc.toNat / 256 → Took 4 s t))

/-- No condition. -/
def always (_ : State) : Prop := True

/-- No extra cycle. -/
def noExtra (_ : State) : Nat := 0

/-- The eight read forms of an accumulator instruction, from its eight opcodes (R251 and its like). -/
def readForms (imm zp zpx abs abx aby izx izy : Byte) : List Form :=
  [⟨.imm, imm, 2, false⟩, ⟨.zp, zp, 3, false⟩, ⟨.zpx, zpx, 4, false⟩, ⟨.abs, abs, 4, false⟩, ⟨.abx, abx, 4, true⟩,
   ⟨.aby, aby, 4, true⟩, ⟨.izx, izx, 6, false⟩, ⟨.izy, izy, 5, true⟩]

def ldaForms : List Form := readForms 0xA9 0xA5 0xB5 0xAD 0xBD 0xB9 0xA1 0xB1
def ldxForms : List Form :=
  [⟨.imm, 0xA2, 2, false⟩, ⟨.zp, 0xA6, 3, false⟩, ⟨.zpy, 0xB6, 4, false⟩, ⟨.abs, 0xAE, 4, false⟩, ⟨.aby, 0xBE, 4, true⟩]
def ldyForms : List Form :=
  [⟨.imm, 0xA0, 2, false⟩, ⟨.zp, 0xA4, 3, false⟩, ⟨.zpx, 0xB4, 4, false⟩, ⟨.abs, 0xAC, 4, false⟩, ⟨.abx, 0xBC, 4, true⟩]
def staForms : List Form :=
  [⟨.zp, 0x85, 3, false⟩, ⟨.zpx, 0x95, 4, false⟩, ⟨.abs, 0x8D, 4, false⟩, ⟨.abx, 0x9D, 5, false⟩,
   ⟨.aby, 0x99, 5, false⟩, ⟨.izx, 0x81, 6, false⟩, ⟨.izy, 0x91, 6, false⟩]
def stxForms : List Form := [⟨.zp, 0x86, 3, false⟩, ⟨.zpy, 0x96, 4, false⟩, ⟨.abs, 0x8E, 4, false⟩]
def styForms : List Form := [⟨.zp, 0x84, 3, false⟩, ⟨.zpx, 0x94, 4, false⟩, ⟨.abs, 0x8C, 4, false⟩]
def adcForms : List Form := readForms 0x69 0x65 0x75 0x6D 0x7D 0x79 0x61 0x71
def sbcForms : List Form := readForms 0xE9 0xE5 0xF5 0xED 0xFD 0xF9 0xE1 0xF1
def cmpForms : List Form := readForms 0xC9 0xC5 0xD5 0xCD 0xDD 0xD9 0xC1 0xD1
def cpxForms : List Form := [⟨.imm, 0xE0, 2, false⟩, ⟨.zp, 0xE4, 3, false⟩, ⟨.abs, 0xEC, 4, false⟩]
def cpyForms : List Form := [⟨.imm, 0xC0, 2, false⟩, ⟨.zp, 0xC4, 3, false⟩, ⟨.abs, 0xCC, 4, false⟩]
def andForms : List Form := readForms 0x29 0x25 0x35 0x2D 0x3D 0x39 0x21 0x31
def oraForms : List Form := readForms 0x09 0x05 0x15 0x0D 0x1D 0x19 0x01 0x11
def eorForms : List Form := readForms 0x49 0x45 0x55 0x4D 0x5D 0x59 0x41 0x51
def bitForms : List Form := [⟨.zp, 0x24, 3, false⟩, ⟨.abs, 0x2C, 4, false⟩]

/-- The five forms of a shift, from its five opcodes (R356 to R359). -/
def shiftFormsOf (acc zp zpx abs abx : Byte) : List Form :=
  [⟨.acc, acc, 2, false⟩, ⟨.zp, zp, 5, false⟩, ⟨.zpx, zpx, 6, false⟩, ⟨.abs, abs, 6, false⟩, ⟨.abx, abx, 7, false⟩]

def aslForms : List Form := shiftFormsOf 0x0A 0x06 0x16 0x0E 0x1E
def lsrForms : List Form := shiftFormsOf 0x4A 0x46 0x56 0x4E 0x5E
def rolForms : List Form := shiftFormsOf 0x2A 0x26 0x36 0x2E 0x3E
def rorForms : List Form := shiftFormsOf 0x6A 0x66 0x76 0x6E 0x7E
def incForms : List Form :=
  [⟨.zp, 0xE6, 5, false⟩, ⟨.zpx, 0xF6, 6, false⟩, ⟨.abs, 0xEE, 6, false⟩, ⟨.abx, 0xFE, 7, false⟩]
def decForms : List Form :=
  [⟨.zp, 0xC6, 5, false⟩, ⟨.zpx, 0xD6, 6, false⟩, ⟨.abs, 0xCE, 6, false⟩, ⟨.abx, 0xDE, 7, false⟩]

/-- A carry as an integer. -/
def carryInt (c : Bool) : Int := if c then 1 else 0

/-- The binary sum of A, `m` and the carry, and the flags it gives (R302), V by the range of the signed sum. -/
def binarySum (m : Byte) (s : State) : Regs :=
  let t := s.a.toNat + m.toNat + (carryInt s.p.c).toNat
  let signed := s.a.toInt + m.toInt + carryInt s.p.c
  { regs s with
    a := BitVec.ofNat 8 t
    p := { withNZ s.p (BitVec.ofNat 8 t) with
           c := decide (256 ≤ t), v := decide (signed < -128 ∨ 127 < signed) } }

/-- The binary difference of A, `m` and the borrow, and the flags it gives (R305): C set where no borrow occurred. -/
def binaryDifference (m : Byte) (s : State) : Regs :=
  let t : Int := (s.a.toNat : Int) - m.toNat - (1 - carryInt s.p.c)
  let signed := s.a.toInt - m.toInt - (1 - carryInt s.p.c)
  { regs s with
    a := BitVec.ofInt 8 t
    p := { withNZ s.p (BitVec.ofInt 8 t) with
           c := decide (0 ≤ t), v := decide (signed < -128 ∨ 127 < signed) } }

/-- A byte as a signed number. -/
def signedOf (v : Nat) : Int := if v < 128 then v else (v : Int) - 256

/-- The decimal add of R303, digit by digit on numbers. -/
def decimalSum (cmos : Bool) (m : Byte) (s : State) : Regs :=
  let a := s.a.toNat
  let b := m.toNat
  let c := (carryInt s.p.c).toNat
  let low := a % 16 + b % 16 + c
  let al := if 10 ≤ low then (low + 6) % 16 + 16 else low
  let sum := a / 16 * 16 + b / 16 * 16 + al
  let signed := signedOf (a / 16 * 16) + signedOf (b / 16 * 16) + al
  let fixed := if 160 ≤ sum then sum + 96 else sum
  let r := BitVec.ofNat 8 fixed
  let p1 := { s.p with v := decide (signed < -128 ∨ 127 < signed), c := decide (256 ≤ fixed) }
  { regs s with
    a := r
    p := if cmos then withNZ p1 r
         else { p1 with n := decide (sum / 128 % 2 = 1), z := decide ((a + b + c) % 256 = 0) } }

/-- The decimal subtract of R306: C and V of the binary subtract on both variants; N and Z of the binary result on
Nmos, of the decimal one on Cmos. -/
def decimalDifference (cmos : Bool) (m : Byte) (s : State) : Regs :=
  let bin := binaryDifference m s
  let al : Int := (s.a.toNat % 16 : Nat) - (m.toNat % 16 : Nat) + carryInt s.p.c - 1
  if cmos then
    let d : Int := (s.a.toNat : Int) - m.toNat + carryInt s.p.c - 1
    let high := if d < 0 then d - 96 else d
    let r := BitVec.ofInt 8 (if al < 0 then high - 6 else high)
    { bin with a := r, p := withNZ bin.p r }
  else
    let al1 := if al < 0 then (al - 6) % 16 - 16 else al
    let d : Int := (s.a.toNat / 16 * 16 : Nat) - (m.toNat / 16 * 16 : Nat) + al1
    { bin with a := BitVec.ofInt 8 (if d < 0 then d - 96 else d) }

/-- ADC and SBC are binary (R301, R304). -/
def binaryMode (s : State) : Prop := s.p.d = false ∨ s.cfg.bcdMode = .disabled

/-- ADC and SBC are decimal, in the Nmos way or in the Cmos way (R303, R306). -/
def decimalWay (cmos : Bool) (s : State) : Prop :=
  s.p.d = true ∧ s.cfg.bcdMode = if cmos then .cmos else .nmos

/-- The Cmos decimal cycle (R741). -/
def cmosCycle (cmos : Bool) (_ : State) : Nat := if cmos then 1 else 0

/-- P after a comparison of `reg` with `m` (R307). -/
def compared (reg m : Byte) (p : Flags) : Flags :=
  { p with
    n := decide (128 ≤ (reg.toNat + 256 - m.toNat) % 256), z := decide (reg = m), c := decide (m.toNat ≤ reg.toNat) }

/-- Is a byte two decimal digits? -/
def isBcd (v : Byte) : Prop := v.toNat % 16 ≤ 9 ∧ v.toNat / 16 ≤ 9

/-- The number that two decimal digits stand for. -/
def bcdValue (v : Byte) : Nat := v.toNat / 16 * 10 + v.toNat % 16

/-- The three bytes an exception entry pushes, at S, S - 1 and S - 2 within page 0x01 (R122, R463, R610). -/
def entryBytes (b : Bool) (pc : Addr) (s : State) : List (Addr × Byte) :=
  [(stackAddr s.sp, hiByte pc), (stackAddr (s.sp - 1), loByte pc), (stackAddr (s.sp - 2), pImage b s.p)]

/-- The state after the three pushes of an entry, from which the vector is read. -/
def afterPushes (b : Bool) (pc : Addr) (s : State) : State := push (pImage b s.p) (push16 pc s)

/-- P after an exception entry (R463, R610). -/
def entryFlags (s : State) : Flags :=
  { s.p with i := true, d := if s.cfg.clearDOnInterrupt then false else s.p.d }

/-- Each shape costs 2 to 7 cycles, its penalty included, as those of R162 do. -/
def ShapesWithin (cfg : Config) : Prop :=
  ∀ e ∈ cfg.illegalShape, 2 ≤ e.2.base ∧ e.2.base + (if e.2.eligible then 1 else 0) ≤ 7

/-- No device answers in page 0x01. -/
def stackIsMemory (s : State) : Prop := ∀ sp : Byte, s.isIo (stackAddr sp) = false

/-- Pull `n` bytes, the first pulled first. -/
def pullMany : Nat → State → List Byte × State
  | 0, s => ([], s)
  | n + 1, s =>
    let r := pull s
    let rest := pullMany n r.2
    (r.1 :: rest.1, rest.2)

/-- The bus access a hook's call makes, if any, on a state (R521). -/
def busAccess (s : State) (c : HookCall) : State :=
  match c with
  | .busRead a => (busRead a s).2
  | .busWrite a v => busWrite a v s
  | _ => s

/-- What a hook's call answers, as a number (R100, R106, R630, R632). -/
def hookAnswer (s : State) (c : HookCall) : Nat :=
  match c with
  | .busRead a => (s.answer a).toNat
  | .readDebug a => (readDebug a s).toNat
  | .getPc => s.pc.toNat
  | .getCycles => s.cycles
  | .getInstructions => s.instructions
  | .save => bytesNumber (save s)
  | .busWrite _ _ => 0
  | .raiseNmi => 0
  | .raiseIrq => 0
  | .forbidden _ => 0

/-- The calls that one invocation of a hook makes, in order, each decision following the answer before it, and what is
left of its program. -/
def hookPath : HookProgram → Nat → State → List HookCall × HookProgram
  | .done, _, _ => ([], .done)
  | .ret rest, _, _ => ([], rest)
  | .test t yes no, answer, s => if t.holds answer then hookPath yes answer s else hookPath no answer s
  | .call c rest, _, s =>
    let later := hookPath rest (hookAnswer s c) (busAccess s c)
    (c :: later.1, later.2)

/-- What `run` returns when `n` cycles have been consumed before. -/
def consumedBefore (n : Nat) (o : Host.Outcome (RunResult × State) Fault Refusal) :
    Host.Outcome (RunResult × State) Fault Refusal :=
  match o with
  | .next (.ok m, t) => .next (.ok (n + m), t)
  | .next (.illegal pc op m, t) => .next (.illegal pc op (n + m), t)
  | .fault f => .fault f
  | .refused r => .refused r

/-- A state at micro-step 0 of an operation (R541). -/
def atOperation (op : Nat) (entry : Bool) (s : State) : State :=
  { s with seq := { currentOp := some op, microStep := 0, scratch := [], suspended := false, entry := entry } }

/-- The call ended at the boundary where `s` chooses the next operation (R541, R543): the entry of an NMI, the entry of
an IRQ that is not masked, or the next opcode's; the latches are consumed as R613 consumes them. -/
def ChoosesNext (fam : MicroFamily) (s : State) (o : Host.Outcome (MicroResult × State) Fault Refusal) : Prop :=
  (s.nmiPending = true →
    o = .next (.boundary, atOperation (fam.entry .nmi) true { s with nmiPending := false, irqPending := false })) ∧
  (s.nmiPending = false → s.irqPending = true → s.p.i = false →
    o = .next (.boundary, atOperation (fam.entry .irq) true { s with irqPending := false })) ∧
  (s.nmiPending = false → s.irqPending = false ∨ s.p.i = true →
    let d := fam.decode { s with irqPending := false }
    o = .next (.boundary, atOperation d.1 false d.2))

/-- The bus event of a micro-operation's access, if it makes one. -/
def accessEvent (m : MicroAccess) (s : State) : List BusEvent :=
  match m with
  | .none => []
  | .read addr => [.read (exprWord addr s) (s.answer (exprWord addr s))]
  | .write addr value => [.write (exprWord addr s) (loByte (exprWord value s))]

/-- What an assignment of a micro-operation writes. -/
def assigned (s : State) (e : MicroTarget × MicroExpr) : State :=
  let w := exprWord e.2 s
  match e.1 with
  | .reg .a => { s with a := BitVec.ofNat 8 w.toNat }
  | .reg .x => { s with x := BitVec.ofNat 8 w.toNat }
  | .reg .y => { s with y := BitVec.ofNat 8 w.toNat }
  | .reg .sp => { s with sp := BitVec.ofNat 8 w.toNat }
  | .reg .pc => { s with pc := w }
  | .flag .n => { s with p := { s.p with n := decide (w ≠ 0) } }
  | .flag .v => { s with p := { s.p with v := decide (w ≠ 0) } }
  | .flag .d => { s with p := { s.p with d := decide (w ≠ 0) } }
  | .flag .i => { s with p := { s.p with i := decide (w ≠ 0) } }
  | .flag .z => { s with p := { s.p with z := decide (w ≠ 0) } }
  | .flag .c => { s with p := { s.p with c := decide (w ≠ 0) } }
  | .keep => { s with seq := { s.seq with scratch := BitVec.ofNat 8 w.toNat :: s.seq.scratch } }

/-- The call ran the micro-operation `u` (R541): its one bus event, if it makes one, the byte read kept, its assignments
made in order, the index advanced by one, and nothing else changed. -/
def MicroRan (u : MicroOp) (s : State) (o : Host.Outcome (MicroResult × State) Fault Refusal) : Prop :=
  ∃ t, o = .next (.continued, t) ∧ t.cycles = s.cycles ∧ t.instructions = s.instructions ∧
    t.nmiPending = s.nmiPending ∧ t.irqPending = s.irqPending ∧ t.hook = s.hook ∧ t.lastStep = s.lastStep ∧
    t.scratch = s.scratch ∧ t.cfg = s.cfg ∧ t.seq.currentOp = s.seq.currentOp ∧ t.seq.entry = s.seq.entry ∧
    t.seq.microStep = s.seq.microStep + 1 ∧ t.seq.suspended = false ∧
    t.busLog = accessEvent u.access s ++ s.busLog ∧
    (match u.access with
      | .write addr value => Stored [(exprWord addr s, loByte (exprWord value s))] s t
      | _ => t.mem = s.mem) ∧
    let kept := match u.access with
      | .read addr => s.answer (exprWord addr s) :: s.seq.scratch
      | _ => s.seq.scratch
    let w := u.assigns.foldl assigned { s with seq := { s.seq with scratch := kept } }
    regs t = regs w ∧ t.seq.scratch = w.seq.scratch

end Sys2Proof.Claims

open Sys2Proof Sys2Proof.Machine Sys2Proof.Claims

/-! ## Encoding -/

/-- Decoding the bytes of any well-formed instruction gives it back, with the bytes that follow (R150, R152, R160). -/
def Obligations.DecodeOfEncode : Prop :=
  ∀ (i : Instr) (rest : List Byte), i.wf = true → ∃ bytes, encode i = some bytes ∧ decode (bytes ++ rest) = .ok (i, rest)

/-- Three bytes always decode to a well-formed instruction whose encoding is the bytes consumed: every opcode byte is
documented or illegal, and no bit is dropped (R154, R160; 93 U16). -/
def Obligations.EncodeOfDecode : Prop :=
  ∀ (b0 b1 b2 : Byte) (rest : List Byte), ∃ i left bytes, decode (b0 :: b1 :: b2 :: rest) = .ok (i, left) ∧ i.wf = true ∧
    encode i = some bytes ∧ bytes ++ left = b0 :: b1 :: b2 :: rest

/-- A few words written out from R160 and R170 decode to the instructions they stand for. -/
def Obligations.DecodeKnownWords : Prop :=
  decode [0xA9, 0x00] = .ok (.lda (.imm 0x00), []) ∧ decode [0xF0, 0x05] = .ok (.beq 0x05, []) ∧
  decode [0xB1, 0x12] = .ok (.lda (.izy 0x12), []) ∧ decode [0x6C, 0x34, 0x12] = .ok (.jmpInd 0x1234, []) ∧
  decode [0x0A] = .ok (.asl .acc, []) ∧ decode [0x69, 0x46] = .ok (.adc (.imm 0x46), []) ∧
  decode [0x1C, 0xF0, 0x12] = .ok (.illegal 0x1C, [0xF0, 0x12]) ∧ decode [0xAD, 0x34] = .error (.truncated 0xAD)

/-! ## The step -/

/-- The step takes a pending interrupt, reads the instruction's bytes in order, and executes what they decode to, PC
after them; `finishStep` adds the hook and the result (R501 to R505, R512). -/
def Obligations.StepRunsDecodedInstruction : Prop :=
  ∀ (s : State) (i : Instr) (rest : List Byte), configRefusal s.cfg = none →
    let s1 := serviceInterrupts s
    let r0 := busRead s1.pc s1
    let r1 := busRead (s1.pc + 1) r0.2
    let r2 := busRead (s1.pc + 2) r1.2
    decode [r0.1, r1.1, r2.1] = .ok (i, rest) →
    let after := if i.length = 1 then r0.2 else if i.length = 2 then r1.2 else r2.2
    step s = finishStep s.cycles
      (exec i ((after.setPc (s1.pc + BitVec.ofNat 16 i.length)).setOpcode r0.1))

/-- Every step of a configured instance whose hook obeys R521 answers a next state: no address stops the machine (R107),
there is no condition beside IllegalOpcode (R601) and no privilege (R650). That a strict illegal opcode's step is a next
state too is the model's reading (log 8), from R514 and R620, by which a further step runs. -/
def Obligations.StepAlwaysCompletes : Prop :=
  ∀ s : State, Ready s = true → ∃ t, step s = .next t

/-- The step is refused for a family the spec does not describe, for a missing illegal policy, and where the hook makes a
call it must not make after an instruction that completed: the first such call names the refusal. R4, R13 and R521 ask a
model for the three refusals (93 U5, U6, U8). The model's own: that the step is the call that refuses a family or a
missing policy (log 20), that a forbidden hook call refuses the whole step, and by which name (log 13), and that a hook
is a program of calls and tests (log 10). -/
def Obligations.StepRefusals : Prop :=
  (∀ s : State, s.cfg.family ≠ .mos6502 → step s = .refused (.familyNotDescribed s.cfg.family)) ∧
  (∀ s : State, s.cfg.family = .mos6502 → s.cfg.illegalPolicy = none → step s = .refused .policyNotGiven) ∧
  (∀ (s : State) (cb : Callback) (e : HostEntry) (rest : HookProgram),
    configured s = true → s.hook = some cb → cb.program = .call (.forbidden e) rest →
    step s = .refused (.hookCalled e) ∨ ∃ t pc op n, step s = .next t ∧ t.lastStep = some (.illegal pc op n)) ∧
  (∀ (s u : State) (cb : Callback) (e : HostEntry) (n : Nat),
    configured s = true → s.hook = some cb →
    let f := fetchInstr (serviceInterrupts s)
    exec f.1 f.2 = .next u → u.lastStep = some (.ok n) →
    (hookPath cb.program 0 u).1.find? (fun c => !HookCall.allowed c) = some (.forbidden e) →
    step s = .refused (.hookCalled e))

/-- The result of a step is what the counters show: the cycles added, and one instruction more exactly where it
completed; a raised illegal opcode leaves PC at the opcode (R62, R511, R512, R620). -/
def Obligations.StepResultMatchesCounters : Prop :=
  ∀ s t : State, step s = .next t →
    match t.lastStep with
    | some (.ok n) => t.cycles = s.cycles + n ∧ t.instructions = s.instructions + 1
    | some (.illegal pc _ n) => t.cycles = s.cycles + n ∧ t.instructions = s.instructions ∧ t.pc = pc
    | none => False

/-- A completed step costs 2 to 14 cycles and a raised illegal opcode none but an interrupt entry's 7, where the
configured shapes cost what those of R162 do (R513, R720, R721). -/
def Obligations.StepCostBounds : Prop :=
  ∀ s t : State, ShapesWithin s.cfg → step s = .next t →
    match t.lastStep with
    | some (.ok n) => 2 ≤ n ∧ n ≤ 14
    | some (.illegal _ _ n) => n = 0 ∨ n = 7
    | none => False

/-- The hook in the slot is called once after an instruction that completed, in the state `u` at its end, and not after a
raised illegal opcode (R520). Its calls are made in order, each decision following the answer before it: their bus
accesses stand in the record and in memory, what they raise is pending after the step and nothing else is, and they
change no register and no counter; the step leaves the same callback in the slot, called once more (R65, R521, R612,
R613). That a hook is a program of calls and tests is the model's choice (log 10). -/
def Obligations.HookCalledOncePerInstruction : Prop :=
  ∀ s t : State, step s = .next t →
    let f := fetchInstr (serviceInterrupts s)
    ∃ u, exec f.1 f.2 = .next u ∧ regs t = regs u ∧ t.cycles = u.cycles ∧ t.instructions = u.instructions ∧
      (s.hook = none →
        t.hook = none ∧ t.nmiPending = false ∧ t.irqPending = false ∧ t.mem = u.mem ∧ t.busLog = u.busLog) ∧
      ∀ cb, s.hook = some cb →
        match t.lastStep with
        | some (.ok _) =>
          let path := hookPath cb.program 0 u
          let w := path.1.foldl busAccess u
          t.hook = some { cb with
            invocations := cb.invocations + 1, program := if path.2 = .done then cb.again else path.2 } ∧
          t.nmiPending = path.1.contains .raiseNmi ∧ t.irqPending = path.1.contains .raiseIrq ∧
          t.mem = w.mem ∧ t.busLog = w.busLog
        | _ =>
          t.hook = some cb ∧ t.nmiPending = false ∧ t.irqPending = false ∧ t.mem = u.mem ∧ t.busLog = u.busLog

/-! ## Invariants of every step -/

/-- Every step keeps memory in its canonical form, from any state (R101, R116; the form is the model's, log 4). -/
def Obligations.StepKeepsMemoryCanonical : Prop :=
  ∀ s t : State, Memory.wf s.mem = true → step s = .next t → Memory.wf t.mem = true

/-- Memory has its canonical form right after reset. -/
def Obligations.ResetMemoryCanonical : Prop := Memory.wf State.reset.mem = true

/-- No step changes the configuration (R66), and none moves the sequencer, so the micro-step index of the 6502
instance stays where it is (R544). -/
def Obligations.StepKeepsConfiguration : Prop :=
  ∀ s t : State, step s = .next t → t.cfg = s.cfg ∧ t.seq = s.seq

/-- A step only adds bus events to the record, at its newest end, and at least one (R105, R110). That State keeps the
record is the model's choice (log 5). -/
def Obligations.StepExtendsBusRecord : Prop :=
  ∀ s t : State, step s = .next t → ∃ events, events ≠ [] ∧ t.busLog = events ++ s.busLog

/-! ## Whole-machine rules -/

/-- Only the instructions R59 lists write each flag. An illegal opcode writes none. -/
def Obligations.FlagWriters : Prop :=
  ∀ (i : Instr) (s t : State), exec i s = .next t →
    (t.p.v ≠ s.p.v → ["ADC", "BIT", "CLV", "PLP", "RTI", "SBC"].contains (mnemonic i) = true) ∧
    (t.p.d ≠ s.p.d → ["CLD", "SED", "PLP", "RTI"].contains (mnemonic i) = true ∨
      (mnemonic i = "BRK" ∧ s.cfg.clearDOnInterrupt = true)) ∧
    (t.p.i ≠ s.p.i → ["CLI", "SEI", "PLP", "RTI", "BRK"].contains (mnemonic i) = true) ∧
    (t.p.c ≠ s.p.c → ["ADC", "ASL", "CLC", "CMP", "CPX", "CPY", "LSR", "PLP", "ROL", "ROR", "RTI", "SBC", "SEC"].contains
      (mnemonic i) = true) ∧
    ((t.p.n ≠ s.p.n ∨ t.p.z ≠ s.p.z) →
      ["ADC", "AND", "ASL", "BIT", "CMP", "CPX", "CPY", "DEC", "DEX", "DEY", "EOR", "INC", "INX", "INY", "LDA", "LDX",
       "LDY", "LSR", "ORA", "PLA", "PLP", "ROL", "ROR", "RTI", "SBC", "TAX", "TAY", "TSX", "TXA", "TYA"].contains
      (mnemonic i) = true)

/-- Only the instructions R69 lists write A, X, Y and S. -/
def Obligations.RegisterWriters : Prop :=
  ∀ (i : Instr) (s t : State), exec i s = .next t →
    (t.a ≠ s.a → ["LDA", "PLA", "TXA", "TYA", "ADC", "SBC", "AND", "ORA", "EOR"].contains (mnemonic i) = true ∨
      (["ASL", "LSR", "ROL", "ROR"].contains (mnemonic i) = true ∧ i.operand = .acc)) ∧
    (t.x ≠ s.x → ["LDX", "TAX", "TSX", "INX", "DEX"].contains (mnemonic i) = true) ∧
    (t.y ≠ s.y → ["LDY", "TAY", "INY", "DEY"].contains (mnemonic i) = true) ∧
    (t.sp ≠ s.sp → ["TXS", "PHA", "PLA", "PHP", "PLP", "JSR", "RTS", "BRK", "RTI"].contains (mnemonic i) = true)

/-- Only the stores, the read-modify-write instructions in a memory mode and the pushing instructions change memory,
and the pushing ones only within page 0x01 (R54, R254 to R256, R355). -/
def Obligations.MemoryWriters : Prop :=
  ∀ (i : Instr) (s t : State) (a : Addr), exec i s = .next t → t.byteAt a ≠ s.byteAt a →
    ["STA", "STX", "STY", "ASL", "LSR", "ROL", "ROR", "INC", "DEC"].contains (mnemonic i) = true ∧
      i.operand ≠ .acc ∧ a = eaOf i.operand s ∨
    ["PHA", "PHP", "JSR", "BRK"].contains (mnemonic i) = true ∧ a.toNat / 256 = 1

/-! ## Memory and the stack -/

/-- Where no device answers, a read gives the byte written last at that address, and a write changes no other address;
a later fetch sees it (R110, R114, R712). -/
def Obligations.ReadGivesLatestWrite : Prop :=
  ∀ (a b : Addr) (v : Byte) (s : State), s.isIo a = false → s.isIo b = false →
    (busRead b (busWrite a v s)).1 = if b = a then v else (busRead b s).1

/-- Up to 256 pushes and as many pulls give the bytes back in reverse order and restore S, where page 0x01 is memory
(R120, R121). -/
def Obligations.PushesThenPulls : Prop :=
  ∀ (bytes : List Byte) (s : State), stackIsMemory s → bytes.length ≤ 256 →
    let t := bytes.foldl (fun u v => push v u) s
    (pullMany bytes.length t).1 = bytes.reverse ∧ (pullMany bytes.length t).2.sp = s.sp

/-- The image of P has each flag at its bit, bit 5 set and bit 4 the break bit (R56, R57), and loading an image gives
the flags back, whatever bits 5 and 4 hold (R58). -/
def Obligations.StatusImage : Prop :=
  ∀ (b : Bool) (p : Flags) (v : Byte),
    (pImage b p).toNat = 128 * p.n.toNat + 64 * p.v.toNat + 32 + 16 * b.toNat + 8 * p.d.toNat + 4 * p.i.toNat +
      2 * p.z.toNat + p.c.toNat ∧
    loadP (pImage b p) = p ∧ loadP (v ||| 0x30) = loadP v ∧ pImage b (loadP v) = v &&& 0xCF ||| pImage b (loadP 0)

/-! ## Addressing modes -/

/-- The resolvers without a pointer, from the byte after the opcode: what they fetch, the effective address with its
wrap, and PC (R201 to R207, R213); the absolute indexed sums wrap modulo 2^16, and their page flag says that the high
byte differs from the base's (R210, R212). -/
def Obligations.DirectModeAddresses : Prop :=
  ∀ s : State,
    let b := fetch s
    let hi := fetch b.2
    let base := hi.1.toNat * 256 + b.1.toNat
    let at_ := fun (index : Byte) =>
      hi.2.setScratch
        { s.scratch with
          ea := BitVec.ofNat 16 (base + index.toNat), pageCross := decide (256 ≤ base % 256 + index.toNat) }
    fetchAndResolve .imp s = s ∧
    fetchAndResolve .acc s = s.setScratch { s.scratch with accMode := true } ∧
    fetchAndResolve .imm s = (s.setPc (s.pc + 1)).setScratch { s.scratch with ea := s.pc } ∧
    fetchAndResolve .zp s = b.2.setScratch { s.scratch with ea := BitVec.ofNat 16 b.1.toNat } ∧
    fetchAndResolve .zpx s = b.2.setScratch { s.scratch with ea := BitVec.ofNat 16 ((b.1.toNat + s.x.toNat) % 256) } ∧
    fetchAndResolve .zpy s = b.2.setScratch { s.scratch with ea := BitVec.ofNat 16 ((b.1.toNat + s.y.toNat) % 256) } ∧
    fetchAndResolve .rel s = b.2.setScratch { s.scratch with rel := b.1.toInt } ∧
    fetchAndResolve .abs s = hi.2.setScratch { s.scratch with ea := BitVec.ofNat 16 base } ∧
    fetchAndResolve .abx s = at_ s.x ∧ fetchAndResolve .aby s = at_ s.y

/-- The pointer resolvers (R208, R209): the pointer is read within the zero page, low byte first, and only (zp),Y
indexes the result and sets the page flag. -/
def Obligations.PointerModeAddresses : Prop :=
  ∀ s : State,
    let b := fetch s
    let pointer := fun (p : Nat) => read16 (BitVec.ofNat 16 (p % 256)) (BitVec.ofNat 16 ((p + 1) % 256)) b.2
    let x := pointer (b.1.toNat + s.x.toNat)
    let y := pointer b.1.toNat
    fetchAndResolve .izx s = x.2.setScratch { s.scratch with ea := x.1 } ∧
    fetchAndResolve .izy s = y.2.setScratch
      { s.scratch with
        ea := BitVec.ofNat 16 (y.1.toNat + s.y.toNat)
        pageCross := decide (256 ≤ y.1.toNat % 256 + s.y.toNat) }

/-- The indirect resolver of JMP (R211): on Nmos the pointer's high byte is read in the pointer's own page, on Cmos at
the next address. -/
def Obligations.IndirectModeAddress : Prop :=
  ∀ s : State,
    let plo := fetch s
    let phi := fetch plo.2
    let ptr := phi.1.toNat * 256 + plo.1.toNat
    let hiAt := match s.cfg.variant with
      | .nmos => phi.1.toNat * 256 + (plo.1.toNat + 1) % 256
      | .cmos => ptr + 1
    let r := read16 (BitVec.ofNat 16 ptr) (BitVec.ofNat 16 hiAt) phi.2
    fetchAndResolve .ind s = r.2.setScratch { s.scratch with ea := r.1 }

/-- For a documented opcode the driver's fetch followed by the operand's resolver is the mode's own resolver run after
the opcode fetch, but for the read of an immediate byte, which the fetch makes in the handler's place (R500, R503, log
7). -/
def Obligations.FetchThenResolveIsMode : Prop :=
  ∀ (s : State) (m : Mode), modeTable (fetch s).1 = some m →
    let opened := (fetch s).2.setOpcode (fetch s).1
    let f := fetchInstr s
    let read := if m = .imm then (busRead opened.pc opened).2 else opened
    f.1.operand.mode = m ∧ resolve f.1.operand f.2 = fetchAndResolve m read

/-! ## Loads, stores and transfers -/

/-- LDA, LDX and LDY in every form (R250 to R253). -/
def Obligations.LoadsFollowRules : Prop :=
  ReadRule .lda ldaForms always (fun v s => { regs s with a := v, p := withNZ s.p v }) noExtra ∧
  ReadRule .ldx ldxForms always (fun v s => { regs s with x := v, p := withNZ s.p v }) noExtra ∧
  ReadRule .ldy ldyForms always (fun v s => { regs s with y := v, p := withNZ s.p v }) noExtra

/-- STA, STX and STY in every form (R254 to R256). -/
def Obligations.StoresFollowRules : Prop :=
  StoreRule .sta staForms State.a ∧ StoreRule .stx stxForms State.x ∧ StoreRule .sty styForms State.y

/-- TAX, TAY, TXA, TYA, TSX and TXS (R257 to R262). -/
def Obligations.TransfersFollowRules : Prop :=
  ImpliedRule .tax 0xAA 2 (fun s => { regs s with x := s.a, p := withNZ s.p s.a }) ∧
  ImpliedRule .tay 0xA8 2 (fun s => { regs s with y := s.a, p := withNZ s.p s.a }) ∧
  ImpliedRule .txa 0x8A 2 (fun s => { regs s with a := s.x, p := withNZ s.p s.x }) ∧
  ImpliedRule .tya 0x98 2 (fun s => { regs s with a := s.y, p := withNZ s.p s.y }) ∧
  ImpliedRule .tsx 0xBA 2 (fun s => { regs s with x := s.sp, p := withNZ s.p s.sp }) ∧
  ImpliedRule .txs 0x9A 2 (fun s => { regs s with sp := s.x })

/-! ## Arithmetic and compare -/

/-- ADC in binary, in every form (R301, R302). -/
def Obligations.AdcBinaryFollowsRule : Prop := ReadRule .adc adcForms binaryMode binarySum noExtra

/-- ADC in decimal mode, in every form, on both variants (R301, R303, R741). -/
def Obligations.AdcDecimalFollowsRule : Prop :=
  ∀ cmos : Bool, ReadRule .adc adcForms (decimalWay cmos) (decimalSum cmos) (cmosCycle cmos)

/-- SBC in binary, in every form (R304, R305). -/
def Obligations.SbcBinaryFollowsRule : Prop := ReadRule .sbc sbcForms binaryMode binaryDifference noExtra

/-- SBC in decimal mode, in every form, on both variants (R304, R306, R741). -/
def Obligations.SbcDecimalFollowsRule : Prop :=
  ∀ cmos : Bool, ReadRule .sbc sbcForms (decimalWay cmos) (decimalDifference cmos) (cmosCycle cmos)

/-- CMP, CPX and CPY in every form (R307 to R310). -/
def Obligations.ComparesFollowRules : Prop :=
  ReadRule .cmp cmpForms always (fun m s => { regs s with p := compared s.a m s.p }) noExtra ∧
  ReadRule .cpx cpxForms always (fun m s => { regs s with p := compared s.x m s.p }) noExtra ∧
  ReadRule .cpy cpyForms always (fun m s => { regs s with p := compared s.y m s.p }) noExtra

/-- Adding two bytes and subtracting one of them again gives the other back: ADC with C clear, SEC, SBC, in binary
(R311). -/
def Obligations.AddThenSubtract : Prop :=
  ∀ (s : State) (b : Byte), binaryMode s → s.p.c = false →
    ∃ t u v, exec (.adc (.imm b)) s = .next t ∧ exec .sec t = .next u ∧ exec (.sbc (.imm b)) u = .next v ∧ v.a = s.a

/-- On decimal digits the decimal add is decimal addition with carry, on both variants (derived from R303). -/
def Obligations.DecimalAddIsDecimal : Prop :=
  ∀ (cmos : Bool) (a m : Byte) (p : Flags), isBcd a → isBcd m →
    let r := adcDecimal cmos a m p
    let total := bcdValue a + bcdValue m + p.c.toNat
    isBcd r.value ∧ bcdValue r.value = total % 100 ∧ r.p.c = decide (100 ≤ total)

/-- On decimal digits the decimal subtract is decimal subtraction with borrow, on both variants (derived from R306). -/
def Obligations.DecimalSubtractIsDecimal : Prop :=
  ∀ (cmos : Bool) (a m : Byte) (p : Flags), isBcd a → isBcd m →
    let r := sbcDecimal cmos a m p
    let total : Int := (bcdValue a : Int) - bcdValue m - (1 - p.c.toNat)
    isBcd r.value ∧ (bcdValue r.value : Int) = total % 100 ∧ r.p.c = decide (0 ≤ total)

/-! ## Logic, shifts, increments and decrements -/

/-- AND, ORA and EOR in every form (R350 to R353), and BIT in both of its forms (R354). -/
def Obligations.LogicFollowsRules : Prop :=
  ReadRule .and andForms always (fun m s => { regs s with a := s.a &&& m, p := withNZ s.p (s.a &&& m) }) noExtra ∧
  ReadRule .ora oraForms always (fun m s => { regs s with a := s.a ||| m, p := withNZ s.p (s.a ||| m) }) noExtra ∧
  ReadRule .eor eorForms always (fun m s => { regs s with a := s.a ^^^ m, p := withNZ s.p (s.a ^^^ m) }) noExtra ∧
  ReadRule .bit bitForms always
    (fun m s => { regs s with
      p := { s.p with
        z := decide ((s.a &&& m).toNat = 0), n := decide (128 ≤ m.toNat), v := decide (m.toNat / 64 % 2 = 1) } })
    noExtra

/-- ASL, LSR, ROL and ROR in every form (R355 to R359). -/
def Obligations.ShiftsFollowRules : Prop :=
  let result := fun (p : Flags) (c : Bool) (r : Nat) =>
    (BitVec.ofNat 8 r, { withNZ p (BitVec.ofNat 8 r) with c := c })
  RmwRule .asl aslForms (fun v p => result p (decide (128 ≤ v.toNat)) (v.toNat * 2)) ∧
  RmwRule .lsr lsrForms (fun v p => result p (decide (v.toNat % 2 = 1)) (v.toNat / 2)) ∧
  RmwRule .rol rolForms (fun v p => result p (decide (128 ≤ v.toNat)) (v.toNat * 2 + p.c.toNat)) ∧
  RmwRule .ror rorForms (fun v p => result p (decide (v.toNat % 2 = 1)) (v.toNat / 2 + p.c.toNat * 128))

/-- INC and DEC in every form: C and V untouched (R355, R360, R361). -/
def Obligations.IncDecFollowRules : Prop :=
  let result := fun (p : Flags) (r : Nat) => (BitVec.ofNat 8 r, withNZ p (BitVec.ofNat 8 r))
  RmwRule .inc incForms (fun v p => result p (v.toNat + 1)) ∧
  RmwRule .dec decForms (fun v p => result p (v.toNat + 255))

/-- INX, INY, DEX and DEY (R362 to R365). -/
def Obligations.IndexStepsFollowRules : Prop :=
  let up := fun (v : Byte) => BitVec.ofNat 8 (v.toNat + 1)
  let down := fun (v : Byte) => BitVec.ofNat 8 (v.toNat + 255)
  ImpliedRule .inx 0xE8 2 (fun s => { regs s with x := up s.x, p := withNZ s.p (up s.x) }) ∧
  ImpliedRule .iny 0xC8 2 (fun s => { regs s with y := up s.y, p := withNZ s.p (up s.y) }) ∧
  ImpliedRule .dex 0xCA 2 (fun s => { regs s with x := down s.x, p := withNZ s.p (down s.x) }) ∧
  ImpliedRule .dey 0x88 2 (fun s => { regs s with y := down s.y, p := withNZ s.p (down s.y) })

/-! ## Control transfer -/

/-- The eight conditional branches (R400 to R408). -/
def Obligations.BranchesFollowRules : Prop :=
  BranchRule .bpl 0x10 (fun p => p.n = false) ∧ BranchRule .bmi 0x30 (fun p => p.n = true) ∧
  BranchRule .bvc 0x50 (fun p => p.v = false) ∧ BranchRule .bvs 0x70 (fun p => p.v = true) ∧
  BranchRule .bcc 0x90 (fun p => p.c = false) ∧ BranchRule .bcs 0xB0 (fun p => p.c = true) ∧
  BranchRule .bne 0xD0 (fun p => p.z = false) ∧ BranchRule .beq 0xF0 (fun p => p.z = true)

/-- JMP absolute and JMP indirect, with the variant's pointer wrap and cycle count (R211, R410, R411, R741). -/
def Obligations.JumpsFollowRules : Prop :=
  (∀ w : Addr, opcodeOf (.jmpAbs w) = some 0x4C ∧ opcodeOf (.jmpInd w) = some 0x6C) ∧
  (∀ (w : Addr) (s : State), ∃ t, exec (.jmpAbs w) s = .next t ∧ regs t = { regs s with pc := w } ∧ SameHost s t ∧
    SameMemory s t ∧ t.busLog = s.busLog ∧ Took 3 s t) ∧
  (∀ (w : Addr) (s : State),
    let hiAt := match s.cfg.variant with
      | .nmos => BitVec.ofNat 16 (w.toNat / 256 * 256 + (w.toNat + 1) % 256)
      | .cmos => BitVec.ofNat 16 (w.toNat + 1)
    let r := read16 w hiAt s
    ∃ t, exec (.jmpInd w) s = .next t ∧ regs t = { regs s with pc := r.1 } ∧ SameHost s t ∧ SameMemory s t ∧
      t.busLog = r.2.busLog ∧ Took (match s.cfg.variant with | .nmos => 5 | .cmos => 6) s t)

/-- JSR pushes the address of its own last byte, high byte first, and jumps (R412); RTS pulls the low byte, then the
high byte, and goes to the address after (R413). -/
def Obligations.SubroutinesFollowRules : Prop :=
  (∀ (w : Addr) (s : State), opcodeOf (.jsr w) = some 0x20 ∧
    ∃ t, exec (.jsr w) s = .next t ∧ regs t = { regs s with pc := w, sp := s.sp - 2 } ∧ SameHost s t ∧
      Stored [(stackAddr s.sp, hiByte (s.pc - 1)), (stackAddr (s.sp - 1), loByte (s.pc - 1))] s t ∧
      t.busLog = .write (stackAddr (s.sp - 1)) (loByte (s.pc - 1)) :: .write (stackAddr s.sp) (hiByte (s.pc - 1)) ::
        s.busLog ∧ Took 6 s t) ∧
  opcodeOf .rts = some 0x60 ∧
  ∀ s : State,
    let lo := busRead (stackAddr (s.sp + 1)) s
    let hi := busRead (stackAddr (s.sp + 2)) lo.2
    ∃ t, exec .rts s = .next t ∧
      regs t = { regs s with pc := BitVec.ofNat 16 (hi.1.toNat * 256 + lo.1.toNat + 1), sp := s.sp + 2 } ∧
      SameHost s t ∧ SameMemory s t ∧ t.busLog = hi.2.busLog ∧ Took 6 s t

/-- A subroutine that returns at once comes back to the instruction after its JSR with S restored, where page 0x01 is
memory (R412, R413). -/
def Obligations.CallThenReturn : Prop :=
  ∀ (w : Addr) (s : State), stackIsMemory s →
    ∃ t u, exec (.jsr w) s = .next t ∧ t.pc = w ∧ exec .rts t = .next u ∧ u.pc = s.pc ∧ u.sp = s.sp

/-! ## Stack, flags and system -/

/-- PHA and PHP: one byte pushed, PHP's with B and bit 5 set (R451, R453). PLA and PLP: one byte pulled, into A with N
and Z, or into the six flags (R452, R454). -/
def Obligations.StackOpsFollowRules : Prop :=
  opcodeOf .pha = some 0x48 ∧ opcodeOf .php = some 0x08 ∧ opcodeOf .pla = some 0x68 ∧ opcodeOf .plp = some 0x28 ∧
  ∀ s : State,
    let r := busRead (stackAddr (s.sp + 1)) s
    (∃ t, exec .pha s = .next t ∧ regs t = { regs s with sp := s.sp - 1 } ∧ SameHost s t ∧
      Stored [(stackAddr s.sp, s.a)] s t ∧ t.busLog = .write (stackAddr s.sp) s.a :: s.busLog ∧ Took 3 s t) ∧
    (∃ t, exec .php s = .next t ∧ regs t = { regs s with sp := s.sp - 1 } ∧ SameHost s t ∧
      Stored [(stackAddr s.sp, pImage true s.p)] s t ∧
      t.busLog = .write (stackAddr s.sp) (pImage true s.p) :: s.busLog ∧ Took 3 s t) ∧
    (∃ t, exec .pla s = .next t ∧ regs t = { regs s with a := r.1, sp := s.sp + 1, p := withNZ s.p r.1 } ∧
      SameHost s t ∧ SameMemory s t ∧ t.busLog = r.2.busLog ∧ Took 4 s t) ∧
    (∃ t, exec .plp s = .next t ∧ regs t = { regs s with sp := s.sp + 1, p := loadP r.1 } ∧
      SameHost s t ∧ SameMemory s t ∧ t.busLog = r.2.busLog ∧ Took 4 s t)

/-- CLC, SEC, CLI, SEI, CLD, SED, CLV and NOP (R455 to R462). -/
def Obligations.FlagOpsFollowRules : Prop :=
  ImpliedRule .clc 0x18 2 (fun s => { regs s with p := { s.p with c := false } }) ∧
  ImpliedRule .sec 0x38 2 (fun s => { regs s with p := { s.p with c := true } }) ∧
  ImpliedRule .cli 0x58 2 (fun s => { regs s with p := { s.p with i := false } }) ∧
  ImpliedRule .sei 0x78 2 (fun s => { regs s with p := { s.p with i := true } }) ∧
  ImpliedRule .cld 0xD8 2 (fun s => { regs s with p := { s.p with d := false } }) ∧
  ImpliedRule .sed 0xF8 2 (fun s => { regs s with p := { s.p with d := true } }) ∧
  ImpliedRule .clv 0xB8 2 (fun s => { regs s with p := { s.p with v := false } }) ∧
  ImpliedRule .nop 0xEA 2 regs

/-- PHA, PLP, PHP, PLA take any byte through P: the six flags are its bits, and A comes back with bits 5 and 4 set,
where the stack byte is memory; PHP, PLP leaves all six flags (R465). -/
def Obligations.FlagRoundTrip : Prop :=
  ∀ s : State, s.isIo (stackAddr s.sp) = false →
    (∃ t u v w, exec .pha s = .next t ∧ exec .plp t = .next u ∧ exec .php u = .next v ∧ exec .pla v = .next w ∧
      u.p = loadP s.a ∧ w.a = s.a ||| 0x30 ∧ w.p = { loadP s.a with z := false } ∧ w.sp = s.sp) ∧
    ∃ t u, exec .php s = .next t ∧ exec .plp t = .next u ∧ u.p = s.p ∧ u.sp = s.sp

/-- BRK: PC + 1 and the image with B set pushed, I set, D by the configuration, PC from the vector at 0xFFFE (R463).
RTI: the six flags, then PC, from three pulled bytes (R464). -/
def Obligations.BrkAndRtiFollowRules : Prop :=
  opcodeOf .brk = some 0x00 ∧ opcodeOf .rti = some 0x40 ∧
  (∀ s : State,
    let r := read16 0xFFFE 0xFFFF (afterPushes true (s.pc + 1) s)
    ∃ t, exec .brk s = .next t ∧ regs t = { regs s with sp := s.sp - 3, pc := r.1, p := entryFlags s } ∧
      SameHost s t ∧ Stored (entryBytes true (s.pc + 1) s) s t ∧ t.busLog = r.2.busLog ∧ Took 7 s t) ∧
  ∀ s : State,
    let p := busRead (stackAddr (s.sp + 1)) s
    let lo := busRead (stackAddr (s.sp + 2)) p.2
    let hi := busRead (stackAddr (s.sp + 3)) lo.2
    ∃ t, exec .rti s = .next t ∧
      regs t = { regs s with sp := s.sp + 3, p := loadP p.1, pc := BitVec.ofNat 16 (hi.1.toNat * 256 + lo.1.toNat) } ∧
      SameHost s t ∧ SameMemory s t ∧ t.busLog = hi.2.busLog ∧ Took 6 s t

/-! ## Illegal opcodes -/

/-- An illegal opcode under Strict, and under Nop without a shape: PC back at the opcode, the result says where and
which, and nothing else changes (R620, R621). PC stands after the opcode byte when it executes. That raising is a next
state with the result in `lastStep` is the model's reading (log 8). -/
def Obligations.IllegalOpcodeRaises : Prop :=
  ∀ (op : Byte) (s : State), isIllegalOpcode op = true →
    s.cfg.illegalPolicy = some .strict ∨ (s.cfg.illegalPolicy = some .nop ∧ shapeOf s.cfg op = none) →
    exec (.illegal op) s =
      .next { s with pc := s.pc - 1, lastStep := some (.illegal (s.pc - 1) op 0) }

/-- An illegal opcode under Nop with a shape: its mode's resolver runs, nothing is read or written by the handler, and
it costs the shape's cycles (R467, R622). -/
def Obligations.IllegalOpcodeRunsAsNop : Prop :=
  ∀ (op : Byte) (s : State) (sh : Shape), isIllegalOpcode op = true → s.cfg.illegalPolicy = some .nop →
    shapeOf s.cfg op = some sh →
    let r := fetchAndResolve sh.mode s.clearScratch
    ∃ t, exec (.illegal op) s = .next t ∧
      regs t = { regs s with pc := s.pc + BitVec.ofNat 16 sh.mode.operandBytes } ∧ SameHost s t ∧ SameMemory s t ∧
      t.busLog = r.busLog ∧ Took (sh.base + if sh.eligible && r.scratch.pageCross then 1 else 0) s t

/-- A whole step on an illegal opcode under Strict with no interrupt pending: one read, at the opcode, and the same
again at the next step (R514, R620; the result's place in the state is the model's, log 8). -/
def Obligations.IllegalStepRepeats : Prop :=
  ∀ (s : State) (op : Byte), s.cfg.family = .mos6502 → s.cfg.illegalPolicy = some .strict → s.nmiPending = false →
    s.irqPending = false → s.isIo s.pc = false → s.byteAt s.pc = op → isIllegalOpcode op = true →
    ∃ t u, step s = .next t ∧ regs t = regs s ∧ SameHost s t ∧ t.mem = s.mem ∧ t.cycles = s.cycles ∧
      t.instructions = s.instructions ∧ t.lastStep = some (.illegal s.pc op 0) ∧
      t.busLog = .read s.pc op :: s.busLog ∧
      step t = .next u ∧ regs u = regs s ∧ u.lastStep = some (.illegal s.pc op 0) ∧
      u.busLog = .read s.pc op :: t.busLog

/-! ## Interrupts -/

/-- The common entry of NMI and IRQ (R610): three pushes with B clear, I set, D by the configuration, PC from the
vector, 7 cycles, and no instruction counted. -/
def Obligations.InterruptEntryFollowsRule : Prop :=
  ∀ (vec : Addr) (s : State),
    let r := read16 vec (vec + 1) (afterPushes false s.pc s)
    let t := interruptEntry vec s
    regs t = { regs s with sp := s.sp - 3, pc := r.1, p := entryFlags s } ∧ SameHost s t ∧
      Stored (entryBytes false s.pc s) s t ∧ t.busLog = r.2.busLog ∧ t.cycles = s.cycles + 7 ∧
      t.instructions = s.instructions ∧ t.scratch = s.scratch ∧ t.lastStep = s.lastStep

/-- The interrupt check (R611 to R613): NMI first whatever I holds, an IRQ only with I clear, at most one entry, and
the IRQ latch consumed in every case. -/
def Obligations.InterruptCheckFollowsRule : Prop :=
  ∀ s : State,
    (s.nmiPending = true →
      serviceInterrupts s = interruptEntry 0xFFFA { s with nmiPending := false, irqPending := false }) ∧
    (s.nmiPending = false → s.irqPending = true → s.p.i = false →
      serviceInterrupts s = interruptEntry 0xFFFE { s with irqPending := false }) ∧
    (s.nmiPending = false → s.irqPending = false ∨ s.p.i = true →
      serviceInterrupts s = { s with irqPending := false })

/-- A masked IRQ has no effect on a step, and neither has an IRQ beside an NMI: the step is the one without the raise
(R612, R613; 90_conflicts.md C1, C2). -/
def Obligations.MaskedIrqHasNoEffect : Prop :=
  ∀ s : State, s.p.i = true ∨ s.nmiPending = true → step (raiseIrq s) = step s

/-- RTI right after an interrupt entry resumes the interrupted program: PC, P and S are back, where page 0x01 is memory
(R615, R616). -/
def Obligations.ReturnResumesInterrupted : Prop :=
  ∀ (vec : Addr) (s : State), stackIsMemory s →
    ∃ t, exec .rti (interruptEntry vec s) = .next t ∧ regs t = regs s

/-! ## Reset and the host's calls -/

/-- `reset()` on any state (R700, R701): the registers from `reset_regs`, I set, D clear on Cmos, the latches and the
scratch flags cleared, PC from the reset vector by exactly two reads; counters, hook, memory and configuration stand.
R700 gives this for the 6502 instance; that an instance of another family is reset in the same way is the model's choice
(log 20), and so is that a microprogram sequencer drops its operation (log 22). -/
def Obligations.ResetFollowsRule : Prop :=
  ∀ s : State,
    let g := s.cfg.resetRegs
    let t := hostReset s
    let lo := busRead 0xFFFC s
    let hi := busRead 0xFFFD lo.2
    regs t =
      { a := g.a, x := g.x, y := g.y, sp := g.s, pc := BitVec.ofNat 16 (hi.1.toNat * 256 + lo.1.toNat)
        p := { n := g.n, v := g.v, z := g.z, c := g.c, i := true
               d := match s.cfg.variant with
                 | .cmos => false
                 | .nmos => g.d } } ∧
    t.nmiPending = false ∧ t.irqPending = false ∧ t.scratch.accMode = false ∧ t.scratch.pageCross = false ∧
    t.scratch.opPenalty = false ∧ t.cycles = s.cycles ∧ t.instructions = s.instructions ∧ t.hook = s.hook ∧
    t.mem = s.mem ∧ t.cfg = s.cfg ∧ t.seq = .idle ∧ t.busLog = .read 0xFFFD hi.1 :: .read 0xFFFC lo.1 :: s.busLog

/-- A created instance, in any configuration and memory (R703): counters and latches 0, the hook slot empty, and all that
`reset()` then does (R700): the registers from `reset_regs`, I set, D clear on Cmos, the scratch flags cleared, PC from
the reset vector, whose two reads are the only bus events. That an instance of another family, or without an illegal
policy, is created, and as a 6502, is the model's choice (log 20). -/
def Obligations.CreationFollowsRule : Prop :=
  ∀ (cfg : Config) (mem : List Host.Cell),
    let g := cfg.resetRegs
    let before : State := { State.reset with mem := mem, busLog := [], cfg := cfg }
    let lo := busRead 0xFFFC before
    let hi := busRead 0xFFFD lo.2
    let s := State.create cfg mem
    regs s =
      { a := g.a, x := g.x, y := g.y, sp := g.s, pc := BitVec.ofNat 16 (hi.1.toNat * 256 + lo.1.toNat)
        p := { n := g.n, v := g.v, z := g.z, c := g.c, i := true
               d := match cfg.variant with
                 | .cmos => false
                 | .nmos => g.d } } ∧
    s.cycles = 0 ∧ s.instructions = 0 ∧ s.nmiPending = false ∧ s.irqPending = false ∧ s.hook = none ∧
    s.scratch.accMode = false ∧ s.scratch.pageCross = false ∧ s.scratch.opPenalty = false ∧ s.lastStep = none ∧
    s.cfg = cfg ∧ s.mem = mem ∧ s.busLog = [.read 0xFFFD hi.1, .read 0xFFFC lo.1]

/-- State.reset is the instance created in the configuration the model chose (log 2, log 3) on memory with nothing
listed (log 4): A, X, Y 0, S 0xFD, flags clear but I, PC 0. These are the model's choices, not the spec's. -/
def Obligations.ResetStateChoices : Prop :=
  State.create (Config.ofVariant .nmos .strict) [] = State.reset ∧
  regs State.reset =
    { a := 0, x := 0, y := 0, sp := 0xFD, pc := 0, p := { n := false, v := false, d := false, i := true, z := false, c := false } }

/-- `save()` has the layout of R630; `restore` of any seven bytes writes the registers and the scratch flags and nothing
else, of a saved buffer it gives the registers back, and a buffer of another length is rejected with no change (R631).
That both calls do the same on an instance of another family is the model's choice (log 20). -/
def Obligations.SaveAndRestore : Prop :=
  (∀ s : State, save s = [BitVec.ofNat 8 s.pc.toNat, BitVec.ofNat 8 (s.pc.toNat / 256), s.a, s.x, s.y, s.sp, pImage true s.p]) ∧
  (∀ (b0 b1 b2 b3 b4 b5 b6 : Byte) (s : State), restore [b0, b1, b2, b3, b4, b5, b6] s =
    (.ok, { s with
      pc := BitVec.ofNat 16 (b1.toNat * 256 + b0.toNat), a := b2, x := b3, y := b4, sp := b5, p := loadP b6
      scratch := { s.scratch with accMode := false, pageCross := false, opPenalty := false } })) ∧
  (∀ s u : State, (restore (save s) u).1 = .ok ∧ regs (restore (save s) u).2 = regs s) ∧
  (∀ (buf : List Byte) (s : State), buf.length ≠ 7 → restore buf s = (.rejected, s))

/-- `run(budget)` (R513). A budget of 0 executes nothing. Otherwise it takes one step, and a raised illegal opcode ends
it; else it returns where the step used the budget up, and goes on with what is left of it where not. What it returns is
what the cycle counter shows. Where the configured shapes cost what those of R162 do, it overshoots by less than one
step, and it ends: without a hook and in an accepted configuration, with a result. The model's choices: a budget of 0
answers Ok(0) in every configuration, another family or no policy included (log 20); a step that is refused, and so the
run, is the call that refuses (logs 13, 20); the run ends with that refusal, and `RunReturns` is the loop followed as far
as it goes (log 15). -/
def Obligations.RunStopsAtBudget : Prop :=
  ∀ (budget : Nat) (s : State),
    RunReturns 0 s (.next (.ok 0, s)) ∧
    (∀ o o', RunReturns budget s o → RunReturns budget s o' → o = o') ∧
    (0 < budget →
      (∀ r, step s = .refused r → RunReturns budget s (.refused r)) ∧
      (∀ t pc op n, step s = .next t → t.lastStep = some (.illegal pc op n) →
        RunReturns budget s (.next (.illegal pc op n, t))) ∧
      (∀ t n, step s = .next t → t.lastStep = some (.ok n) →
        (budget ≤ n → RunReturns budget s (.next (.ok n, t))) ∧
        (∀ left o, budget = n + left → 0 < left → RunReturns left t o → RunReturns budget s (consumedBefore n o)))) ∧
    (∀ n t, RunReturns budget s (.next (.ok n, t)) → budget ≤ n ∧ t.cycles = s.cycles + n) ∧
    (∀ pc op n t, RunReturns budget s (.next (.illegal pc op n, t)) → t.cycles = s.cycles + n ∧ t.pc = pc) ∧
    (ShapesWithin s.cfg →
      (∀ n t, RunReturns budget s (.next (.ok n, t)) → n < budget + 14) ∧
      (∀ pc op n t, RunReturns budget s (.next (.illegal pc op n, t)) → n < budget + 14) ∧
      (∃ o, RunReturns budget s o) ∧
      (configured s = true → s.hook = none → ∃ r, RunReturns budget s (.next r)))

/-! ## The assembler's branch operand -/

/-- The displacement byte an assembler writes for a target takes the branch there: PC after the branch plus the byte's
signed value (R170, R400). -/
def Obligations.AssembledBranchReaches : Prop :=
  ∀ (at_ target : Addr) (b : Byte), branchByte at_ target = some b → branchTarget (at_ + 2) b.toInt = target

/-! ## The microprogram sequencer -/

/-- One micro-step call (R540 to R543). Past the last micro-operation of an instruction it is a boundary: the cycles are
added, the instruction is counted and the hook called, the interrupts are checked as R613 checks them, and the next
operation starts at step 0. Nothing of this happens at any other call: a bus micro-operation after its check yields while
an input is asserted, changing nothing but that it is suspended; otherwise the micro-operation runs, with its bus event
and its assignments. The model's choices (log 12): the form of a micro-operation; before the first operation nothing is
added, counted or called; after an interrupt's entry nothing is counted, called or checked; and a micro-operation that
suspends before the check yields at its first call whatever the inputs, then while one is asserted, and then runs. -/
def Obligations.MicroStepFollowsRule : Prop :=
  ∀ (fam : MicroFamily) (wait hold : Bool) (s : State),
    let o := microStepCall fam wait hold s
    (s.seq.currentOp = none → ChoosesNext fam s o) ∧
    (∀ op, s.seq.currentOp = some op → microOpAt s.cfg op s.seq.microStep = none →
      let cycles := s.cycles + fam.cycles op s
      let counted := { s with cycles := cycles, instructions := s.instructions + 1 }
      (s.seq.entry = true →
        let d := fam.decode { s with cycles := cycles }
        o = .next (.boundary, atOperation d.1 false d.2)) ∧
      (s.seq.entry = false →
        (∀ r, callHook counted = .refused r → o = .refused r) ∧
        ∀ w, callHook counted = .next w → ChoosesNext fam w o)) ∧
    ∀ op u, s.seq.currentOp = some op → microOpAt s.cfg op s.seq.microStep = some u →
      let suspended := { s with seq := { s.seq with suspended := true } }
      (u.access ≠ .none → s.cfg.suspendPoint = .afterWaitCheck → (wait || hold) = true →
        o = .next (.yielded, suspended)) ∧
      (u.access = .none ∨ (s.cfg.suspendPoint = .afterWaitCheck ∧ wait = false ∧ hold = false) → MicroRan u s o) ∧
      (u.access ≠ .none → s.cfg.suspendPoint = .beforeWaitCheck →
        (s.seq.suspended = false ∨ (wait || hold) = true → o = .next (.yielded, suspended)) ∧
        (s.seq.suspended = true → wait = false → hold = false → MicroRan u s o))
end

