-- ==== Sys2Proof/Laws/Decode.lean ====
section
/-! SUPPORT. The opcode map read column by column: the opcode, the well-formedness, the mode and the operand bytes of
the instruction that each opcode byte stands for, whatever its operand bytes. -/

namespace Sys2Proof

/-! ## Words -/

theorem mkAddr_toNat (hi lo : Byte) : (mkAddr hi lo).toNat = hi.toNat * 256 + lo.toNat := by
  have h : lo.toNat < 2 ^ 8 := lo.isLt
  rw [mkAddr, BitVec.toNat_append, ← Nat.shiftLeft_add_eq_or_of_lt h, Nat.shiftLeft_eq]

theorem loByte_toNat (w : Addr) : (loByte w).toNat = w.toNat % 256 := by
  simp [loByte, BitVec.extractLsb'_toNat]

theorem hiByte_toNat (w : Addr) : (hiByte w).toNat = w.toNat / 256 := by
  have := w.isLt
  simp only [hiByte, BitVec.extractLsb'_toNat, Nat.shiftRight_eq_div_pow]
  omega

@[simp] theorem loByte_mkAddr (hi lo : Byte) : loByte (mkAddr hi lo) = lo := by
  have := lo.isLt
  exact BitVec.eq_of_toNat_eq (by rw [loByte_toNat, mkAddr_toNat]; omega)

@[simp] theorem hiByte_mkAddr (hi lo : Byte) : hiByte (mkAddr hi lo) = hi := by
  have := lo.isLt
  exact BitVec.eq_of_toNat_eq (by rw [hiByte_toNat, mkAddr_toNat]; omega)

@[simp] theorem mkAddr_hiByte_loByte (w : Addr) : mkAddr (hiByte w) (loByte w) = w :=
  BitVec.eq_of_toNat_eq (by rw [mkAddr_toNat, loByte_toNat, hiByte_toNat]; omega)

/-- The map has an opcode for exactly the well-formed instructions (R160, R251 to R464). -/
theorem opcodeOf_isSome (i : Instr) : (opcodeOf i).isSome = i.wf := by
  cases i with
  | illegal op => simp only [opcodeOf, Instr.wf]; cases isIllegalOpcode op <;> rfl
  | lda o | ldx o | ldy o | sta o | stx o | sty o | adc o | sbc o | cmp o | cpx o | cpy o => cases o <;> rfl
  | and o | ora o | eor o | bit o | asl o | lsr o | rol o | ror o | inc o | dec o => cases o <;> rfl
  | _ => rfl

theorem opcodeOf_of_wf {i : Instr} (h : i.wf = true) : ∃ op, opcodeOf i = some op :=
  Option.isSome_iff_exists.mp ((opcodeOf_isSome i).trans h)

/-! ## The opcode map (R160) -/

theorem opcodeMap_opcodes (b : Byte) (w : Addr) :
    (opcodeMap b w).map (fun row => row.map opcodeOf) =
      (List.range 16).map (fun h => (List.range 16).map (fun l => some (BitVec.ofNat 8 (16 * h + l)))) := rfl

theorem opcodeMap_wf (b : Byte) (w : Addr) :
    (opcodeMap b w).map (fun row => row.map Instr.wf) = List.replicate 16 (List.replicate 16 true) := rfl

theorem opcodeMap_modes (b : Byte) (w : Addr) :
    (opcodeMap b w).map (fun row => row.map (fun i => i.operand.mode)) =
      (opcodeMap 0 0).map (fun row => row.map (fun i => i.operand.mode)) := rfl

/-- Is an instruction documented? -/
def documented : Instr → Bool
  | .illegal _ => false
  | _ => true

theorem opcodeMap_documented (b : Byte) (w : Addr) :
    (opcodeMap b w).map (fun row => row.map documented) =
      (opcodeMap 0 0).map (fun row => row.map documented) := rfl

/-- Every row of the map has 16 cells. -/
theorem opcodeMap_lengths (b : Byte) (w : Addr) :
    (opcodeMap b w).map List.length = List.replicate 16 16 := rfl

/-- What a function gives on the instruction of an opcode byte, read from the map with the function applied to it. -/
theorem instrOf_cell {α : Type} (f : Instr → α) (op b1 b2 : Byte) :
    some (f (instrOf op b1 b2)) =
      (((opcodeMap b1 (mkAddr b2 b1)).map (fun row => row.map f))[op.toNat / 16]?).bind (·[op.toNat % 16]?) := by
  have hop : op.toNat / 16 < 16 := by have := op.isLt; omega
  have hlow : op.toNat % 16 < 16 := by omega
  have hlen := opcodeMap_lengths b1 (mkAddr b2 b1)
  have hmap : op.toNat / 16 < (opcodeMap b1 (mkAddr b2 b1)).length := hop
  have hrow : ((opcodeMap b1 (mkAddr b2 b1))[op.toNat / 16]).length = 16 := by
    have := congrArg (·[op.toNat / 16]?) hlen
    simpa only [List.getElem?_map, List.getElem?_replicate, if_pos hop, List.getElem?_eq_getElem hmap, Option.map_some,
      Option.some.injEq] using this
  simp only [instrOf, List.getD_eq_getElem?_getD, List.getElem?_map, List.getElem?_eq_getElem hmap, Option.map_some,
    Option.bind_some, Option.getD_some]
  rw [List.getElem?_eq_getElem (by omega)]
  rfl

/-- The instruction of an opcode byte has that opcode (R160). -/
theorem opcodeOf_instrOf (op b1 b2 : Byte) : opcodeOf (instrOf op b1 b2) = some op := by
  have hop : op.toNat / 16 < 16 := by have := op.isLt; omega
  have hlow : op.toNat % 16 < 16 := by omega
  have h := instrOf_cell opcodeOf op b1 b2
  rw [opcodeMap_opcodes] at h
  simp only [List.getElem?_map, List.getElem?_range hop, Option.map_some, Option.bind_some,
    List.getElem?_range hlow, Option.some.injEq] at h
  rw [h, Nat.div_add_mod, BitVec.ofNat_toNat, BitVec.setWidth_eq]

/-- Every opcode byte stands for a well-formed instruction (R160; 93 U16). -/
theorem wf_instrOf (op b1 b2 : Byte) : (instrOf op b1 b2).wf = true := by
  have hop : op.toNat / 16 < 16 := by have := op.isLt; omega
  have hlow : op.toNat % 16 < 16 := by omega
  have h := instrOf_cell Instr.wf op b1 b2
  rw [opcodeMap_wf] at h
  simpa only [List.getElem?_replicate, if_pos hop, if_pos hlow, Option.bind_some, Option.some.injEq] using h

/-- The mode comes from the opcode byte alone (R151). -/
theorem mode_instrOf (op b1 b2 : Byte) : (instrOf op b1 b2).operand.mode = (instrOf op 0 0).operand.mode := by
  have h := instrOf_cell (fun i => i.operand.mode) op b1 b2
  rw [opcodeMap_modes] at h
  exact Option.some.inj (h.trans (instrOf_cell (fun i => i.operand.mode) op 0 0).symm)

/-- The instruction of an opcode byte is as long as the opcode announces (R151). -/
theorem length_instrOf (op b1 b2 : Byte) : (instrOf op b1 b2).length = 1 + operandCount op := by
  rw [Instr.length, mode_instrOf, operandCount]

/-- The operand of a mode, from the operand byte and the operand word (R152, R153). -/
def operandOf (m : Mode) (b : Byte) (w : Addr) : Operand :=
  match m with
  | .acc => .acc
  | .imp => .imp
  | .imm => .imm b
  | .zp => .zp b
  | .zpx => .zpx b
  | .zpy => .zpy b
  | .izx => .izx b
  | .izy => .izy b
  | .abs => .abs w
  | .abx => .abx w
  | .aby => .aby w
  | .ind => .ind w
  | .rel => .rel b

theorem opcodeMap_operands (b : Byte) (w : Addr) :
    (opcodeMap b w).map (fun row => row.map Instr.operand) =
      (opcodeMap 0 0).map (fun row => row.map (fun i => operandOf i.operand.mode b w)) := rfl

/-- The operand comes from the opcode's mode and the operand bytes (R152, R153). -/
theorem operand_instrOf (op b1 b2 : Byte) :
    (instrOf op b1 b2).operand = operandOf (instrOf op 0 0).operand.mode b1 (mkAddr b2 b1) := by
  have h := instrOf_cell Instr.operand op b1 b2
  rw [opcodeMap_operands] at h
  exact Option.some.inj (h.trans (instrOf_cell (fun i => operandOf i.operand.mode b1 (mkAddr b2 b1)) op 0 0).symm)

/-- The operand bytes of a fetched instruction are the bytes that were fetched for it (R152). -/
theorem bytes_operandOf (m : Mode) (b1 b2 : Byte) :
    (operandOf m b1 (mkAddr b2 b1)).bytes = [b1, b2].take m.operandBytes := by
  cases m <;> simp [operandOf, Operand.bytes, Mode.operandBytes]

/-- An illegal opcode byte stands for itself, whatever follows it (R161). -/
theorem instrOf_illegal {op : Byte} (h : isIllegalOpcode op = true) (b1 b2 : Byte) : instrOf op b1 b2 = .illegal op := by
  have hmap : ∀ op : Byte, isIllegalOpcode op = true → documented (instrOf op 0 0) = false := by decide +kernel
  have hdoc : documented (instrOf op b1 b2) = false := by
    have hcell := instrOf_cell documented op b1 b2
    rw [opcodeMap_documented] at hcell
    exact (Option.some.inj (hcell.trans (instrOf_cell documented op 0 0).symm)).trans (hmap op h)
  have hop := opcodeOf_instrOf op b1 b2
  revert hdoc hop
  cases instrOf op b1 b2 with
  | illegal k =>
    intro _ hop
    simp only [opcodeOf] at hop
    split at hop
    · simpa using hop
    · cases hop
  | _ => intro hdoc; cases hdoc

/-- A documented opcode byte stands for a documented instruction (R160). -/
theorem documented_instrOf {op : Byte} (h : isIllegalOpcode op = false) (b1 b2 : Byte) :
    documented (instrOf op b1 b2) = true := by
  have hop := opcodeOf_instrOf op b1 b2
  revert hop
  cases instrOf op b1 b2 with
  | illegal k =>
    intro hop
    simp only [opcodeOf] at hop
    split at hop
    · simp_all
    · cases hop
  | _ => intro _; rfl

end Sys2Proof
end

