-- ==== Sys2Proof/Laws/Memory.lean ====
section
/-! SUPPORT. The laws of memory: a read after a write, and the canonical form that every write keeps. -/

namespace Sys2Proof.Machine

/-- An address that has been erased reads as unlisted, and no other address changes. -/
theorem Memory.read_erase (m : List Host.Cell) (a b : Nat) :
    Memory.read (Memory.erase m a) b = if b = a then Memory.unlisted else Memory.read m b := by
  induction m with
  | nil => simp [Memory.erase, Memory.read]
  | cons c rest ih =>
    obtain ⟨k, w⟩ := c
    simp only [Memory.erase] at ih
    by_cases hk : k = a
    · subst hk
      by_cases hb : b = k
      · subst hb; simpa [Memory.erase] using ih
      · simp [Memory.erase, Memory.read, ih, hb, Ne.symm hb]
    · by_cases hb : k = b
      · subst hb; simp [Memory.erase, Memory.read, hk]
      · simp [Memory.erase, Memory.read, hk, hb, ih]

/-- An inserted byte is read at its address, and no other address changes. -/
theorem Memory.read_insert (m : List Host.Cell) (a b : Nat) (v : Byte) :
    Memory.read (Memory.insert m a v) b = if b = a then v else Memory.read m b := by
  induction m with
  | nil => simp [Memory.insert, Memory.read, eq_comm]
  | cons c rest ih =>
    obtain ⟨k, w⟩ := c
    by_cases hlt : a < k
    · simp [Memory.insert, hlt, Memory.read, eq_comm]
    · by_cases hk : a = k
      · subst hk
        by_cases hb : a = b
        · simp [Memory.insert, Memory.read, hb]
        · simp [Memory.insert, Memory.read, hb, Ne.symm hb]
      · by_cases hb : k = b
        · subst hb; simp [Memory.insert, Memory.read, hlt, hk, Ne.symm hk]
        · simp [Memory.insert, Memory.read, hlt, hk, hb, ih]

/-- A write is read at its address, and no other address changes, whatever the list holds. -/
theorem Memory.read_write (m : List Host.Cell) (a b : Nat) (v : Byte) :
    Memory.read (Memory.write m a v) b = if b = a then v else Memory.read m b := by
  unfold Memory.write
  split
  · simp_all [Memory.read_erase]
  · exact Memory.read_insert m a b v

/-- A canonical list starting higher is canonical from below too. -/
theorem Memory.wfFrom_mono {m : List Host.Cell} {low high : Nat} (hle : low ≤ high)
    (h : Memory.wfFrom high m = true) : Memory.wfFrom low m = true := by
  cases m with
  | nil => rfl
  | cons c rest => simp_all [Memory.wfFrom]; omega

/-- Erasing keeps the canonical form. -/
theorem Memory.wfFrom_erase {m : List Host.Cell} {low : Nat} (a : Nat) (h : Memory.wfFrom low m = true) :
    Memory.wfFrom low (Memory.erase m a) = true := by
  induction m generalizing low with
  | nil => rfl
  | cons c rest ih =>
    obtain ⟨k, w⟩ := c
    simp only [Memory.wfFrom, Bool.and_eq_true, decide_eq_true_eq] at h
    have hrest := ih h.2
    by_cases hk : k = a
    · subst hk
      simpa [Memory.erase] using Memory.wfFrom_mono (by omega : low ≤ k + 1) hrest
    · simp only [Memory.erase] at hrest
      simp [Memory.erase, hk, Memory.wfFrom, h, hrest]

/-- Inserting a byte that an unlisted address does not read keeps the canonical form. -/
theorem Memory.wfFrom_insert {m : List Host.Cell} {low a : Nat} {v : Byte} (hlow : low ≤ a) (ha : a < 65536)
    (hv : v ≠ Memory.unlisted) (h : Memory.wfFrom low m = true) : Memory.wfFrom low (Memory.insert m a v) = true := by
  induction m generalizing low with
  | nil => simp [Memory.insert, Memory.wfFrom, hlow, ha, hv]
  | cons c rest ih =>
    obtain ⟨k, w⟩ := c
    simp only [Memory.wfFrom, Bool.and_eq_true, decide_eq_true_eq] at h
    obtain ⟨⟨⟨h1, h2⟩, h3⟩, h4⟩ := h
    by_cases hlt : a < k
    · simp [Memory.insert, hlt, Memory.wfFrom, hlow, ha, hv, h2, h3, h4, Nat.succ_le_of_lt hlt]
    · by_cases hk : a = k
      · subst hk; simp [Memory.insert, Memory.wfFrom, hlow, ha, hv, h4]
      · simp [Memory.insert, hlt, hk, Memory.wfFrom, h1, h2, h3, ih (by omega : k + 1 ≤ a) h4]

/-- Every write within the address space keeps the canonical form. -/
theorem Memory.wf_write {m : List Host.Cell} {a : Nat} {v : Byte} (ha : a < 65536) (h : Memory.wf m = true) :
    Memory.wf (Memory.write m a v) = true := by
  unfold Memory.write
  split
  · exact Memory.wfFrom_erase a h
  · exact Memory.wfFrom_insert (Nat.zero_le a) ha ‹_› h

/-- Memory with nothing listed is canonical, and so is the memory of State.reset, which lists nothing. -/
theorem Memory.wf_nil : Memory.wf [] = true := rfl

end Sys2Proof.Machine
end

