-- ==== Sys2Proof/Laws/State.lean ====
section
/-! SUPPORT. What each update of State does to each field: one lemma per field per update, true by definition. -/

namespace Sys2Proof.Machine

/-! ## setA -/

@[simp] theorem State.setA_a (s : State) (v : Byte) : (s.setA v).a = v := rfl
@[simp] theorem State.setA_x (s : State) (v : Byte) : (s.setA v).x = s.x := rfl
@[simp] theorem State.setA_y (s : State) (v : Byte) : (s.setA v).y = s.y := rfl
@[simp] theorem State.setA_sp (s : State) (v : Byte) : (s.setA v).sp = s.sp := rfl
@[simp] theorem State.setA_pc (s : State) (v : Byte) : (s.setA v).pc = s.pc := rfl
@[simp] theorem State.setA_p (s : State) (v : Byte) : (s.setA v).p = s.p := rfl
@[simp] theorem State.setA_scratch (s : State) (v : Byte) : (s.setA v).scratch = s.scratch := rfl
@[simp] theorem State.setA_cycles (s : State) (v : Byte) : (s.setA v).cycles = s.cycles := rfl
@[simp] theorem State.setA_instructions (s : State) (v : Byte) : (s.setA v).instructions = s.instructions := rfl
@[simp] theorem State.setA_nmiPending (s : State) (v : Byte) : (s.setA v).nmiPending = s.nmiPending := rfl
@[simp] theorem State.setA_irqPending (s : State) (v : Byte) : (s.setA v).irqPending = s.irqPending := rfl
@[simp] theorem State.setA_hook (s : State) (v : Byte) : (s.setA v).hook = s.hook := rfl
@[simp] theorem State.setA_mem (s : State) (v : Byte) : (s.setA v).mem = s.mem := rfl
@[simp] theorem State.setA_busLog (s : State) (v : Byte) : (s.setA v).busLog = s.busLog := rfl
@[simp] theorem State.setA_seq (s : State) (v : Byte) : (s.setA v).seq = s.seq := rfl
@[simp] theorem State.setA_lastStep (s : State) (v : Byte) : (s.setA v).lastStep = s.lastStep := rfl
@[simp] theorem State.setA_cfg (s : State) (v : Byte) : (s.setA v).cfg = s.cfg := rfl

@[simp] theorem State.setA_setA (s : State) (v w : Byte) : (s.setA v).setA w = s.setA w := rfl
@[simp] theorem State.setA_self (s : State) : s.setA s.a = s := rfl

/-! ## setX -/

@[simp] theorem State.setX_a (s : State) (v : Byte) : (s.setX v).a = s.a := rfl
@[simp] theorem State.setX_x (s : State) (v : Byte) : (s.setX v).x = v := rfl
@[simp] theorem State.setX_y (s : State) (v : Byte) : (s.setX v).y = s.y := rfl
@[simp] theorem State.setX_sp (s : State) (v : Byte) : (s.setX v).sp = s.sp := rfl
@[simp] theorem State.setX_pc (s : State) (v : Byte) : (s.setX v).pc = s.pc := rfl
@[simp] theorem State.setX_p (s : State) (v : Byte) : (s.setX v).p = s.p := rfl
@[simp] theorem State.setX_scratch (s : State) (v : Byte) : (s.setX v).scratch = s.scratch := rfl
@[simp] theorem State.setX_cycles (s : State) (v : Byte) : (s.setX v).cycles = s.cycles := rfl
@[simp] theorem State.setX_instructions (s : State) (v : Byte) : (s.setX v).instructions = s.instructions := rfl
@[simp] theorem State.setX_nmiPending (s : State) (v : Byte) : (s.setX v).nmiPending = s.nmiPending := rfl
@[simp] theorem State.setX_irqPending (s : State) (v : Byte) : (s.setX v).irqPending = s.irqPending := rfl
@[simp] theorem State.setX_hook (s : State) (v : Byte) : (s.setX v).hook = s.hook := rfl
@[simp] theorem State.setX_mem (s : State) (v : Byte) : (s.setX v).mem = s.mem := rfl
@[simp] theorem State.setX_busLog (s : State) (v : Byte) : (s.setX v).busLog = s.busLog := rfl
@[simp] theorem State.setX_seq (s : State) (v : Byte) : (s.setX v).seq = s.seq := rfl
@[simp] theorem State.setX_lastStep (s : State) (v : Byte) : (s.setX v).lastStep = s.lastStep := rfl
@[simp] theorem State.setX_cfg (s : State) (v : Byte) : (s.setX v).cfg = s.cfg := rfl

@[simp] theorem State.setX_setX (s : State) (v w : Byte) : (s.setX v).setX w = s.setX w := rfl
@[simp] theorem State.setX_self (s : State) : s.setX s.x = s := rfl

/-! ## setY -/

@[simp] theorem State.setY_a (s : State) (v : Byte) : (s.setY v).a = s.a := rfl
@[simp] theorem State.setY_x (s : State) (v : Byte) : (s.setY v).x = s.x := rfl
@[simp] theorem State.setY_y (s : State) (v : Byte) : (s.setY v).y = v := rfl
@[simp] theorem State.setY_sp (s : State) (v : Byte) : (s.setY v).sp = s.sp := rfl
@[simp] theorem State.setY_pc (s : State) (v : Byte) : (s.setY v).pc = s.pc := rfl
@[simp] theorem State.setY_p (s : State) (v : Byte) : (s.setY v).p = s.p := rfl
@[simp] theorem State.setY_scratch (s : State) (v : Byte) : (s.setY v).scratch = s.scratch := rfl
@[simp] theorem State.setY_cycles (s : State) (v : Byte) : (s.setY v).cycles = s.cycles := rfl
@[simp] theorem State.setY_instructions (s : State) (v : Byte) : (s.setY v).instructions = s.instructions := rfl
@[simp] theorem State.setY_nmiPending (s : State) (v : Byte) : (s.setY v).nmiPending = s.nmiPending := rfl
@[simp] theorem State.setY_irqPending (s : State) (v : Byte) : (s.setY v).irqPending = s.irqPending := rfl
@[simp] theorem State.setY_hook (s : State) (v : Byte) : (s.setY v).hook = s.hook := rfl
@[simp] theorem State.setY_mem (s : State) (v : Byte) : (s.setY v).mem = s.mem := rfl
@[simp] theorem State.setY_busLog (s : State) (v : Byte) : (s.setY v).busLog = s.busLog := rfl
@[simp] theorem State.setY_seq (s : State) (v : Byte) : (s.setY v).seq = s.seq := rfl
@[simp] theorem State.setY_lastStep (s : State) (v : Byte) : (s.setY v).lastStep = s.lastStep := rfl
@[simp] theorem State.setY_cfg (s : State) (v : Byte) : (s.setY v).cfg = s.cfg := rfl

@[simp] theorem State.setY_setY (s : State) (v w : Byte) : (s.setY v).setY w = s.setY w := rfl
@[simp] theorem State.setY_self (s : State) : s.setY s.y = s := rfl

/-! ## setSp -/

@[simp] theorem State.setSp_a (s : State) (v : Byte) : (s.setSp v).a = s.a := rfl
@[simp] theorem State.setSp_x (s : State) (v : Byte) : (s.setSp v).x = s.x := rfl
@[simp] theorem State.setSp_y (s : State) (v : Byte) : (s.setSp v).y = s.y := rfl
@[simp] theorem State.setSp_sp (s : State) (v : Byte) : (s.setSp v).sp = v := rfl
@[simp] theorem State.setSp_pc (s : State) (v : Byte) : (s.setSp v).pc = s.pc := rfl
@[simp] theorem State.setSp_p (s : State) (v : Byte) : (s.setSp v).p = s.p := rfl
@[simp] theorem State.setSp_scratch (s : State) (v : Byte) : (s.setSp v).scratch = s.scratch := rfl
@[simp] theorem State.setSp_cycles (s : State) (v : Byte) : (s.setSp v).cycles = s.cycles := rfl
@[simp] theorem State.setSp_instructions (s : State) (v : Byte) : (s.setSp v).instructions = s.instructions := rfl
@[simp] theorem State.setSp_nmiPending (s : State) (v : Byte) : (s.setSp v).nmiPending = s.nmiPending := rfl
@[simp] theorem State.setSp_irqPending (s : State) (v : Byte) : (s.setSp v).irqPending = s.irqPending := rfl
@[simp] theorem State.setSp_hook (s : State) (v : Byte) : (s.setSp v).hook = s.hook := rfl
@[simp] theorem State.setSp_mem (s : State) (v : Byte) : (s.setSp v).mem = s.mem := rfl
@[simp] theorem State.setSp_busLog (s : State) (v : Byte) : (s.setSp v).busLog = s.busLog := rfl
@[simp] theorem State.setSp_seq (s : State) (v : Byte) : (s.setSp v).seq = s.seq := rfl
@[simp] theorem State.setSp_lastStep (s : State) (v : Byte) : (s.setSp v).lastStep = s.lastStep := rfl
@[simp] theorem State.setSp_cfg (s : State) (v : Byte) : (s.setSp v).cfg = s.cfg := rfl

@[simp] theorem State.setSp_setSp (s : State) (v w : Byte) : (s.setSp v).setSp w = s.setSp w := rfl
@[simp] theorem State.setSp_self (s : State) : s.setSp s.sp = s := rfl

/-! ## setPc -/

@[simp] theorem State.setPc_a (s : State) (v : Addr) : (s.setPc v).a = s.a := rfl
@[simp] theorem State.setPc_x (s : State) (v : Addr) : (s.setPc v).x = s.x := rfl
@[simp] theorem State.setPc_y (s : State) (v : Addr) : (s.setPc v).y = s.y := rfl
@[simp] theorem State.setPc_sp (s : State) (v : Addr) : (s.setPc v).sp = s.sp := rfl
@[simp] theorem State.setPc_pc (s : State) (v : Addr) : (s.setPc v).pc = v := rfl
@[simp] theorem State.setPc_p (s : State) (v : Addr) : (s.setPc v).p = s.p := rfl
@[simp] theorem State.setPc_scratch (s : State) (v : Addr) : (s.setPc v).scratch = s.scratch := rfl
@[simp] theorem State.setPc_cycles (s : State) (v : Addr) : (s.setPc v).cycles = s.cycles := rfl
@[simp] theorem State.setPc_instructions (s : State) (v : Addr) : (s.setPc v).instructions = s.instructions := rfl
@[simp] theorem State.setPc_nmiPending (s : State) (v : Addr) : (s.setPc v).nmiPending = s.nmiPending := rfl
@[simp] theorem State.setPc_irqPending (s : State) (v : Addr) : (s.setPc v).irqPending = s.irqPending := rfl
@[simp] theorem State.setPc_hook (s : State) (v : Addr) : (s.setPc v).hook = s.hook := rfl
@[simp] theorem State.setPc_mem (s : State) (v : Addr) : (s.setPc v).mem = s.mem := rfl
@[simp] theorem State.setPc_busLog (s : State) (v : Addr) : (s.setPc v).busLog = s.busLog := rfl
@[simp] theorem State.setPc_seq (s : State) (v : Addr) : (s.setPc v).seq = s.seq := rfl
@[simp] theorem State.setPc_lastStep (s : State) (v : Addr) : (s.setPc v).lastStep = s.lastStep := rfl
@[simp] theorem State.setPc_cfg (s : State) (v : Addr) : (s.setPc v).cfg = s.cfg := rfl

@[simp] theorem State.setPc_setPc (s : State) (v w : Addr) : (s.setPc v).setPc w = s.setPc w := rfl
@[simp] theorem State.setPc_self (s : State) : s.setPc s.pc = s := rfl

/-! ## setP -/

@[simp] theorem State.setP_a (s : State) (v : Flags) : (s.setP v).a = s.a := rfl
@[simp] theorem State.setP_x (s : State) (v : Flags) : (s.setP v).x = s.x := rfl
@[simp] theorem State.setP_y (s : State) (v : Flags) : (s.setP v).y = s.y := rfl
@[simp] theorem State.setP_sp (s : State) (v : Flags) : (s.setP v).sp = s.sp := rfl
@[simp] theorem State.setP_pc (s : State) (v : Flags) : (s.setP v).pc = s.pc := rfl
@[simp] theorem State.setP_p (s : State) (v : Flags) : (s.setP v).p = v := rfl
@[simp] theorem State.setP_scratch (s : State) (v : Flags) : (s.setP v).scratch = s.scratch := rfl
@[simp] theorem State.setP_cycles (s : State) (v : Flags) : (s.setP v).cycles = s.cycles := rfl
@[simp] theorem State.setP_instructions (s : State) (v : Flags) : (s.setP v).instructions = s.instructions := rfl
@[simp] theorem State.setP_nmiPending (s : State) (v : Flags) : (s.setP v).nmiPending = s.nmiPending := rfl
@[simp] theorem State.setP_irqPending (s : State) (v : Flags) : (s.setP v).irqPending = s.irqPending := rfl
@[simp] theorem State.setP_hook (s : State) (v : Flags) : (s.setP v).hook = s.hook := rfl
@[simp] theorem State.setP_mem (s : State) (v : Flags) : (s.setP v).mem = s.mem := rfl
@[simp] theorem State.setP_busLog (s : State) (v : Flags) : (s.setP v).busLog = s.busLog := rfl
@[simp] theorem State.setP_seq (s : State) (v : Flags) : (s.setP v).seq = s.seq := rfl
@[simp] theorem State.setP_lastStep (s : State) (v : Flags) : (s.setP v).lastStep = s.lastStep := rfl
@[simp] theorem State.setP_cfg (s : State) (v : Flags) : (s.setP v).cfg = s.cfg := rfl

@[simp] theorem State.setP_setP (s : State) (v w : Flags) : (s.setP v).setP w = s.setP w := rfl
@[simp] theorem State.setP_self (s : State) : s.setP s.p = s := rfl

/-! ## setScratch -/

@[simp] theorem State.setScratch_a (s : State) (v : Scratch) : (s.setScratch v).a = s.a := rfl
@[simp] theorem State.setScratch_x (s : State) (v : Scratch) : (s.setScratch v).x = s.x := rfl
@[simp] theorem State.setScratch_y (s : State) (v : Scratch) : (s.setScratch v).y = s.y := rfl
@[simp] theorem State.setScratch_sp (s : State) (v : Scratch) : (s.setScratch v).sp = s.sp := rfl
@[simp] theorem State.setScratch_pc (s : State) (v : Scratch) : (s.setScratch v).pc = s.pc := rfl
@[simp] theorem State.setScratch_p (s : State) (v : Scratch) : (s.setScratch v).p = s.p := rfl
@[simp] theorem State.setScratch_scratch (s : State) (v : Scratch) : (s.setScratch v).scratch = v := rfl
@[simp] theorem State.setScratch_cycles (s : State) (v : Scratch) : (s.setScratch v).cycles = s.cycles := rfl
@[simp] theorem State.setScratch_instructions (s : State) (v : Scratch) : (s.setScratch v).instructions = s.instructions := rfl
@[simp] theorem State.setScratch_nmiPending (s : State) (v : Scratch) : (s.setScratch v).nmiPending = s.nmiPending := rfl
@[simp] theorem State.setScratch_irqPending (s : State) (v : Scratch) : (s.setScratch v).irqPending = s.irqPending := rfl
@[simp] theorem State.setScratch_hook (s : State) (v : Scratch) : (s.setScratch v).hook = s.hook := rfl
@[simp] theorem State.setScratch_mem (s : State) (v : Scratch) : (s.setScratch v).mem = s.mem := rfl
@[simp] theorem State.setScratch_busLog (s : State) (v : Scratch) : (s.setScratch v).busLog = s.busLog := rfl
@[simp] theorem State.setScratch_seq (s : State) (v : Scratch) : (s.setScratch v).seq = s.seq := rfl
@[simp] theorem State.setScratch_lastStep (s : State) (v : Scratch) : (s.setScratch v).lastStep = s.lastStep := rfl
@[simp] theorem State.setScratch_cfg (s : State) (v : Scratch) : (s.setScratch v).cfg = s.cfg := rfl

@[simp] theorem State.setScratch_setScratch (s : State) (v w : Scratch) : (s.setScratch v).setScratch w = s.setScratch w := rfl
@[simp] theorem State.setScratch_self (s : State) : s.setScratch s.scratch = s := rfl

/-! ## setCycles -/

@[simp] theorem State.setCycles_a (s : State) (v : Nat) : (s.setCycles v).a = s.a := rfl
@[simp] theorem State.setCycles_x (s : State) (v : Nat) : (s.setCycles v).x = s.x := rfl
@[simp] theorem State.setCycles_y (s : State) (v : Nat) : (s.setCycles v).y = s.y := rfl
@[simp] theorem State.setCycles_sp (s : State) (v : Nat) : (s.setCycles v).sp = s.sp := rfl
@[simp] theorem State.setCycles_pc (s : State) (v : Nat) : (s.setCycles v).pc = s.pc := rfl
@[simp] theorem State.setCycles_p (s : State) (v : Nat) : (s.setCycles v).p = s.p := rfl
@[simp] theorem State.setCycles_scratch (s : State) (v : Nat) : (s.setCycles v).scratch = s.scratch := rfl
@[simp] theorem State.setCycles_cycles (s : State) (v : Nat) : (s.setCycles v).cycles = v := rfl
@[simp] theorem State.setCycles_instructions (s : State) (v : Nat) : (s.setCycles v).instructions = s.instructions := rfl
@[simp] theorem State.setCycles_nmiPending (s : State) (v : Nat) : (s.setCycles v).nmiPending = s.nmiPending := rfl
@[simp] theorem State.setCycles_irqPending (s : State) (v : Nat) : (s.setCycles v).irqPending = s.irqPending := rfl
@[simp] theorem State.setCycles_hook (s : State) (v : Nat) : (s.setCycles v).hook = s.hook := rfl
@[simp] theorem State.setCycles_mem (s : State) (v : Nat) : (s.setCycles v).mem = s.mem := rfl
@[simp] theorem State.setCycles_busLog (s : State) (v : Nat) : (s.setCycles v).busLog = s.busLog := rfl
@[simp] theorem State.setCycles_seq (s : State) (v : Nat) : (s.setCycles v).seq = s.seq := rfl
@[simp] theorem State.setCycles_lastStep (s : State) (v : Nat) : (s.setCycles v).lastStep = s.lastStep := rfl
@[simp] theorem State.setCycles_cfg (s : State) (v : Nat) : (s.setCycles v).cfg = s.cfg := rfl

@[simp] theorem State.setCycles_setCycles (s : State) (v w : Nat) : (s.setCycles v).setCycles w = s.setCycles w := rfl
@[simp] theorem State.setCycles_self (s : State) : s.setCycles s.cycles = s := rfl

/-! ## setInstructions -/

@[simp] theorem State.setInstructions_a (s : State) (v : Nat) : (s.setInstructions v).a = s.a := rfl
@[simp] theorem State.setInstructions_x (s : State) (v : Nat) : (s.setInstructions v).x = s.x := rfl
@[simp] theorem State.setInstructions_y (s : State) (v : Nat) : (s.setInstructions v).y = s.y := rfl
@[simp] theorem State.setInstructions_sp (s : State) (v : Nat) : (s.setInstructions v).sp = s.sp := rfl
@[simp] theorem State.setInstructions_pc (s : State) (v : Nat) : (s.setInstructions v).pc = s.pc := rfl
@[simp] theorem State.setInstructions_p (s : State) (v : Nat) : (s.setInstructions v).p = s.p := rfl
@[simp] theorem State.setInstructions_scratch (s : State) (v : Nat) : (s.setInstructions v).scratch = s.scratch := rfl
@[simp] theorem State.setInstructions_cycles (s : State) (v : Nat) : (s.setInstructions v).cycles = s.cycles := rfl
@[simp] theorem State.setInstructions_instructions (s : State) (v : Nat) : (s.setInstructions v).instructions = v := rfl
@[simp] theorem State.setInstructions_nmiPending (s : State) (v : Nat) : (s.setInstructions v).nmiPending = s.nmiPending := rfl
@[simp] theorem State.setInstructions_irqPending (s : State) (v : Nat) : (s.setInstructions v).irqPending = s.irqPending := rfl
@[simp] theorem State.setInstructions_hook (s : State) (v : Nat) : (s.setInstructions v).hook = s.hook := rfl
@[simp] theorem State.setInstructions_mem (s : State) (v : Nat) : (s.setInstructions v).mem = s.mem := rfl
@[simp] theorem State.setInstructions_busLog (s : State) (v : Nat) : (s.setInstructions v).busLog = s.busLog := rfl
@[simp] theorem State.setInstructions_seq (s : State) (v : Nat) : (s.setInstructions v).seq = s.seq := rfl
@[simp] theorem State.setInstructions_lastStep (s : State) (v : Nat) : (s.setInstructions v).lastStep = s.lastStep := rfl
@[simp] theorem State.setInstructions_cfg (s : State) (v : Nat) : (s.setInstructions v).cfg = s.cfg := rfl

@[simp] theorem State.setInstructions_setInstructions (s : State) (v w : Nat) : (s.setInstructions v).setInstructions w = s.setInstructions w := rfl
@[simp] theorem State.setInstructions_self (s : State) : s.setInstructions s.instructions = s := rfl

/-! ## setNmi -/

@[simp] theorem State.setNmi_a (s : State) (v : Bool) : (s.setNmi v).a = s.a := rfl
@[simp] theorem State.setNmi_x (s : State) (v : Bool) : (s.setNmi v).x = s.x := rfl
@[simp] theorem State.setNmi_y (s : State) (v : Bool) : (s.setNmi v).y = s.y := rfl
@[simp] theorem State.setNmi_sp (s : State) (v : Bool) : (s.setNmi v).sp = s.sp := rfl
@[simp] theorem State.setNmi_pc (s : State) (v : Bool) : (s.setNmi v).pc = s.pc := rfl
@[simp] theorem State.setNmi_p (s : State) (v : Bool) : (s.setNmi v).p = s.p := rfl
@[simp] theorem State.setNmi_scratch (s : State) (v : Bool) : (s.setNmi v).scratch = s.scratch := rfl
@[simp] theorem State.setNmi_cycles (s : State) (v : Bool) : (s.setNmi v).cycles = s.cycles := rfl
@[simp] theorem State.setNmi_instructions (s : State) (v : Bool) : (s.setNmi v).instructions = s.instructions := rfl
@[simp] theorem State.setNmi_nmiPending (s : State) (v : Bool) : (s.setNmi v).nmiPending = v := rfl
@[simp] theorem State.setNmi_irqPending (s : State) (v : Bool) : (s.setNmi v).irqPending = s.irqPending := rfl
@[simp] theorem State.setNmi_hook (s : State) (v : Bool) : (s.setNmi v).hook = s.hook := rfl
@[simp] theorem State.setNmi_mem (s : State) (v : Bool) : (s.setNmi v).mem = s.mem := rfl
@[simp] theorem State.setNmi_busLog (s : State) (v : Bool) : (s.setNmi v).busLog = s.busLog := rfl
@[simp] theorem State.setNmi_seq (s : State) (v : Bool) : (s.setNmi v).seq = s.seq := rfl
@[simp] theorem State.setNmi_lastStep (s : State) (v : Bool) : (s.setNmi v).lastStep = s.lastStep := rfl
@[simp] theorem State.setNmi_cfg (s : State) (v : Bool) : (s.setNmi v).cfg = s.cfg := rfl

@[simp] theorem State.setNmi_setNmi (s : State) (v w : Bool) : (s.setNmi v).setNmi w = s.setNmi w := rfl
@[simp] theorem State.setNmi_self (s : State) : s.setNmi s.nmiPending = s := rfl

/-! ## setIrq -/

@[simp] theorem State.setIrq_a (s : State) (v : Bool) : (s.setIrq v).a = s.a := rfl
@[simp] theorem State.setIrq_x (s : State) (v : Bool) : (s.setIrq v).x = s.x := rfl
@[simp] theorem State.setIrq_y (s : State) (v : Bool) : (s.setIrq v).y = s.y := rfl
@[simp] theorem State.setIrq_sp (s : State) (v : Bool) : (s.setIrq v).sp = s.sp := rfl
@[simp] theorem State.setIrq_pc (s : State) (v : Bool) : (s.setIrq v).pc = s.pc := rfl
@[simp] theorem State.setIrq_p (s : State) (v : Bool) : (s.setIrq v).p = s.p := rfl
@[simp] theorem State.setIrq_scratch (s : State) (v : Bool) : (s.setIrq v).scratch = s.scratch := rfl
@[simp] theorem State.setIrq_cycles (s : State) (v : Bool) : (s.setIrq v).cycles = s.cycles := rfl
@[simp] theorem State.setIrq_instructions (s : State) (v : Bool) : (s.setIrq v).instructions = s.instructions := rfl
@[simp] theorem State.setIrq_nmiPending (s : State) (v : Bool) : (s.setIrq v).nmiPending = s.nmiPending := rfl
@[simp] theorem State.setIrq_irqPending (s : State) (v : Bool) : (s.setIrq v).irqPending = v := rfl
@[simp] theorem State.setIrq_hook (s : State) (v : Bool) : (s.setIrq v).hook = s.hook := rfl
@[simp] theorem State.setIrq_mem (s : State) (v : Bool) : (s.setIrq v).mem = s.mem := rfl
@[simp] theorem State.setIrq_busLog (s : State) (v : Bool) : (s.setIrq v).busLog = s.busLog := rfl
@[simp] theorem State.setIrq_seq (s : State) (v : Bool) : (s.setIrq v).seq = s.seq := rfl
@[simp] theorem State.setIrq_lastStep (s : State) (v : Bool) : (s.setIrq v).lastStep = s.lastStep := rfl
@[simp] theorem State.setIrq_cfg (s : State) (v : Bool) : (s.setIrq v).cfg = s.cfg := rfl

@[simp] theorem State.setIrq_setIrq (s : State) (v w : Bool) : (s.setIrq v).setIrq w = s.setIrq w := rfl
@[simp] theorem State.setIrq_self (s : State) : s.setIrq s.irqPending = s := rfl

/-! ## setHook -/

@[simp] theorem State.setHook_a (s : State) (v : Option Callback) : (s.setHook v).a = s.a := rfl
@[simp] theorem State.setHook_x (s : State) (v : Option Callback) : (s.setHook v).x = s.x := rfl
@[simp] theorem State.setHook_y (s : State) (v : Option Callback) : (s.setHook v).y = s.y := rfl
@[simp] theorem State.setHook_sp (s : State) (v : Option Callback) : (s.setHook v).sp = s.sp := rfl
@[simp] theorem State.setHook_pc (s : State) (v : Option Callback) : (s.setHook v).pc = s.pc := rfl
@[simp] theorem State.setHook_p (s : State) (v : Option Callback) : (s.setHook v).p = s.p := rfl
@[simp] theorem State.setHook_scratch (s : State) (v : Option Callback) : (s.setHook v).scratch = s.scratch := rfl
@[simp] theorem State.setHook_cycles (s : State) (v : Option Callback) : (s.setHook v).cycles = s.cycles := rfl
@[simp] theorem State.setHook_instructions (s : State) (v : Option Callback) : (s.setHook v).instructions = s.instructions := rfl
@[simp] theorem State.setHook_nmiPending (s : State) (v : Option Callback) : (s.setHook v).nmiPending = s.nmiPending := rfl
@[simp] theorem State.setHook_irqPending (s : State) (v : Option Callback) : (s.setHook v).irqPending = s.irqPending := rfl
@[simp] theorem State.setHook_hook (s : State) (v : Option Callback) : (s.setHook v).hook = v := rfl
@[simp] theorem State.setHook_mem (s : State) (v : Option Callback) : (s.setHook v).mem = s.mem := rfl
@[simp] theorem State.setHook_busLog (s : State) (v : Option Callback) : (s.setHook v).busLog = s.busLog := rfl
@[simp] theorem State.setHook_seq (s : State) (v : Option Callback) : (s.setHook v).seq = s.seq := rfl
@[simp] theorem State.setHook_lastStep (s : State) (v : Option Callback) : (s.setHook v).lastStep = s.lastStep := rfl
@[simp] theorem State.setHook_cfg (s : State) (v : Option Callback) : (s.setHook v).cfg = s.cfg := rfl

@[simp] theorem State.setHook_setHook (s : State) (v w : Option Callback) : (s.setHook v).setHook w = s.setHook w := rfl
@[simp] theorem State.setHook_self (s : State) : s.setHook s.hook = s := rfl

/-! ## setMem -/

@[simp] theorem State.setMem_a (s : State) (v : List Host.Cell) : (s.setMem v).a = s.a := rfl
@[simp] theorem State.setMem_x (s : State) (v : List Host.Cell) : (s.setMem v).x = s.x := rfl
@[simp] theorem State.setMem_y (s : State) (v : List Host.Cell) : (s.setMem v).y = s.y := rfl
@[simp] theorem State.setMem_sp (s : State) (v : List Host.Cell) : (s.setMem v).sp = s.sp := rfl
@[simp] theorem State.setMem_pc (s : State) (v : List Host.Cell) : (s.setMem v).pc = s.pc := rfl
@[simp] theorem State.setMem_p (s : State) (v : List Host.Cell) : (s.setMem v).p = s.p := rfl
@[simp] theorem State.setMem_scratch (s : State) (v : List Host.Cell) : (s.setMem v).scratch = s.scratch := rfl
@[simp] theorem State.setMem_cycles (s : State) (v : List Host.Cell) : (s.setMem v).cycles = s.cycles := rfl
@[simp] theorem State.setMem_instructions (s : State) (v : List Host.Cell) : (s.setMem v).instructions = s.instructions := rfl
@[simp] theorem State.setMem_nmiPending (s : State) (v : List Host.Cell) : (s.setMem v).nmiPending = s.nmiPending := rfl
@[simp] theorem State.setMem_irqPending (s : State) (v : List Host.Cell) : (s.setMem v).irqPending = s.irqPending := rfl
@[simp] theorem State.setMem_hook (s : State) (v : List Host.Cell) : (s.setMem v).hook = s.hook := rfl
@[simp] theorem State.setMem_mem (s : State) (v : List Host.Cell) : (s.setMem v).mem = v := rfl
@[simp] theorem State.setMem_busLog (s : State) (v : List Host.Cell) : (s.setMem v).busLog = s.busLog := rfl
@[simp] theorem State.setMem_seq (s : State) (v : List Host.Cell) : (s.setMem v).seq = s.seq := rfl
@[simp] theorem State.setMem_lastStep (s : State) (v : List Host.Cell) : (s.setMem v).lastStep = s.lastStep := rfl
@[simp] theorem State.setMem_cfg (s : State) (v : List Host.Cell) : (s.setMem v).cfg = s.cfg := rfl

@[simp] theorem State.setMem_setMem (s : State) (v w : List Host.Cell) : (s.setMem v).setMem w = s.setMem w := rfl
@[simp] theorem State.setMem_self (s : State) : s.setMem s.mem = s := rfl

/-! ## setBusLog -/

@[simp] theorem State.setBusLog_a (s : State) (v : List BusEvent) : (s.setBusLog v).a = s.a := rfl
@[simp] theorem State.setBusLog_x (s : State) (v : List BusEvent) : (s.setBusLog v).x = s.x := rfl
@[simp] theorem State.setBusLog_y (s : State) (v : List BusEvent) : (s.setBusLog v).y = s.y := rfl
@[simp] theorem State.setBusLog_sp (s : State) (v : List BusEvent) : (s.setBusLog v).sp = s.sp := rfl
@[simp] theorem State.setBusLog_pc (s : State) (v : List BusEvent) : (s.setBusLog v).pc = s.pc := rfl
@[simp] theorem State.setBusLog_p (s : State) (v : List BusEvent) : (s.setBusLog v).p = s.p := rfl
@[simp] theorem State.setBusLog_scratch (s : State) (v : List BusEvent) : (s.setBusLog v).scratch = s.scratch := rfl
@[simp] theorem State.setBusLog_cycles (s : State) (v : List BusEvent) : (s.setBusLog v).cycles = s.cycles := rfl
@[simp] theorem State.setBusLog_instructions (s : State) (v : List BusEvent) : (s.setBusLog v).instructions = s.instructions := rfl
@[simp] theorem State.setBusLog_nmiPending (s : State) (v : List BusEvent) : (s.setBusLog v).nmiPending = s.nmiPending := rfl
@[simp] theorem State.setBusLog_irqPending (s : State) (v : List BusEvent) : (s.setBusLog v).irqPending = s.irqPending := rfl
@[simp] theorem State.setBusLog_hook (s : State) (v : List BusEvent) : (s.setBusLog v).hook = s.hook := rfl
@[simp] theorem State.setBusLog_mem (s : State) (v : List BusEvent) : (s.setBusLog v).mem = s.mem := rfl
@[simp] theorem State.setBusLog_busLog (s : State) (v : List BusEvent) : (s.setBusLog v).busLog = v := rfl
@[simp] theorem State.setBusLog_seq (s : State) (v : List BusEvent) : (s.setBusLog v).seq = s.seq := rfl
@[simp] theorem State.setBusLog_lastStep (s : State) (v : List BusEvent) : (s.setBusLog v).lastStep = s.lastStep := rfl
@[simp] theorem State.setBusLog_cfg (s : State) (v : List BusEvent) : (s.setBusLog v).cfg = s.cfg := rfl

@[simp] theorem State.setBusLog_setBusLog (s : State) (v w : List BusEvent) : (s.setBusLog v).setBusLog w = s.setBusLog w := rfl
@[simp] theorem State.setBusLog_self (s : State) : s.setBusLog s.busLog = s := rfl

/-! ## setSeq -/

@[simp] theorem State.setSeq_a (s : State) (v : SeqState) : (s.setSeq v).a = s.a := rfl
@[simp] theorem State.setSeq_x (s : State) (v : SeqState) : (s.setSeq v).x = s.x := rfl
@[simp] theorem State.setSeq_y (s : State) (v : SeqState) : (s.setSeq v).y = s.y := rfl
@[simp] theorem State.setSeq_sp (s : State) (v : SeqState) : (s.setSeq v).sp = s.sp := rfl
@[simp] theorem State.setSeq_pc (s : State) (v : SeqState) : (s.setSeq v).pc = s.pc := rfl
@[simp] theorem State.setSeq_p (s : State) (v : SeqState) : (s.setSeq v).p = s.p := rfl
@[simp] theorem State.setSeq_scratch (s : State) (v : SeqState) : (s.setSeq v).scratch = s.scratch := rfl
@[simp] theorem State.setSeq_cycles (s : State) (v : SeqState) : (s.setSeq v).cycles = s.cycles := rfl
@[simp] theorem State.setSeq_instructions (s : State) (v : SeqState) : (s.setSeq v).instructions = s.instructions := rfl
@[simp] theorem State.setSeq_nmiPending (s : State) (v : SeqState) : (s.setSeq v).nmiPending = s.nmiPending := rfl
@[simp] theorem State.setSeq_irqPending (s : State) (v : SeqState) : (s.setSeq v).irqPending = s.irqPending := rfl
@[simp] theorem State.setSeq_hook (s : State) (v : SeqState) : (s.setSeq v).hook = s.hook := rfl
@[simp] theorem State.setSeq_mem (s : State) (v : SeqState) : (s.setSeq v).mem = s.mem := rfl
@[simp] theorem State.setSeq_busLog (s : State) (v : SeqState) : (s.setSeq v).busLog = s.busLog := rfl
@[simp] theorem State.setSeq_seq (s : State) (v : SeqState) : (s.setSeq v).seq = v := rfl
@[simp] theorem State.setSeq_lastStep (s : State) (v : SeqState) : (s.setSeq v).lastStep = s.lastStep := rfl
@[simp] theorem State.setSeq_cfg (s : State) (v : SeqState) : (s.setSeq v).cfg = s.cfg := rfl

@[simp] theorem State.setSeq_setSeq (s : State) (v w : SeqState) : (s.setSeq v).setSeq w = s.setSeq w := rfl
@[simp] theorem State.setSeq_self (s : State) : s.setSeq s.seq = s := rfl

/-! ## setLastStep -/

@[simp] theorem State.setLastStep_a (s : State) (v : Option StepResult) : (s.setLastStep v).a = s.a := rfl
@[simp] theorem State.setLastStep_x (s : State) (v : Option StepResult) : (s.setLastStep v).x = s.x := rfl
@[simp] theorem State.setLastStep_y (s : State) (v : Option StepResult) : (s.setLastStep v).y = s.y := rfl
@[simp] theorem State.setLastStep_sp (s : State) (v : Option StepResult) : (s.setLastStep v).sp = s.sp := rfl
@[simp] theorem State.setLastStep_pc (s : State) (v : Option StepResult) : (s.setLastStep v).pc = s.pc := rfl
@[simp] theorem State.setLastStep_p (s : State) (v : Option StepResult) : (s.setLastStep v).p = s.p := rfl
@[simp] theorem State.setLastStep_scratch (s : State) (v : Option StepResult) : (s.setLastStep v).scratch = s.scratch := rfl
@[simp] theorem State.setLastStep_cycles (s : State) (v : Option StepResult) : (s.setLastStep v).cycles = s.cycles := rfl
@[simp] theorem State.setLastStep_instructions (s : State) (v : Option StepResult) : (s.setLastStep v).instructions = s.instructions := rfl
@[simp] theorem State.setLastStep_nmiPending (s : State) (v : Option StepResult) : (s.setLastStep v).nmiPending = s.nmiPending := rfl
@[simp] theorem State.setLastStep_irqPending (s : State) (v : Option StepResult) : (s.setLastStep v).irqPending = s.irqPending := rfl
@[simp] theorem State.setLastStep_hook (s : State) (v : Option StepResult) : (s.setLastStep v).hook = s.hook := rfl
@[simp] theorem State.setLastStep_mem (s : State) (v : Option StepResult) : (s.setLastStep v).mem = s.mem := rfl
@[simp] theorem State.setLastStep_busLog (s : State) (v : Option StepResult) : (s.setLastStep v).busLog = s.busLog := rfl
@[simp] theorem State.setLastStep_seq (s : State) (v : Option StepResult) : (s.setLastStep v).seq = s.seq := rfl
@[simp] theorem State.setLastStep_lastStep (s : State) (v : Option StepResult) : (s.setLastStep v).lastStep = v := rfl
@[simp] theorem State.setLastStep_cfg (s : State) (v : Option StepResult) : (s.setLastStep v).cfg = s.cfg := rfl

@[simp] theorem State.setLastStep_setLastStep (s : State) (v w : Option StepResult) : (s.setLastStep v).setLastStep w = s.setLastStep w := rfl
@[simp] theorem State.setLastStep_self (s : State) : s.setLastStep s.lastStep = s := rfl

/-! ## Equality -/

/-- Two states with the same fields are equal. -/
@[ext] theorem State.ext_fields {s t : State}
    (ha : s.a = t.a) (hx : s.x = t.x) (hy : s.y = t.y) (hsp : s.sp = t.sp)
    (hpc : s.pc = t.pc) (hp : s.p = t.p) (hscratch : s.scratch = t.scratch) (hcycles : s.cycles = t.cycles)
    (hinstructions : s.instructions = t.instructions) (hnmiPending : s.nmiPending = t.nmiPending) (hirqPending : s.irqPending = t.irqPending) (hhook : s.hook = t.hook)
    (hmem : s.mem = t.mem) (hbusLog : s.busLog = t.busLog) (hseq : s.seq = t.seq) (hlastStep : s.lastStep = t.lastStep)
    (hcfg : s.cfg = t.cfg) :
    s = t := by
  cases s
  cases t
  simp_all

end Sys2Proof.Machine
end

