-- ==== Sys2Proof/Laws/Ops.lean ====
section
/-! SUPPORT. What each named operation of Machine/Ops.lean can do, said once, as an equation over the updates of State,
with the byte of memory and the canonical form after it. -/

namespace Sys2Proof.Machine

/-! ## `isIo` after each update it does not look at -/

@[simp] theorem State.setA_isIo (s : State) (v : Byte) (a : Addr) : (s.setA v).isIo a = s.isIo a := rfl
@[simp] theorem State.setX_isIo (s : State) (v : Byte) (a : Addr) : (s.setX v).isIo a = s.isIo a := rfl
@[simp] theorem State.setY_isIo (s : State) (v : Byte) (a : Addr) : (s.setY v).isIo a = s.isIo a := rfl
@[simp] theorem State.setSp_isIo (s : State) (v : Byte) (a : Addr) : (s.setSp v).isIo a = s.isIo a := rfl
@[simp] theorem State.setPc_isIo (s : State) (v : Addr) (a : Addr) : (s.setPc v).isIo a = s.isIo a := rfl
@[simp] theorem State.setP_isIo (s : State) (v : Flags) (a : Addr) : (s.setP v).isIo a = s.isIo a := rfl
@[simp] theorem State.setScratch_isIo (s : State) (v : Scratch) (a : Addr) : (s.setScratch v).isIo a = s.isIo a := rfl
@[simp] theorem State.setCycles_isIo (s : State) (v : Nat) (a : Addr) : (s.setCycles v).isIo a = s.isIo a := rfl
@[simp] theorem State.setInstructions_isIo (s : State) (v : Nat) (a : Addr) : (s.setInstructions v).isIo a = s.isIo a := rfl
@[simp] theorem State.setNmi_isIo (s : State) (v : Bool) (a : Addr) : (s.setNmi v).isIo a = s.isIo a := rfl
@[simp] theorem State.setIrq_isIo (s : State) (v : Bool) (a : Addr) : (s.setIrq v).isIo a = s.isIo a := rfl
@[simp] theorem State.setHook_isIo (s : State) (v : Option Callback) (a : Addr) : (s.setHook v).isIo a = s.isIo a := rfl
@[simp] theorem State.setMem_isIo (s : State) (v : List Host.Cell) (a : Addr) : (s.setMem v).isIo a = s.isIo a := rfl
@[simp] theorem State.setBusLog_isIo (s : State) (v : List BusEvent) (a : Addr) : (s.setBusLog v).isIo a = s.isIo a := rfl
@[simp] theorem State.setSeq_isIo (s : State) (v : SeqState) (a : Addr) : (s.setSeq v).isIo a = s.isIo a := rfl
@[simp] theorem State.setLastStep_isIo (s : State) (v : Option StepResult) (a : Addr) : (s.setLastStep v).isIo a = s.isIo a := rfl

/-! ## `byteAt` after each update it does not look at -/

@[simp] theorem State.setA_byteAt (s : State) (v : Byte) (a : Addr) : (s.setA v).byteAt a = s.byteAt a := rfl
@[simp] theorem State.setX_byteAt (s : State) (v : Byte) (a : Addr) : (s.setX v).byteAt a = s.byteAt a := rfl
@[simp] theorem State.setY_byteAt (s : State) (v : Byte) (a : Addr) : (s.setY v).byteAt a = s.byteAt a := rfl
@[simp] theorem State.setSp_byteAt (s : State) (v : Byte) (a : Addr) : (s.setSp v).byteAt a = s.byteAt a := rfl
@[simp] theorem State.setPc_byteAt (s : State) (v : Addr) (a : Addr) : (s.setPc v).byteAt a = s.byteAt a := rfl
@[simp] theorem State.setP_byteAt (s : State) (v : Flags) (a : Addr) : (s.setP v).byteAt a = s.byteAt a := rfl
@[simp] theorem State.setScratch_byteAt (s : State) (v : Scratch) (a : Addr) : (s.setScratch v).byteAt a = s.byteAt a := rfl
@[simp] theorem State.setCycles_byteAt (s : State) (v : Nat) (a : Addr) : (s.setCycles v).byteAt a = s.byteAt a := rfl
@[simp] theorem State.setInstructions_byteAt (s : State) (v : Nat) (a : Addr) : (s.setInstructions v).byteAt a = s.byteAt a := rfl
@[simp] theorem State.setNmi_byteAt (s : State) (v : Bool) (a : Addr) : (s.setNmi v).byteAt a = s.byteAt a := rfl
@[simp] theorem State.setIrq_byteAt (s : State) (v : Bool) (a : Addr) : (s.setIrq v).byteAt a = s.byteAt a := rfl
@[simp] theorem State.setHook_byteAt (s : State) (v : Option Callback) (a : Addr) : (s.setHook v).byteAt a = s.byteAt a := rfl
@[simp] theorem State.setBusLog_byteAt (s : State) (v : List BusEvent) (a : Addr) : (s.setBusLog v).byteAt a = s.byteAt a := rfl
@[simp] theorem State.setSeq_byteAt (s : State) (v : SeqState) (a : Addr) : (s.setSeq v).byteAt a = s.byteAt a := rfl
@[simp] theorem State.setLastStep_byteAt (s : State) (v : Option StepResult) (a : Addr) : (s.setLastStep v).byteAt a = s.byteAt a := rfl

/-! ## `answer` after each update it does not look at -/

@[simp] theorem State.setA_answer (s : State) (v : Byte) (a : Addr) : (s.setA v).answer a = s.answer a := rfl
@[simp] theorem State.setX_answer (s : State) (v : Byte) (a : Addr) : (s.setX v).answer a = s.answer a := rfl
@[simp] theorem State.setY_answer (s : State) (v : Byte) (a : Addr) : (s.setY v).answer a = s.answer a := rfl
@[simp] theorem State.setSp_answer (s : State) (v : Byte) (a : Addr) : (s.setSp v).answer a = s.answer a := rfl
@[simp] theorem State.setPc_answer (s : State) (v : Addr) (a : Addr) : (s.setPc v).answer a = s.answer a := rfl
@[simp] theorem State.setP_answer (s : State) (v : Flags) (a : Addr) : (s.setP v).answer a = s.answer a := rfl
@[simp] theorem State.setScratch_answer (s : State) (v : Scratch) (a : Addr) : (s.setScratch v).answer a = s.answer a := rfl
@[simp] theorem State.setCycles_answer (s : State) (v : Nat) (a : Addr) : (s.setCycles v).answer a = s.answer a := rfl
@[simp] theorem State.setInstructions_answer (s : State) (v : Nat) (a : Addr) : (s.setInstructions v).answer a = s.answer a := rfl
@[simp] theorem State.setNmi_answer (s : State) (v : Bool) (a : Addr) : (s.setNmi v).answer a = s.answer a := rfl
@[simp] theorem State.setIrq_answer (s : State) (v : Bool) (a : Addr) : (s.setIrq v).answer a = s.answer a := rfl
@[simp] theorem State.setHook_answer (s : State) (v : Option Callback) (a : Addr) : (s.setHook v).answer a = s.answer a := rfl
@[simp] theorem State.setSeq_answer (s : State) (v : SeqState) (a : Addr) : (s.setSeq v).answer a = s.answer a := rfl
@[simp] theorem State.setLastStep_answer (s : State) (v : Option StepResult) (a : Addr) : (s.setLastStep v).answer a = s.answer a := rfl

/-! ## `answer` at a later record, after each update it does not look at -/

@[simp] theorem State.setA_setBusLog_answer (s : State) (v : Byte) (l : List BusEvent) (a : Addr) :
    ((s.setA v).setBusLog l).answer a = (s.setBusLog l).answer a := rfl
@[simp] theorem State.setX_setBusLog_answer (s : State) (v : Byte) (l : List BusEvent) (a : Addr) :
    ((s.setX v).setBusLog l).answer a = (s.setBusLog l).answer a := rfl
@[simp] theorem State.setY_setBusLog_answer (s : State) (v : Byte) (l : List BusEvent) (a : Addr) :
    ((s.setY v).setBusLog l).answer a = (s.setBusLog l).answer a := rfl
@[simp] theorem State.setSp_setBusLog_answer (s : State) (v : Byte) (l : List BusEvent) (a : Addr) :
    ((s.setSp v).setBusLog l).answer a = (s.setBusLog l).answer a := rfl
@[simp] theorem State.setPc_setBusLog_answer (s : State) (v : Addr) (l : List BusEvent) (a : Addr) :
    ((s.setPc v).setBusLog l).answer a = (s.setBusLog l).answer a := rfl
@[simp] theorem State.setP_setBusLog_answer (s : State) (v : Flags) (l : List BusEvent) (a : Addr) :
    ((s.setP v).setBusLog l).answer a = (s.setBusLog l).answer a := rfl
@[simp] theorem State.setScratch_setBusLog_answer (s : State) (v : Scratch) (l : List BusEvent) (a : Addr) :
    ((s.setScratch v).setBusLog l).answer a = (s.setBusLog l).answer a := rfl
@[simp] theorem State.setCycles_setBusLog_answer (s : State) (v : Nat) (l : List BusEvent) (a : Addr) :
    ((s.setCycles v).setBusLog l).answer a = (s.setBusLog l).answer a := rfl
@[simp] theorem State.setInstructions_setBusLog_answer (s : State) (v : Nat) (l : List BusEvent) (a : Addr) :
    ((s.setInstructions v).setBusLog l).answer a = (s.setBusLog l).answer a := rfl
@[simp] theorem State.setNmi_setBusLog_answer (s : State) (v : Bool) (l : List BusEvent) (a : Addr) :
    ((s.setNmi v).setBusLog l).answer a = (s.setBusLog l).answer a := rfl
@[simp] theorem State.setIrq_setBusLog_answer (s : State) (v : Bool) (l : List BusEvent) (a : Addr) :
    ((s.setIrq v).setBusLog l).answer a = (s.setBusLog l).answer a := rfl
@[simp] theorem State.setHook_setBusLog_answer (s : State) (v : Option Callback) (l : List BusEvent) (a : Addr) :
    ((s.setHook v).setBusLog l).answer a = (s.setBusLog l).answer a := rfl
@[simp] theorem State.setSeq_setBusLog_answer (s : State) (v : SeqState) (l : List BusEvent) (a : Addr) :
    ((s.setSeq v).setBusLog l).answer a = (s.setBusLog l).answer a := rfl
@[simp] theorem State.setLastStep_setBusLog_answer (s : State) (v : Option StepResult) (l : List BusEvent) (a : Addr) :
    ((s.setLastStep v).setBusLog l).answer a = (s.setBusLog l).answer a := rfl
/-! ## The bus -/

@[simp] theorem State.logEvent_eq (s : State) (e : BusEvent) : s.logEvent e = s.setBusLog (e :: s.busLog) := rfl

@[simp] theorem State.clearScratch_eq (s : State) :
    s.clearScratch =
      s.setScratch { s.scratch with accMode := false, pageCross := false, opPenalty := false } := rfl

/-- Memory after a bus write: an address a device answers keeps nothing. -/
def stored (a : Addr) (v : Byte) (s : State) : List Host.Cell :=
  if s.isIo a then s.mem else Memory.write s.mem a.toNat v

/-! ## `stored` after each update it does not look at -/

@[simp] theorem State.setA_stored (s : State) (w : Byte) (a : Addr) (v : Byte) :
    stored a v (s.setA w) = stored a v s := rfl
@[simp] theorem State.setX_stored (s : State) (w : Byte) (a : Addr) (v : Byte) :
    stored a v (s.setX w) = stored a v s := rfl
@[simp] theorem State.setY_stored (s : State) (w : Byte) (a : Addr) (v : Byte) :
    stored a v (s.setY w) = stored a v s := rfl
@[simp] theorem State.setSp_stored (s : State) (w : Byte) (a : Addr) (v : Byte) :
    stored a v (s.setSp w) = stored a v s := rfl
@[simp] theorem State.setPc_stored (s : State) (w : Addr) (a : Addr) (v : Byte) :
    stored a v (s.setPc w) = stored a v s := rfl
@[simp] theorem State.setP_stored (s : State) (w : Flags) (a : Addr) (v : Byte) :
    stored a v (s.setP w) = stored a v s := rfl
@[simp] theorem State.setScratch_stored (s : State) (w : Scratch) (a : Addr) (v : Byte) :
    stored a v (s.setScratch w) = stored a v s := rfl
@[simp] theorem State.setCycles_stored (s : State) (w : Nat) (a : Addr) (v : Byte) :
    stored a v (s.setCycles w) = stored a v s := rfl
@[simp] theorem State.setInstructions_stored (s : State) (w : Nat) (a : Addr) (v : Byte) :
    stored a v (s.setInstructions w) = stored a v s := rfl
@[simp] theorem State.setNmi_stored (s : State) (w : Bool) (a : Addr) (v : Byte) :
    stored a v (s.setNmi w) = stored a v s := rfl
@[simp] theorem State.setIrq_stored (s : State) (w : Bool) (a : Addr) (v : Byte) :
    stored a v (s.setIrq w) = stored a v s := rfl
@[simp] theorem State.setHook_stored (s : State) (w : Option Callback) (a : Addr) (v : Byte) :
    stored a v (s.setHook w) = stored a v s := rfl
@[simp] theorem State.setBusLog_stored (s : State) (w : List BusEvent) (a : Addr) (v : Byte) :
    stored a v (s.setBusLog w) = stored a v s := rfl
@[simp] theorem State.setSeq_stored (s : State) (w : SeqState) (a : Addr) (v : Byte) :
    stored a v (s.setSeq w) = stored a v s := rfl
@[simp] theorem State.setLastStep_stored (s : State) (w : Option StepResult) (a : Addr) (v : Byte) :
    stored a v (s.setLastStep w) = stored a v s := rfl
/-- The bus answers by memory, the record and the configuration alone (R107). -/
theorem answer_congr {s t : State} (hm : t.mem = s.mem) (hl : t.busLog = s.busLog) (hc : t.cfg = s.cfg) (a : Addr) :
    t.answer a = s.answer a := by
  have h : t.isIo a = s.isIo a := by rw [State.isIo, hc, State.isIo]
  rw [State.answer, State.answer, h, hl, State.byteAt, hm, State.byteAt]

/-- What a bus write leaves in memory depends on memory and the configuration alone. -/
theorem stored_congr {s t : State} (hm : t.mem = s.mem) (hc : t.cfg = s.cfg) (a : Addr) (v : Byte) :
    stored a v t = stored a v s := by
  have h : t.isIo a = s.isIo a := by rw [State.isIo, hc, State.isIo]
  rw [stored, stored, h, hm]

theorem busRead_eq (a : Addr) (s : State) :
    busRead a s = (s.answer a, s.setBusLog (.read a (s.answer a) :: s.busLog)) := rfl

theorem busWrite_eq (a : Addr) (v : Byte) (s : State) :
    busWrite a v s = (s.setMem (stored a v s)).setBusLog (.write a v :: s.busLog) := by
  unfold busWrite stored
  split <;> rfl

/-- A bus write changes at most the byte it writes. -/
theorem busWrite_byteAt (a b : Addr) (v : Byte) (s : State) :
    (busWrite a v s).byteAt b = if b = a ∧ s.isIo a = false then v else s.byteAt b := by
  simp only [busWrite_eq, State.byteAt, State.setBusLog_mem, State.setMem_mem, stored]
  split
  · simp_all
  · simp_all [Memory.read_write, BitVec.toNat_inj]

/-- A bus write keeps memory canonical. -/
theorem busWrite_wf {a : Addr} {v : Byte} {s : State} (h : Memory.wf s.mem = true) :
    Memory.wf (busWrite a v s).mem = true := by
  simp only [busWrite_eq, State.setBusLog_mem, State.setMem_mem, stored]
  split
  · exact h
  · exact Memory.wf_write a.isLt h

theorem read16_eq (lo hi : Addr) (s : State) :
    read16 lo hi s =
      (mkAddr (busRead hi (busRead lo s).2).1 (s.answer lo),
       s.setBusLog (.read hi (busRead hi (busRead lo s).2).1 :: .read lo (s.answer lo) :: s.busLog)) := rfl

/-- What two reads answer, by memory, the record and the configuration alone. -/
theorem read16_congr {s t : State} (hm : t.mem = s.mem) (hl : t.busLog = s.busLog) (hc : t.cfg = s.cfg)
    (lo hi : Addr) :
    (read16 lo hi t).1 = (read16 lo hi s).1 ∧ (read16 lo hi t).2.busLog = (read16 lo hi s).2.busLog := by
  have h1 := answer_congr hm hl hc lo
  have h2 := answer_congr (s := (busRead lo s).2) (t := (busRead lo t).2) hm (by simp [busRead_eq, h1, hl]) hc hi
  constructor
  · simp only [read16_eq, h1, busRead_eq hi, h2]
  · simp only [read16_eq, h1, busRead_eq hi, h2, hl, State.setBusLog_busLog]

theorem fetch_eq (s : State) :
    fetch s = (s.answer s.pc, (s.setBusLog (.read s.pc (s.answer s.pc) :: s.busLog)).setPc (s.pc + 1)) := rfl

/-! ## The stack -/

theorem push_eq (v : Byte) (s : State) :
    push v s =
      ((s.setMem (stored (stackAddr s.sp) v s)).setBusLog (.write (stackAddr s.sp) v :: s.busLog)).setSp (s.sp - 1) := by
  rw [push, busWrite_eq]

theorem push_byteAt (v : Byte) (s : State) (b : Addr) :
    (push v s).byteAt b = if b = stackAddr s.sp ∧ s.isIo (stackAddr s.sp) = false then v else s.byteAt b :=
  busWrite_byteAt (stackAddr s.sp) b v s

theorem push_wf {v : Byte} {s : State} (h : Memory.wf s.mem = true) : Memory.wf (push v s).mem = true :=
  busWrite_wf h

theorem pull_eq (s : State) :
    pull s =
      (s.answer (stackAddr (s.sp + 1)),
       (s.setBusLog (.read (stackAddr (s.sp + 1)) (s.answer (stackAddr (s.sp + 1))) :: s.busLog)).setSp (s.sp + 1)) := rfl

/-- Two pushes: S goes down by two, and the bus sees the high byte first. -/
theorem push16_eq (v : Addr) (s : State) :
    push16 v s =
      ((s.setMem (stored (stackAddr (s.sp - 1)) (loByte v) (push (hiByte v) s))).setBusLog
        (.write (stackAddr (s.sp - 1)) (loByte v) :: .write (stackAddr s.sp) (hiByte v) :: s.busLog)).setSp (s.sp - 2) := by
  have h : s.sp - 2 = s.sp - 1 - 1 := by ring
  rw [h]
  ext1 <;> simp [push16, push_eq]

theorem push16_wf {v : Addr} {s : State} (h : Memory.wf s.mem = true) : Memory.wf (push16 v s).mem = true :=
  push_wf (push_wf h)

/-- Two pulls: S goes up by two, and the low byte is pulled first. -/
theorem pull16_eq (s : State) :
    pull16 s =
      (mkAddr (busRead (stackAddr (s.sp + 2)) (busRead (stackAddr (s.sp + 1)) s).2).1 (s.answer (stackAddr (s.sp + 1))),
       (busRead (stackAddr (s.sp + 2)) (busRead (stackAddr (s.sp + 1)) s).2).2.setSp (s.sp + 2)) := by
  have h : s.sp + 1 + 1 = s.sp + 2 := by ring
  simp only [pull16, pull_eq, State.setSp_sp, h]
  rfl

/-- Two bytes of the stack page are at the same address only where their offsets agree. -/
theorem stackAddr_inj {u v : Byte} : stackAddr u = stackAddr v ↔ u = v := by
  constructor
  · intro h
    simp only [stackAddr, zeroPage] at h
    bv_omega
  · rintro rfl; rfl

/-! ## The image of P -/

theorem loadP_pImage (b : Bool) (p : Flags) : loadP (pImage b p) = p := by
  obtain ⟨n, v, d, i, z, c⟩ := p
  cases b <;> cases n <;> cases v <;> cases d <;> cases i <;> cases z <;> cases c <;> rfl

/-! ## Exceptions -/

/-- PC loaded from a vector: two reads. -/
theorem read16_setPc (lo hi : Addr) (s : State) :
    (read16 lo hi s).2.setPc (read16 lo hi s).1 =
      (s.setBusLog (.read hi (busRead hi (busRead lo s).2).1 :: .read lo (s.answer lo) :: s.busLog)).setPc
        (mkAddr (busRead hi (busRead lo s).2).1 (s.answer lo)) := rfl

/-- An exception entry, from the state after its three pushes: P, PC and two reads of the vector. -/
theorem enterException_eq (b : Bool) (vec : Addr) (s : State) :
    let u := push (pImage b s.p) (push16 s.pc s)
    let hi := (busRead (vec + 1) (busRead vec u).2).1
    enterException b vec s =
      ((u.setP { s.p with i := true, d := if s.cfg.clearDOnInterrupt then false else s.p.d }).setBusLog
        (.read (vec + 1) hi :: .read vec (u.answer vec) :: u.busLog)).setPc (mkAddr hi (u.answer vec)) := by
  have hp : (push16 s.pc s).p = s.p := by simp [push16_eq]
  have hu : (push (pImage b s.p) (push16 s.pc s)).p = s.p := by simp [push_eq, push16_eq]
  have hc : (push (pImage b s.p) (push16 s.pc s)).cfg = s.cfg := by simp [push_eq, push16_eq]
  simp only [enterException, hp]
  generalize push (pImage b s.p) (push16 s.pc s) = u at hu hc ⊢
  simp [read16_setPc, hu, hc, busRead_eq]

/-- The state after the three pushes of an entry. -/
theorem entryPushes_eq (b : Bool) (s : State) :
    push (pImage b s.p) (push16 s.pc s) =
      ((s.setMem (stored (stackAddr (s.sp - 2)) (pImage b s.p) (push16 s.pc s))).setBusLog
        (.write (stackAddr (s.sp - 2)) (pImage b s.p) :: .write (stackAddr (s.sp - 1)) (loByte s.pc) ::
          .write (stackAddr s.sp) (hiByte s.pc) :: s.busLog)).setSp (s.sp - 3) := by
  have h : s.sp - 3 = s.sp - 2 - 1 := by ring
  rw [h]
  ext1 <;> simp [push_eq, push16_eq]

theorem enterException_wf {b : Bool} {vec : Addr} {s : State} (h : Memory.wf s.mem = true) :
    Memory.wf (enterException b vec s).mem = true := by
  rw [enterException_eq]
  simpa using push_wf (v := pImage b s.p) (push16_wf h)

theorem interruptEntry_wf {vec : Addr} {s : State} (h : Memory.wf s.mem = true) :
    Memory.wf (interruptEntry vec s).mem = true := by
  simpa [interruptEntry] using enterException_wf h

/-- The return from an exception: six flags and PC from three pulled bytes. -/
theorem returnFromException_eq (s : State) :
    let p := busRead (stackAddr (s.sp + 1)) s
    let lo := busRead (stackAddr (s.sp + 2)) p.2
    let hi := busRead (stackAddr (s.sp + 3)) lo.2
    returnFromException s =
      (((s.setBusLog hi.2.busLog).setSp (s.sp + 3)).setP (loadP p.1)).setPc (mkAddr hi.1 lo.1) := by
  have h2 : s.sp + 2 = s.sp + 1 + 1 := by ring
  have h3 : s.sp + 3 = s.sp + 1 + 2 := by ring
  rw [h3, h2]
  ext1 <;> simp [returnFromException, pull_eq, pull16_eq, busRead_eq]

/-- What the interrupt check of a boundary answers (R611 to R613). -/
theorem acceptInterrupt_cases (s : State) :
    (s.nmiPending = true ∧ acceptInterrupt s = (some .nmi, (s.setIrq false).setNmi false)) ∨
    (s.nmiPending = false ∧ s.irqPending = true ∧ s.p.i = false ∧ acceptInterrupt s = (some .irq, s.setIrq false)) ∨
    (s.nmiPending = false ∧ (s.irqPending = false ∨ s.p.i = true) ∧ acceptInterrupt s = (none, s.setIrq false)) := by
  unfold acceptInterrupt
  cases s.nmiPending <;> cases s.irqPending <;> cases s.p.i <;> simp

/-- The three cases of the interrupt check with its entry (R613). -/
theorem serviceInterrupts_cases (s : State) :
    (s.nmiPending = true ∧ serviceInterrupts s = interruptEntry 0xFFFA ((s.setIrq false).setNmi false)) ∨
    (s.nmiPending = false ∧ s.irqPending = true ∧ s.p.i = false ∧
      serviceInterrupts s = interruptEntry 0xFFFE (s.setIrq false)) ∨
    (s.nmiPending = false ∧ (s.irqPending = false ∨ s.p.i = true) ∧ serviceInterrupts s = s.setIrq false) := by
  unfold serviceInterrupts
  obtain ⟨hn, h⟩ | ⟨hn, hi, hm, h⟩ | ⟨hn, hi, h⟩ := acceptInterrupt_cases s <;> rw [h]
  · exact .inl ⟨hn, rfl⟩
  · exact .inr (.inl ⟨hn, hi, hm, rfl⟩)
  · exact .inr (.inr ⟨hn, hi, rfl⟩)

theorem serviceInterrupts_wf {s : State} (h : Memory.wf s.mem = true) :
    Memory.wf (serviceInterrupts s).mem = true := by
  obtain ⟨_, h'⟩ | ⟨_, _, _, h'⟩ | ⟨_, _, h'⟩ := serviceInterrupts_cases s <;> rw [h']
  · exact interruptEntry_wf (by simpa using h)
  · exact interruptEntry_wf (by simpa using h)
  · simpa using h

/-! ## Reset -/

/-- `reset()`: two reads of the reset vector, and the registers from the configuration (R700). -/
theorem hostReset_eq (s : State) :
    let hi := (busRead 0xFFFD (busRead 0xFFFC s).2).1
    hostReset s =
      ((((((((((s.clearScratch.setSeq .idle).setNmi false).setIrq false).setA s.cfg.resetRegs.a).setX s.cfg.resetRegs.x).setY
        s.cfg.resetRegs.y).setSp s.cfg.resetRegs.s).setP (resetFlags s.cfg)).setBusLog
          (.read 0xFFFD hi :: .read 0xFFFC (s.answer 0xFFFC) :: s.busLog)).setPc (mkAddr hi (s.answer 0xFFFC))) := by
  simp [hostReset, read16_setPc, busRead_eq]
  rfl

end Sys2Proof.Machine
end

