-- ==== Sys2Proof/Laws/Operands.lean ====
section
/-! SUPPORT. What the mode resolvers and the operand operations can do, said once: they change scratch, the bus record
and, where they fetch or write, PC, A or memory; each field they leave has its lemma. -/

namespace Sys2Proof.Machine

@[simp] theorem State.setEa_eq (s : State) (ea : Addr) : s.setEa ea = s.setScratch { s.scratch with ea := ea } := rfl
@[simp] theorem State.setValue_eq (s : State) (v : Byte) :
    s.setValue v = s.setScratch { s.scratch with value := v } := rfl
@[simp] theorem State.setPenalty_eq (s : State) (e : Bool) :
    s.setPenalty e = s.setScratch { s.scratch with opPenalty := e } := rfl
@[simp] theorem State.setEaFrom_eq (s : State) (base ea : Addr) :
    s.setEaFrom base ea = s.setScratch { s.scratch with ea := ea, pageCross := pagesDiffer ea base } := rfl

/-! ## The resolvers (R201 to R213) -/

@[simp] theorem resolve_a (o : Operand) (s : State) : (resolve o s).a = s.a := by cases o <;> rfl
@[simp] theorem resolve_x (o : Operand) (s : State) : (resolve o s).x = s.x := by cases o <;> rfl
@[simp] theorem resolve_y (o : Operand) (s : State) : (resolve o s).y = s.y := by cases o <;> rfl
@[simp] theorem resolve_sp (o : Operand) (s : State) : (resolve o s).sp = s.sp := by cases o <;> rfl
@[simp] theorem resolve_pc (o : Operand) (s : State) : (resolve o s).pc = s.pc := by cases o <;> rfl
@[simp] theorem resolve_p (o : Operand) (s : State) : (resolve o s).p = s.p := by cases o <;> rfl
@[simp] theorem resolve_cycles (o : Operand) (s : State) : (resolve o s).cycles = s.cycles := by cases o <;> rfl
@[simp] theorem resolve_instructions (o : Operand) (s : State) : (resolve o s).instructions = s.instructions := by cases o <;> rfl
@[simp] theorem resolve_nmiPending (o : Operand) (s : State) : (resolve o s).nmiPending = s.nmiPending := by cases o <;> rfl
@[simp] theorem resolve_irqPending (o : Operand) (s : State) : (resolve o s).irqPending = s.irqPending := by cases o <;> rfl
@[simp] theorem resolve_hook (o : Operand) (s : State) : (resolve o s).hook = s.hook := by cases o <;> rfl
@[simp] theorem resolve_mem (o : Operand) (s : State) : (resolve o s).mem = s.mem := by cases o <;> rfl
@[simp] theorem resolve_seq (o : Operand) (s : State) : (resolve o s).seq = s.seq := by cases o <;> rfl
@[simp] theorem resolve_lastStep (o : Operand) (s : State) : (resolve o s).lastStep = s.lastStep := by cases o <;> rfl
@[simp] theorem resolve_cfg (o : Operand) (s : State) : (resolve o s).cfg = s.cfg := by cases o <;> rfl
@[simp] theorem resolve_isIo (o : Operand) (s : State) (a : Addr) : (resolve o s).isIo a = s.isIo a := by simp [State.isIo]
@[simp] theorem resolve_byteAt (o : Operand) (s : State) (a : Addr) : (resolve o s).byteAt a = s.byteAt a := by simp [State.byteAt]

/-- A resolver adds at most the reads of a pointer to the bus record. -/
theorem resolve_busLog (o : Operand) (s : State) : ∃ events, (resolve o s).busLog = events ++ s.busLog := by
  cases o with
  | izx b => exact ⟨[_, _], rfl⟩
  | izy b => exact ⟨[_, _], rfl⟩
  | ind w => exact ⟨[_, _], rfl⟩
  | _ => exact ⟨[], rfl⟩

/-- Accumulator mode and nothing else sets `acc_mode` (R201). -/
theorem resolve_accMode (o : Operand) (s : State) :
    (resolve o s).scratch.accMode = if o = .acc then true else s.scratch.accMode := by
  cases o <;> rfl

theorem resolve_opPenalty (o : Operand) (s : State) :
    (resolve o s).scratch.opPenalty = s.scratch.opPenalty := by
  cases o <;> rfl

/-- Only the three indexed modes set `page_cross` (R214). -/
theorem resolve_pageCross (o : Operand) (s : State) (h : o.mode ≠ .abx ∧ o.mode ≠ .aby ∧ o.mode ≠ .izy) :
    (resolve o s).scratch.pageCross = s.scratch.pageCross := by
  cases o <;> first | rfl | simp [Operand.mode] at h

/-! ## The operand (R215, R216) -/

/-- The byte `ReadOperand` gives: the immediate byte, A, or the bus's answer at `ea`. -/
def operandValue (o : Operand) (s : State) : Byte :=
  match o with
  | .imm b => b
  | _ => if s.scratch.accMode then s.a else s.answer s.scratch.ea

/-- The bus record after `ReadOperand`: one read at `ea`, none for an immediate byte or A. -/
def operandLog (o : Operand) (s : State) : List BusEvent :=
  match o with
  | .imm _ => s.busLog
  | _ => if s.scratch.accMode then s.busLog else .read s.scratch.ea (s.answer s.scratch.ea) :: s.busLog

theorem readOperand_eq (o : Operand) (s : State) :
    readOperand o s =
      (s.setScratch { s.scratch with value := operandValue o s }).setBusLog (operandLog o s) := by
  have mem_case : (if s.scratch.accMode then s.setValue s.a
      else (busRead s.scratch.ea s).2.setValue (busRead s.scratch.ea s).1) =
      (s.setScratch { s.scratch with
        value := if s.scratch.accMode then s.a else s.answer s.scratch.ea }).setBusLog
        (if s.scratch.accMode then s.busLog else .read s.scratch.ea (s.answer s.scratch.ea) :: s.busLog) := by
    cases s.scratch.accMode <;> rfl
  cases o with
  | imm b => rfl
  | _ => exact mem_case

@[simp] theorem readOperand_a (o : Operand) (s : State) : (readOperand o s).a = s.a := by rw [readOperand_eq]; rfl
@[simp] theorem readOperand_x (o : Operand) (s : State) : (readOperand o s).x = s.x := by rw [readOperand_eq]; rfl
@[simp] theorem readOperand_y (o : Operand) (s : State) : (readOperand o s).y = s.y := by rw [readOperand_eq]; rfl
@[simp] theorem readOperand_sp (o : Operand) (s : State) : (readOperand o s).sp = s.sp := by rw [readOperand_eq]; rfl
@[simp] theorem readOperand_pc (o : Operand) (s : State) : (readOperand o s).pc = s.pc := by rw [readOperand_eq]; rfl
@[simp] theorem readOperand_p (o : Operand) (s : State) : (readOperand o s).p = s.p := by rw [readOperand_eq]; rfl
@[simp] theorem readOperand_cycles (o : Operand) (s : State) : (readOperand o s).cycles = s.cycles := by rw [readOperand_eq]; rfl
@[simp] theorem readOperand_instructions (o : Operand) (s : State) : (readOperand o s).instructions = s.instructions := by rw [readOperand_eq]; rfl
@[simp] theorem readOperand_nmiPending (o : Operand) (s : State) : (readOperand o s).nmiPending = s.nmiPending := by rw [readOperand_eq]; rfl
@[simp] theorem readOperand_irqPending (o : Operand) (s : State) : (readOperand o s).irqPending = s.irqPending := by rw [readOperand_eq]; rfl
@[simp] theorem readOperand_hook (o : Operand) (s : State) : (readOperand o s).hook = s.hook := by rw [readOperand_eq]; rfl
@[simp] theorem readOperand_mem (o : Operand) (s : State) : (readOperand o s).mem = s.mem := by rw [readOperand_eq]; rfl
@[simp] theorem readOperand_seq (o : Operand) (s : State) : (readOperand o s).seq = s.seq := by rw [readOperand_eq]; rfl
@[simp] theorem readOperand_lastStep (o : Operand) (s : State) : (readOperand o s).lastStep = s.lastStep := by rw [readOperand_eq]; rfl
@[simp] theorem readOperand_cfg (o : Operand) (s : State) : (readOperand o s).cfg = s.cfg := by rw [readOperand_eq]; rfl
@[simp] theorem readOperand_isIo (o : Operand) (s : State) (a : Addr) : (readOperand o s).isIo a = s.isIo a := by simp [State.isIo]
@[simp] theorem readOperand_byteAt (o : Operand) (s : State) (a : Addr) : (readOperand o s).byteAt a = s.byteAt a := by simp [State.byteAt]

theorem writeOperand_eq (v : Byte) (s : State) :
    writeOperand v s = if s.scratch.accMode then s.setA v else busWrite s.scratch.ea v s := rfl

theorem writeOperand_wf {v : Byte} {s : State} (h : Memory.wf s.mem = true) :
    Memory.wf (writeOperand v s).mem = true := by
  rw [writeOperand_eq]
  split
  · exact h
  · exact busWrite_wf h

/-! ## The resolvers that fetch (R467) -/

@[simp] theorem fetchAndResolve_a (m : Mode) (s : State) : (fetchAndResolve m s).a = s.a := by cases m <;> simp [fetchAndResolve, fetch_eq]
@[simp] theorem fetchAndResolve_x (m : Mode) (s : State) : (fetchAndResolve m s).x = s.x := by cases m <;> simp [fetchAndResolve, fetch_eq]
@[simp] theorem fetchAndResolve_y (m : Mode) (s : State) : (fetchAndResolve m s).y = s.y := by cases m <;> simp [fetchAndResolve, fetch_eq]
@[simp] theorem fetchAndResolve_sp (m : Mode) (s : State) : (fetchAndResolve m s).sp = s.sp := by cases m <;> simp [fetchAndResolve, fetch_eq]
@[simp] theorem fetchAndResolve_p (m : Mode) (s : State) : (fetchAndResolve m s).p = s.p := by cases m <;> simp [fetchAndResolve, fetch_eq]
@[simp] theorem fetchAndResolve_cycles (m : Mode) (s : State) : (fetchAndResolve m s).cycles = s.cycles := by cases m <;> simp [fetchAndResolve, fetch_eq]
@[simp] theorem fetchAndResolve_instructions (m : Mode) (s : State) : (fetchAndResolve m s).instructions = s.instructions := by cases m <;> simp [fetchAndResolve, fetch_eq]
@[simp] theorem fetchAndResolve_nmiPending (m : Mode) (s : State) : (fetchAndResolve m s).nmiPending = s.nmiPending := by cases m <;> simp [fetchAndResolve, fetch_eq]
@[simp] theorem fetchAndResolve_irqPending (m : Mode) (s : State) : (fetchAndResolve m s).irqPending = s.irqPending := by cases m <;> simp [fetchAndResolve, fetch_eq]
@[simp] theorem fetchAndResolve_hook (m : Mode) (s : State) : (fetchAndResolve m s).hook = s.hook := by cases m <;> simp [fetchAndResolve, fetch_eq]
@[simp] theorem fetchAndResolve_mem (m : Mode) (s : State) : (fetchAndResolve m s).mem = s.mem := by cases m <;> simp [fetchAndResolve, fetch_eq]
@[simp] theorem fetchAndResolve_seq (m : Mode) (s : State) : (fetchAndResolve m s).seq = s.seq := by cases m <;> simp [fetchAndResolve, fetch_eq]
@[simp] theorem fetchAndResolve_lastStep (m : Mode) (s : State) : (fetchAndResolve m s).lastStep = s.lastStep := by cases m <;> simp [fetchAndResolve, fetch_eq]
@[simp] theorem fetchAndResolve_cfg (m : Mode) (s : State) : (fetchAndResolve m s).cfg = s.cfg := by cases m <;> simp [fetchAndResolve, fetch_eq]
@[simp] theorem fetchAndResolve_isIo (m : Mode) (s : State) (a : Addr) : (fetchAndResolve m s).isIo a = s.isIo a := by simp [State.isIo]
@[simp] theorem fetchAndResolve_byteAt (m : Mode) (s : State) (a : Addr) : (fetchAndResolve m s).byteAt a = s.byteAt a := by simp [State.byteAt]

/-- PC goes past the operand bytes of the mode. -/
theorem fetchAndResolve_pc (m : Mode) (s : State) :
    (fetchAndResolve m s).pc = s.pc + BitVec.ofNat 16 m.operandBytes := by
  have h : s.pc + 1 + 1 = s.pc + 2 := by ring
  cases m <;> simp [fetchAndResolve, fetch_eq, Mode.operandBytes] <;> exact h

theorem fetchAndResolve_busLog (m : Mode) (s : State) :
    ∃ events, (fetchAndResolve m s).busLog = events ++ s.busLog := by
  cases m with
  | acc => exact ⟨[], rfl⟩
  | imp => exact ⟨[], rfl⟩
  | imm => exact ⟨[], rfl⟩
  | zp => exact ⟨[_], rfl⟩
  | zpx => exact ⟨[_], rfl⟩
  | zpy => exact ⟨[_], rfl⟩
  | rel => exact ⟨[_], rfl⟩
  | izx => exact ⟨[_, _, _], rfl⟩
  | izy => exact ⟨[_, _, _], rfl⟩
  | abs => exact ⟨[_, _], rfl⟩
  | abx => exact ⟨[_, _], rfl⟩
  | aby => exact ⟨[_, _], rfl⟩
  | ind => exact ⟨[_, _, _, _], rfl⟩

end Sys2Proof.Machine
end

