-- ==== Sys2Proof/Laws/Exec.lean ====
section
/-! SUPPORT. What one instruction can do: the frame of `perform`, each shared handler as an equation, and what every
instruction keeps. -/

namespace Sys2Proof.Machine

/-! ## The frame around a handler (R503 to R511) -/

@[simp] theorem account_a (start base : Nat) (s : State) : (account start base s).a = s.a := rfl
@[simp] theorem account_x (start base : Nat) (s : State) : (account start base s).x = s.x := rfl
@[simp] theorem account_y (start base : Nat) (s : State) : (account start base s).y = s.y := rfl
@[simp] theorem account_sp (start base : Nat) (s : State) : (account start base s).sp = s.sp := rfl
@[simp] theorem account_pc (start base : Nat) (s : State) : (account start base s).pc = s.pc := rfl
@[simp] theorem account_p (start base : Nat) (s : State) : (account start base s).p = s.p := rfl
@[simp] theorem account_scratch (start base : Nat) (s : State) : (account start base s).scratch = s.scratch := rfl
@[simp] theorem account_nmiPending (start base : Nat) (s : State) : (account start base s).nmiPending = s.nmiPending := rfl
@[simp] theorem account_irqPending (start base : Nat) (s : State) : (account start base s).irqPending = s.irqPending := rfl
@[simp] theorem account_hook (start base : Nat) (s : State) : (account start base s).hook = s.hook := rfl
@[simp] theorem account_mem (start base : Nat) (s : State) : (account start base s).mem = s.mem := rfl
@[simp] theorem account_busLog (start base : Nat) (s : State) : (account start base s).busLog = s.busLog := rfl
@[simp] theorem account_seq (start base : Nat) (s : State) : (account start base s).seq = s.seq := rfl
@[simp] theorem account_cfg (start base : Nat) (s : State) : (account start base s).cfg = s.cfg := rfl

/-- CYCLE-ACCOUNT (R510, R511). -/
theorem account_counters (start base : Nat) (s : State) :
    (account start base s).cycles = s.cycles + base + penaltyCycles s ∧
    (account start base s).instructions = s.instructions + 1 ∧
    (account start base s).lastStep = some (.ok (s.cycles + base + penaltyCycles s - start)) := ⟨rfl, rfl, rfl⟩

/-- A well-formed instruction's meaning completes (log 14 for the others). -/
theorem perform_eq {i : Instr} {op : Byte} (h : opcodeOf i = some op) (handler : State → State) (s : State) :
    perform i handler s =
      .next (account s.cycles (baseCycles s.cfg.variant op) (handler (resolve i.operand s.clearScratch))) := by
  simp only [perform, h]

/-- What a next state of `perform` is. -/
theorem perform_next {i : Instr} {handler : State → State} {s t : State} (h : perform i handler s = .next t) :
    ∃ op, opcodeOf i = some op ∧
      t = account s.cycles (baseCycles s.cfg.variant op) (handler (resolve i.operand s.clearScratch)) := by
  unfold perform at h
  split at h
  · rename_i op hop
    exact ⟨op, hop, by simpa [eq_comm] using h⟩
  · cases h

/-! ## The shared handlers -/

/-- An operand form that is not immediate or accumulator mode is read on the bus. -/
theorem readOperand_value (o : Operand) (s : State) : (readOperand o s).scratch.value = operandValue o s := by
  simp [readOperand_eq]

theorem loadHandler_eq (set : State → Byte → State) (o : Operand) (s : State) :
    loadHandler set o s =
      ((set (readOperand o s) (operandValue o s)).setNZ (operandValue o s)).setPenalty true := by
  simp only [loadHandler, readOperand_value]

theorem logicHandler_eq (f : Byte → Byte → Byte) (o : Operand) (s : State) :
    logicHandler f o s =
      (((readOperand o s).setA (f s.a (operandValue o s))).setNZ (f s.a (operandValue o s))).setPenalty true := by
  simp only [logicHandler, readOperand_value, readOperand_a]

theorem compareHandler_eq (reg : State → Byte) (o : Operand) (s : State) :
    compareHandler reg o s =
      (readOperand o s).setP (compareFlags (reg (readOperand o s)) (operandValue o s) s.p) := by
  simp only [compareHandler, readOperand_value, readOperand_p]

theorem bitHandler_eq (o : Operand) (s : State) :
    bitHandler o s = (readOperand o s).setP (bitFlags s.a (operandValue o s) s.p) := by
  simp only [bitHandler, readOperand_value, readOperand_p, readOperand_a]

theorem rmwHandler_eq (f : Byte → Flags → AluResult) (o : Operand) (s : State) :
    rmwHandler f o s =
      writeOperand (f (operandValue o s) s.p).value ((readOperand o s).setP (f (operandValue o s) s.p).p) := by
  simp only [rmwHandler, readOperand_value, readOperand_p]

/-- ADC's result depends on A, P and the configuration only. -/
theorem adcResult_congr (m : Byte) {s t : State} (ha : t.a = s.a) (hp : t.p = s.p) (hc : t.cfg = s.cfg) :
    adcResult m t = adcResult m s := by
  have h : decimalMode t = decimalMode s := by simp only [decimalMode, hp, hc]
  rw [adcResult, h, ha, hp, hc, adcResult]

/-- SBC's result depends on A, P and the configuration only. -/
theorem sbcResult_congr (m : Byte) {s t : State} (ha : t.a = s.a) (hp : t.p = s.p) (hc : t.cfg = s.cfg) :
    sbcResult m t = sbcResult m s := by
  have h : decimalMode t = decimalMode s := by simp only [decimalMode, hp, hc]
  rw [sbcResult, h, ha, hp, hc, sbcResult]

theorem arithmeticHandler_eq {f : Byte → State → AluResult}
    (hf : ∀ m s t, t.a = s.a → t.p = s.p → t.cfg = s.cfg → f m t = f m s) (o : Operand) (s : State) :
    arithmeticHandler f o s =
      ((((readOperand o s).setPenalty true).setA (f (operandValue o s) s).value).setP
        (f (operandValue o s) s).p).setCycles (s.cycles + decimalCycle s) := by
  have h : f (operandValue o s) ((readOperand o s).setPenalty true) = f (operandValue o s) s :=
    hf _ _ _ (by simp) (by simp) (by simp)
  have hv : ((readOperand o s).setPenalty true).scratch.value = operandValue o s := by simp [readOperand_value]
  simp only [arithmeticHandler, hv, h]
  simp [decimalCycle]

theorem branchHandler_eq (cond : Flags → Bool) (s : State) :
    branchHandler cond s =
      if cond s.p then
        (s.setCycles (s.cycles + 1 + if pagesDiffer (branchTarget s.pc s.scratch.rel) s.pc then 1 else 0)).setPc
          (branchTarget s.pc s.scratch.rel)
      else s := rfl

/-- RTS: two bytes pulled, PC the address after (R413). -/
theorem rtsHandler_eq (s : State) :
    let lo := busRead (stackAddr (s.sp + 1)) s
    let hi := busRead (stackAddr (s.sp + 2)) lo.2
    rtsHandler s = ((s.setBusLog hi.2.busLog).setSp (s.sp + 2)).setPc (mkAddr hi.1 lo.1 + 1) := by
  ext1 <;> simp [rtsHandler, pull16_eq, busRead_eq]

/-! ## What every instruction keeps -/

/-- What no instruction changes, and what it may only add to: the latches, the hook slot, the sequencer and the
configuration stand, the bus record grows, and memory stays canonical. -/
structure Keeps (s t : State) : Prop where
  nmi : t.nmiPending = s.nmiPending
  irq : t.irqPending = s.irqPending
  hook : t.hook = s.hook
  seq : t.seq = s.seq
  cfg : t.cfg = s.cfg
  record : ∃ events, t.busLog = events ++ s.busLog
  memory : Memory.wf s.mem = true → Memory.wf t.mem = true

theorem Keeps.refl (s : State) : Keeps s s := ⟨rfl, rfl, rfl, rfl, rfl, ⟨[], rfl⟩, id⟩

theorem Keeps.trans {s t u : State} (h : Keeps s t) (h' : Keeps t u) : Keeps s u := by
  obtain ⟨e, he⟩ := h.record
  obtain ⟨e', he'⟩ := h'.record
  exact ⟨h'.nmi.trans h.nmi, h'.irq.trans h.irq, h'.hook.trans h.hook, h'.seq.trans h.seq, h'.cfg.trans h.cfg,
    ⟨e' ++ e, by rw [he', he, List.append_assoc]⟩, fun hw => h'.memory (h.memory hw)⟩

variable {s t : State}

theorem Keeps.setA (h : Keeps s t) (v : Byte) : Keeps s (t.setA v) := h.trans ⟨rfl, rfl, rfl, rfl, rfl, ⟨[], rfl⟩, id⟩
theorem Keeps.setX (h : Keeps s t) (v : Byte) : Keeps s (t.setX v) := h.trans ⟨rfl, rfl, rfl, rfl, rfl, ⟨[], rfl⟩, id⟩
theorem Keeps.setY (h : Keeps s t) (v : Byte) : Keeps s (t.setY v) := h.trans ⟨rfl, rfl, rfl, rfl, rfl, ⟨[], rfl⟩, id⟩
theorem Keeps.setSp (h : Keeps s t) (v : Byte) : Keeps s (t.setSp v) := h.trans ⟨rfl, rfl, rfl, rfl, rfl, ⟨[], rfl⟩, id⟩
theorem Keeps.setPc (h : Keeps s t) (v : Addr) : Keeps s (t.setPc v) := h.trans ⟨rfl, rfl, rfl, rfl, rfl, ⟨[], rfl⟩, id⟩
theorem Keeps.setP (h : Keeps s t) (v : Flags) : Keeps s (t.setP v) := h.trans ⟨rfl, rfl, rfl, rfl, rfl, ⟨[], rfl⟩, id⟩
theorem Keeps.setScratch (h : Keeps s t) (v : Scratch) : Keeps s (t.setScratch v) := h.trans ⟨rfl, rfl, rfl, rfl, rfl, ⟨[], rfl⟩, id⟩
theorem Keeps.setCycles (h : Keeps s t) (v : Nat) : Keeps s (t.setCycles v) := h.trans ⟨rfl, rfl, rfl, rfl, rfl, ⟨[], rfl⟩, id⟩
theorem Keeps.setInstructions (h : Keeps s t) (v : Nat) : Keeps s (t.setInstructions v) := h.trans ⟨rfl, rfl, rfl, rfl, rfl, ⟨[], rfl⟩, id⟩
theorem Keeps.setLastStep (h : Keeps s t) (v : Option StepResult) : Keeps s (t.setLastStep v) := h.trans ⟨rfl, rfl, rfl, rfl, rfl, ⟨[], rfl⟩, id⟩

theorem Keeps.busRead (h : Keeps s t) (a : Addr) : Keeps s (busRead a t).2 :=
  h.trans ⟨rfl, rfl, rfl, rfl, rfl, ⟨[_], rfl⟩, id⟩

theorem Keeps.busWrite (h : Keeps s t) (a : Addr) (v : Byte) : Keeps s (busWrite a v t) :=
  h.trans ⟨by simp [busWrite_eq], by simp [busWrite_eq], by simp [busWrite_eq], by simp [busWrite_eq],
    by simp [busWrite_eq], ⟨[.write a v], by simp [busWrite_eq]⟩, busWrite_wf⟩

theorem Keeps.fetch (h : Keeps s t) : Keeps s (fetch t).2 := (h.busRead t.pc).setPc _

theorem Keeps.pull (h : Keeps s t) : Keeps s (pull t).2 := (h.setSp (t.sp + 1)).busRead _

theorem Keeps.push (h : Keeps s t) (v : Byte) : Keeps s (push v t) := (h.busWrite _ v).setSp _

theorem Keeps.push16 (h : Keeps s t) (v : Addr) : Keeps s (push16 v t) := (h.push _).push _

theorem Keeps.pull16 (h : Keeps s t) : Keeps s (pull16 t).2 := h.pull.pull

theorem Keeps.resolve (h : Keeps s t) (o : Operand) : Keeps s (resolve o t) :=
  h.trans ⟨by simp, by simp, by simp, by simp, by simp, resolve_busLog o t, by simp⟩

theorem Keeps.fetchAndResolve (h : Keeps s t) (m : Mode) : Keeps s (fetchAndResolve m t) :=
  h.trans ⟨by simp, by simp, by simp, by simp, by simp, fetchAndResolve_busLog m t, by simp⟩

theorem operandLog_extends (o : Operand) (s : State) : ∃ events, operandLog o s = events ++ s.busLog := by
  unfold operandLog
  split
  · exact ⟨[], rfl⟩
  · split
    · exact ⟨[], rfl⟩
    · exact ⟨[_], rfl⟩

theorem Keeps.readOperand (h : Keeps s t) (o : Operand) : Keeps s (readOperand o t) :=
  h.trans ⟨by simp, by simp, by simp, by simp, by simp,
    by rw [readOperand_eq]; exact operandLog_extends o t, by simp⟩

theorem Keeps.writeOperand (h : Keeps s t) (v : Byte) : Keeps s (writeOperand v t) := by
  rw [writeOperand_eq]
  split
  · exact h.setA v
  · exact h.busWrite _ v

theorem Keeps.account (h : Keeps s t) (start base : Nat) : Keeps s (account start base t) :=
  ((h.setCycles _).setInstructions _).setLastStep _

theorem Keeps.enterException (h : Keeps s t) (b : Bool) (vec : Addr) : Keeps s (enterException b vec t) :=
  (((((h.push16 _).push _).setP _).busRead _).busRead _).setPc _

theorem Keeps.returnFromException (h : Keeps s t) : Keeps s (returnFromException t) :=
  ((h.pull.setP _).pull16).setPc _

theorem Keeps.rmwHandler (h : Keeps s t) (f : Byte → Flags → AluResult) (o : Operand) : Keeps s (rmwHandler f o t) :=
  ((h.readOperand o).setP _).writeOperand _

theorem Keeps.branchHandler (h : Keeps s t) (cond : Flags → Bool) : Keeps s (branchHandler cond t) := by
  rw [branchHandler_eq]
  split
  · exact (h.setCycles _).setPc _
  · exact h

/-! ## The handler of each instruction -/

/-- The handler table (R500): what each documented instruction's handler does to the state its resolver leaves. -/
def handlerOf : Instr → State → State
  | .lda o => loadHandler State.setA o
  | .ldx o => loadHandler State.setX o
  | .ldy o => loadHandler State.setY o
  | .sta _ => fun t => busWrite t.scratch.ea t.a t
  | .stx _ => fun t => busWrite t.scratch.ea t.x t
  | .sty _ => fun t => busWrite t.scratch.ea t.y t
  | .tax => fun t => (t.setX t.a).setNZ t.a
  | .tay => fun t => (t.setY t.a).setNZ t.a
  | .txa => fun t => (t.setA t.x).setNZ t.x
  | .tya => fun t => (t.setA t.y).setNZ t.y
  | .tsx => fun t => (t.setX t.sp).setNZ t.sp
  | .txs => fun t => t.setSp t.x
  | .adc o => arithmeticHandler adcResult o
  | .sbc o => arithmeticHandler sbcResult o
  | .cmp o => fun t => (compareHandler State.a o t).setPenalty true
  | .cpx o => compareHandler State.x o
  | .cpy o => compareHandler State.y o
  | .and o => logicHandler (fun a m => a &&& m) o
  | .ora o => logicHandler (fun a m => a ||| m) o
  | .eor o => logicHandler (fun a m => a ^^^ m) o
  | .bit o => bitHandler o
  | .asl o => rmwHandler aslResult o
  | .lsr o => rmwHandler lsrResult o
  | .rol o => rmwHandler rolResult o
  | .ror o => rmwHandler rorResult o
  | .inc o => rmwHandler incResult o
  | .dec o => rmwHandler decResult o
  | .inx => fun t => (t.setX (t.x + 1)).setNZ (t.x + 1)
  | .iny => fun t => (t.setY (t.y + 1)).setNZ (t.y + 1)
  | .dex => fun t => (t.setX (t.x - 1)).setNZ (t.x - 1)
  | .dey => fun t => (t.setY (t.y - 1)).setNZ (t.y - 1)
  | .bpl _ => branchHandler (fun p => !p.n)
  | .bmi _ => branchHandler (fun p => p.n)
  | .bvc _ => branchHandler (fun p => !p.v)
  | .bvs _ => branchHandler (fun p => p.v)
  | .bcc _ => branchHandler (fun p => !p.c)
  | .bcs _ => branchHandler (fun p => p.c)
  | .bne _ => branchHandler (fun p => !p.z)
  | .beq _ => branchHandler (fun p => p.z)
  | .jmpAbs _ => fun t => t.setPc t.scratch.ea
  | .jmpInd _ => fun t => t.setPc t.scratch.ea
  | .jsr _ => fun t => (push16 (t.pc - 1) t).setPc t.scratch.ea
  | .rts => rtsHandler
  | .pha => fun t => push t.a t
  | .pla => plaHandler
  | .php => fun t => push (pImage true t.p) t
  | .plp => plpHandler
  | .clc => fun t => t.setP { t.p with c := false }
  | .sec => fun t => t.setP { t.p with c := true }
  | .cli => fun t => t.setP { t.p with i := false }
  | .sei => fun t => t.setP { t.p with i := true }
  | .cld => fun t => t.setP { t.p with d := false }
  | .sed => fun t => t.setP { t.p with d := true }
  | .clv => fun t => t.setP { t.p with v := false }
  | .nop => fun t => t
  | .brk => fun t => enterException true 0xFFFE (t.setPc (t.pc + 1))
  | .rti => returnFromException
  | .illegal _ => fun t => t

/-- Every documented instruction's meaning is its handler in the common frame. -/
theorem exec_documented {i : Instr} (h : documented i = true) (s : State) : exec i s = perform i (handlerOf i) s := by
  cases i with
  | illegal op => cases h
  | _ => rfl

/-- What a next state of a documented instruction is. -/
theorem exec_next {i : Instr} (hd : documented i = true) {s t : State} (h : exec i s = .next t) :
    ∃ op, opcodeOf i = some op ∧
      t = account s.cycles (baseCycles s.cfg.variant op) (handlerOf i (resolve i.operand s.clearScratch)) :=
  perform_next (exec_documented hd s ▸ h)

theorem Keeps.handlerOf (h : Keeps s t) (i : Instr) : Keeps s (handlerOf i t) := by
  cases i with
  | lda o => exact (((h.readOperand o).setA _).setP _).setScratch _
  | ldx o => exact (((h.readOperand o).setX _).setP _).setScratch _
  | ldy o => exact (((h.readOperand o).setY _).setP _).setScratch _
  | sta o => exact h.busWrite _ _
  | stx o => exact h.busWrite _ _
  | sty o => exact h.busWrite _ _
  | adc o => exact ((((h.readOperand o).setScratch _).setA _).setP _).setCycles _
  | sbc o => exact ((((h.readOperand o).setScratch _).setA _).setP _).setCycles _
  | cmp o => exact ((h.readOperand o).setP _).setScratch _
  | cpx o => exact (h.readOperand o).setP _
  | cpy o => exact (h.readOperand o).setP _
  | and o => exact (((h.readOperand o).setA _).setP _).setScratch _
  | ora o => exact (((h.readOperand o).setA _).setP _).setScratch _
  | eor o => exact (((h.readOperand o).setA _).setP _).setScratch _
  | bit o => exact (h.readOperand o).setP _
  | asl o => exact h.rmwHandler _ o
  | lsr o => exact h.rmwHandler _ o
  | rol o => exact h.rmwHandler _ o
  | ror o => exact h.rmwHandler _ o
  | inc o => exact h.rmwHandler _ o
  | dec o => exact h.rmwHandler _ o
  | bpl r => exact h.branchHandler (fun p => !p.n)
  | bmi r => exact h.branchHandler _
  | bvc r => exact h.branchHandler (fun p => !p.v)
  | bvs r => exact h.branchHandler _
  | bcc r => exact h.branchHandler (fun p => !p.c)
  | bcs r => exact h.branchHandler _
  | bne r => exact h.branchHandler (fun p => !p.z)
  | beq r => exact h.branchHandler _
  | tax => exact (h.setX _).setP _
  | tay => exact (h.setY _).setP _
  | txa => exact (h.setA _).setP _
  | tya => exact (h.setA _).setP _
  | tsx => exact (h.setX _).setP _
  | txs => exact h.setSp _
  | inx => exact (h.setX _).setP _
  | iny => exact (h.setY _).setP _
  | dex => exact (h.setX _).setP _
  | dey => exact (h.setY _).setP _
  | jmpAbs w => exact h.setPc _
  | jmpInd w => exact h.setPc _
  | jsr w => exact (h.push16 _).setPc _
  | rts => exact h.pull16.setPc _
  | pha => exact h.push _
  | php => exact h.push _
  | pla => exact (h.pull.setA _).setP _
  | plp => exact h.pull.setP _
  | brk => exact (h.setPc _).enterException _ _
  | rti => exact h.returnFromException
  | nop => exact h
  | illegal op => exact h
  | clc => exact h.setP _
  | sec => exact h.setP _
  | cli => exact h.setP _
  | sei => exact h.setP _
  | cld => exact h.setP _
  | sed => exact h.setP _
  | clv => exact h.setP _

/-! ## Illegal opcodes (R467, R502, R620) -/

/-- What an illegal opcode does (R502): refused, run as a NOP of a shape, or raised. -/
theorem execIllegal_cases (op : Byte) (s : State) :
    (∃ r, execIllegal op s = .refused r) ∨
    (∃ sh, (op, sh) ∈ s.cfg.illegalShape ∧ execIllegal op s = .next (performNop sh s)) ∨
    execIllegal op s = .next (raiseIllegal op s) := by
  unfold execIllegal
  split
  · exact .inl ⟨_, rfl⟩
  · rename_i op' hop
    obtain rfl : op = op' := by
      simp only [opcodeOf] at hop
      split at hop
      · simpa using hop
      · cases hop
    split
    · exact .inl ⟨_, rfl⟩
    · split
      · rename_i sh hsh
        refine .inr (.inl ⟨sh, ?_, rfl⟩)
        simp only [illegalAction] at hsh
        split at hsh
        · cases hsh
        · simp only [shapeOf, Option.map_eq_some_iff] at hsh
          obtain ⟨⟨k, sh'⟩, hf, rfl⟩ := hsh
          have := List.find?_some hf
          simp only [beq_iff_eq] at this
          subst this
          exact List.mem_of_find?_eq_some hf
      · exact .inr (.inr rfl)

theorem Keeps.performNop (h : Keeps s t) (sh : Shape) : Keeps s (performNop sh t) :=
  (((h.setScratch _).fetchAndResolve sh.mode).setScratch _).account _ _

theorem Keeps.raiseIllegal (h : Keeps s t) (op : Byte) : Keeps s (raiseIllegal op t) := (h.setPc _).setLastStep _

/-- No instruction changes the latches, the hook slot, the sequencer or the configuration, takes an event from the bus
record or breaks the form of memory. -/
theorem exec_keeps {i : Instr} {s t : State} (h : exec i s = .next t) : Keeps s t := by
  by_cases hd : documented i = true
  · obtain ⟨op, _, rfl⟩ := exec_next hd h
    exact ((((Keeps.refl s).setScratch _).resolve _).handlerOf i).account _ _
  · cases i with
    | illegal op =>
      obtain ⟨r, hr⟩ | ⟨sh, _, hr⟩ | hr := execIllegal_cases op s <;>
        simp only [exec, hr, Host.Outcome.next.injEq, reduceCtorEq] at h <;> subst h
      · exact (Keeps.refl s).performNop sh
      · exact (Keeps.refl s).raiseIllegal op
    | _ => exact absurd rfl hd

end Sys2Proof.Machine
end

