-- ==== Sys2Proof/Laws/Counters.lean ====
section
/-! SUPPORT. What each handler adds to the counters and does to the penalty flags (spec R504, R510, R511), what one
instruction adds in all, and the frame of the interrupt check (R613). -/

namespace Sys2Proof.Machine

/-- The most cycles an instruction's handler adds by itself: a branch's, and the Cmos decimal cycle (R400, R741). -/
def extraCycles : Instr → Nat
  | .adc _ | .sbc _ => 1
  | .bpl _ | .bmi _ | .bvc _ | .bvs _ | .bcc _ | .bcs _ | .bne _ | .beq _ => 2
  | _ => 0

/-- The instructions whose handler sets `op_penalty` (R504). -/
def setsPenalty : Instr → Bool
  | .lda _ | .ldx _ | .ldy _ | .adc _ | .sbc _ | .cmp _ | .and _ | .ora _ | .eor _ => true
  | _ => false

theorem branchHandler_counters (cond : Flags → Bool) (s : State) :
    (branchHandler cond s).instructions = s.instructions ∧
    (∃ k, k ≤ 2 ∧ (branchHandler cond s).cycles = s.cycles + k) ∧
    (branchHandler cond s).scratch = s.scratch := by
  rw [branchHandler_eq]
  split
  · refine ⟨rfl, ⟨1 + if pagesDiffer (branchTarget s.pc s.scratch.rel) s.pc then 1 else 0, ?_, ?_⟩, rfl⟩
    · split <;> omega
    · simp [Nat.add_assoc]
  · exact ⟨rfl, ⟨0, by omega, rfl⟩, rfl⟩

theorem rmwHandler_counters (f : Byte → Flags → AluResult) (o : Operand) (s : State) :
    (rmwHandler f o s).instructions = s.instructions ∧ (rmwHandler f o s).cycles = s.cycles ∧
    (rmwHandler f o s).scratch.pageCross = s.scratch.pageCross ∧
    (rmwHandler f o s).scratch.opPenalty = s.scratch.opPenalty := by
  rw [rmwHandler_eq, writeOperand_eq]
  split <;> simp [busWrite_eq, readOperand_eq]

theorem arithmeticHandler_counters {f : Byte → State → AluResult}
    (hf : ∀ m s t, t.a = s.a → t.p = s.p → t.cfg = s.cfg → f m t = f m s) (o : Operand) (s : State) :
    (arithmeticHandler f o s).instructions = s.instructions ∧
    (arithmeticHandler f o s).cycles = s.cycles + decimalCycle s ∧
    (arithmeticHandler f o s).scratch.pageCross = s.scratch.pageCross ∧
    (arithmeticHandler f o s).scratch.opPenalty = true := by
  rw [arithmeticHandler_eq hf]
  simp [readOperand_eq]

theorem decimalCycle_le (s : State) : decimalCycle s ≤ 1 := by unfold decimalCycle; split <;> omega

theorem penaltyCycles_le (s : State) : penaltyCycles s ≤ 1 := by unfold penaltyCycles; split <;> omega

/-- What a handler does to the counters and the penalty flags: it counts no instruction, adds at most `extraCycles`,
leaves `page_cross` and sets `op_penalty` only where `setsPenalty` says so. -/
theorem handlerOf_counters (i : Instr) (s : State) :
    (handlerOf i s).instructions = s.instructions ∧
    (∃ k, k ≤ extraCycles i ∧ (handlerOf i s).cycles = s.cycles + k) ∧
    (handlerOf i s).scratch.pageCross = s.scratch.pageCross ∧
    (handlerOf i s).scratch.opPenalty = (setsPenalty i || s.scratch.opPenalty) := by
  have branch : ∀ c, (branchHandler c s).instructions = s.instructions ∧
      (∃ k, k ≤ 2 ∧ (branchHandler c s).cycles = s.cycles + k) ∧
      (branchHandler c s).scratch.pageCross = s.scratch.pageCross ∧
      (branchHandler c s).scratch.opPenalty = (false || s.scratch.opPenalty) := fun c => by
    obtain ⟨h1, h2, h3⟩ := branchHandler_counters c s
    exact ⟨h1, h2, by rw [h3], by rw [h3]; rfl⟩
  have rmw : ∀ f o, (rmwHandler f o s).instructions = s.instructions ∧
      (∃ k, k ≤ 0 ∧ (rmwHandler f o s).cycles = s.cycles + k) ∧
      (rmwHandler f o s).scratch.pageCross = s.scratch.pageCross ∧
      (rmwHandler f o s).scratch.opPenalty = (false || s.scratch.opPenalty) := fun f o => by
    obtain ⟨h1, h2, h3, h4⟩ := rmwHandler_counters f o s
    exact ⟨h1, ⟨0, le_rfl, h2⟩, h3, h4⟩
  have arith : ∀ f o, (∀ m s t, t.a = s.a → t.p = s.p → t.cfg = s.cfg → f m t = f m s) →
      (arithmeticHandler f o s).instructions = s.instructions ∧
      (∃ k, k ≤ 1 ∧ (arithmeticHandler f o s).cycles = s.cycles + k) ∧
      (arithmeticHandler f o s).scratch.pageCross = s.scratch.pageCross ∧
      (arithmeticHandler f o s).scratch.opPenalty = (true || s.scratch.opPenalty) := fun f o hf => by
    obtain ⟨h1, h2, h3, h4⟩ := arithmeticHandler_counters hf o s
    exact ⟨h1, ⟨_, decimalCycle_le s, h2⟩, h3, h4⟩
  cases i with
  | adc o => exact arith _ o fun m _ _ => adcResult_congr m
  | sbc o => exact arith _ o fun m _ _ => sbcResult_congr m
  | asl o => exact rmw _ o
  | lsr o => exact rmw _ o
  | rol o => exact rmw _ o
  | ror o => exact rmw _ o
  | inc o => exact rmw _ o
  | dec o => exact rmw _ o
  | bpl r => exact branch (fun p => !p.n)
  | bmi r => exact branch _
  | bvc r => exact branch (fun p => !p.v)
  | bvs r => exact branch _
  | bcc r => exact branch (fun p => !p.c)
  | bcs r => exact branch _
  | bne r => exact branch (fun p => !p.z)
  | beq r => exact branch _
  | _ =>
    simp [handlerOf, extraCycles, setsPenalty, loadHandler_eq, logicHandler_eq, compareHandler_eq, bitHandler_eq,
      busWrite_eq, State.setNZ, push_eq, push16_eq, rtsHandler_eq, plaHandler, plpHandler, pull_eq,
      enterException_eq, returnFromException_eq, readOperand_eq]

/-- The page-crossing penalty of an instruction (R510): only where its mode crossed and its handler set `op_penalty`. -/
theorem handlerOf_penalty (i : Instr) {s : State} (h : s.scratch.opPenalty = false) :
    penaltyCycles (handlerOf i s) = if s.scratch.pageCross && setsPenalty i then 1 else 0 := by
  obtain ⟨-, -, hp, ho⟩ := handlerOf_counters i s
  rw [penaltyCycles, hp, ho, h, Bool.or_false]

/-- What executing an instruction does to the counters: it completes with its cycles and one instruction more, or it is
an illegal opcode that raises (R511, R620). -/
theorem exec_counters {i : Instr} {s t : State} (h : exec i s = .next t) :
    (∃ n, t.lastStep = some (.ok n) ∧ t.cycles = s.cycles + n ∧ t.instructions = s.instructions + 1) ∨
    (∃ op, i = .illegal op ∧ t = raiseIllegal op s) := by
  by_cases hd : documented i = true
  · obtain ⟨op, -, rfl⟩ := exec_next hd h
    obtain ⟨h1, ⟨k, -, h2⟩, -⟩ := handlerOf_counters i (resolve i.operand s.clearScratch)
    obtain ⟨a1, a2, a3⟩ := account_counters s.cycles (baseCycles s.cfg.variant op)
      (handlerOf i (resolve i.operand s.clearScratch))
    have hc : (resolve i.operand s.clearScratch).cycles = s.cycles := by simp
    have hi : (resolve i.operand s.clearScratch).instructions = s.instructions := by simp
    rw [h2, hc] at a1 a3
    rw [h1, hi] at a2
    exact .inl ⟨_, a3, by rw [a1]; omega, a2⟩
  · cases i with
    | illegal op =>
      obtain ⟨r, hr⟩ | ⟨sh, -, hr⟩ | hr := execIllegal_cases op s <;>
        simp only [exec, hr, Host.Outcome.next.injEq, reduceCtorEq] at h <;> subst h
      · refine .inl ⟨_, rfl, ?_, ?_⟩
        · simp [performNop, account, penaltyCycles]; omega
        · simp [performNop, account]
      · exact .inr ⟨op, rfl, rfl⟩
    | _ => exact absurd rfl hd

/-! ## Interrupt entry and the interrupt check (R610, R613) -/

theorem Keeps.interruptEntry {s t : State} (h : Keeps s t) (vec : Addr) : Keeps s (interruptEntry vec t) :=
  (h.enterException _ _).setCycles _

/-- An entry costs 7 cycles and counts no instruction (R610). -/
theorem interruptEntry_counters (vec : Addr) (s : State) :
    (interruptEntry vec s).cycles = s.cycles + 7 ∧ (interruptEntry vec s).instructions = s.instructions ∧
    (interruptEntry vec s).lastStep = s.lastStep ∧ (interruptEntry vec s).scratch = s.scratch := by
  simp [Machine.interruptEntry, enterException_eq, push_eq, push16_eq]

/-- The interrupt check leaves both latches 0, and the hook slot, the sequencer and the configuration as they are; it
costs an entry's 7 cycles or none, and counts no instruction (R613). -/
theorem serviceInterrupts_frame (s : State) :
    (serviceInterrupts s).nmiPending = false ∧ (serviceInterrupts s).irqPending = false ∧
    (serviceInterrupts s).hook = s.hook ∧ (serviceInterrupts s).seq = s.seq ∧ (serviceInterrupts s).cfg = s.cfg ∧
    (∃ events, (serviceInterrupts s).busLog = events ++ s.busLog) ∧
    ((serviceInterrupts s).cycles = s.cycles ∨ (serviceInterrupts s).cycles = s.cycles + 7) ∧
    (serviceInterrupts s).instructions = s.instructions ∧ (serviceInterrupts s).lastStep = s.lastStep := by
  have entry : ∀ (vec : Addr) (u : State), u.nmiPending = false → u.irqPending = false → u.hook = s.hook →
      u.seq = s.seq → u.cfg = s.cfg → u.busLog = s.busLog → u.cycles = s.cycles → u.instructions = s.instructions →
      u.lastStep = s.lastStep → _ := fun vec u h1 h2 h3 h4 h5 h6 h7 h8 h9 => by
    have k := (Keeps.refl u).interruptEntry vec
    obtain ⟨c1, c2, c3, -⟩ := interruptEntry_counters vec u
    exact (⟨k.nmi.trans h1, k.irq.trans h2, k.hook.trans h3, k.seq.trans h4, k.cfg.trans h5, h6 ▸ k.record,
      .inr (by rw [c1, h7]), c2.trans h8, c3.trans h9⟩ :
      (interruptEntry vec u).nmiPending = false ∧ (interruptEntry vec u).irqPending = false ∧
      (interruptEntry vec u).hook = s.hook ∧ (interruptEntry vec u).seq = s.seq ∧
      (interruptEntry vec u).cfg = s.cfg ∧ (∃ events, (interruptEntry vec u).busLog = events ++ s.busLog) ∧
      ((interruptEntry vec u).cycles = s.cycles ∨ (interruptEntry vec u).cycles = s.cycles + 7) ∧
      (interruptEntry vec u).instructions = s.instructions ∧ (interruptEntry vec u).lastStep = s.lastStep)
  obtain ⟨_, h⟩ | ⟨hn, _, _, h⟩ | ⟨hn, _, h⟩ := serviceInterrupts_cases s <;> rw [h]
  · exact entry _ _ rfl rfl rfl rfl rfl rfl rfl rfl rfl
  · exact entry _ _ hn rfl rfl rfl rfl rfl rfl rfl rfl
  · exact ⟨hn, rfl, rfl, rfl, rfl, ⟨[], rfl⟩, .inl rfl, rfl, rfl⟩

end Sys2Proof.Machine
end

