-- ==== Sys2Proof/Laws/Flags.lean ====
section
/-! SUPPORT. The flag computations of Machine/Flags.lean said in numbers: each law gives, once, everything the
operation answers, so that no proof unfolds its bits. -/

namespace Sys2Proof.Machine

/-! ## Bytes as numbers -/

theorem getLsbD_seven (v : Byte) : v.getLsbD 7 = decide (128 ≤ v.toNat) := by revert v; decide

theorem getLsbD_six (v : Byte) : v.getLsbD 6 = decide (v.toNat / 64 % 2 = 1) := by revert v; decide

theorem getLsbD_zero (v : Byte) : v.getLsbD 0 = decide (v.toNat % 2 = 1) := by revert v; decide

theorem beq_zero_byte (v : Byte) : (v == 0) = decide (v.toNat = 0) := by revert v; decide

theorem complement_toNat (v : Byte) : (v ^^^ 0xFF).toNat = 255 - v.toNat := by revert v; decide

theorem complement_toInt (v : Byte) : (v ^^^ 0xFF).toInt = -v.toInt - 1 := by revert v; decide

theorem toInt_byte (v : Byte) : v.toInt = if v.toNat < 128 then (v.toNat : Int) else v.toNat - 256 := by
  revert v; decide

theorem highDigit_eq (v : Byte) : highDigit v = v.toNat / 16 * 16 := by revert v; decide

theorem lowDigit_eq (v : Byte) : lowDigit v = v.toNat % 16 := by revert v; decide

theorem highDigit_toInt (v : Byte) :
    (v &&& 0xF0).toInt = if v.toNat / 16 * 16 < 128 then ((v.toNat / 16 * 16 : Nat) : Int)
      else ((v.toNat / 16 * 16 : Nat) : Int) - 256 := by revert v; decide

theorem carryNat_le (c : Bool) : carryNat c ≤ 1 := by cases c <;> decide

theorem carryNat_eq (c : Bool) : carryNat c = c.toNat := by cases c <;> rfl

/-- N is bit 7 and Z says that the byte is 0 (R22). -/
theorem nzFlags_eq (p : Flags) (v : Byte) :
    nzFlags p v = { p with n := decide (128 ≤ v.toNat), z := decide (v.toNat = 0) } := by
  rw [nzFlags, getLsbD_seven, beq_zero_byte]

/-! ## Add and subtract -/

/-- The two's-complement overflow of `a + m + c` as R302 computes it: the signed sum is out of range. -/
theorem overflow_eq (a m : Byte) (c : Bool) :
    let r := BitVec.ofNat 8 (a.toNat + m.toNat + carryNat c)
    ((a ^^^ r) &&& (m ^^^ r)).getLsbD 7 =
      decide (a.toInt + m.toInt + carryNat c < -128 ∨ 127 < a.toInt + m.toInt + carryNat c) := by
  have ha := a.isLt
  have hm := m.isLt
  have hk := carryNat_le c
  simp only [BitVec.getLsbD_and, BitVec.getLsbD_xor]
  simp only [toInt_byte, getLsbD_seven, BitVec.toNat_ofNat]
  generalize a.toNat = x at *
  generalize m.toNat = y at *
  generalize carryNat c = k at *
  have hx : (x < 128) ↔ ¬ 128 ≤ x := by omega
  have hy : (y < 128) ↔ ¬ 128 ≤ y := by omega
  by_cases h1 : 128 ≤ x <;> by_cases h2 : 128 ≤ y <;> by_cases h3 : 128 ≤ (x + y + k) % 2 ^ 8 <;>
    simp only [hx, hy, h1, h2, h3, decide_true, decide_false, Bool.xor_true, Bool.xor_false, Bool.not_true,
      Bool.not_false, Bool.and_true, Bool.and_false, not_true, not_false_eq_true, if_true, if_false] <;>
    symm <;> simp only [decide_eq_true_eq, decide_eq_false_iff_not] <;> omega

/-- `AdcBinary` (R302). -/
theorem adcBinary_eq (a m : Byte) (p : Flags) :
    let t := a.toNat + m.toNat + carryNat p.c
    adcBinary a m p =
      { value := BitVec.ofNat 8 t
        p := nzFlags
          { p with
            c := decide (256 ≤ t)
            v := decide (a.toInt + m.toInt + carryNat p.c < -128 ∨ 127 < a.toInt + m.toInt + carryNat p.c) }
          (BitVec.ofNat 8 t) } := by
  simp only [adcBinary, overflow_eq]

/-- `SbcBinary` (R305): the exact difference with borrow, C where there is none, V where the signed one is out of range. -/
theorem sbcBinary_eq (a m : Byte) (p : Flags) :
    let t : Int := (a.toNat : Int) - m.toNat - (1 - carryNat p.c)
    let signed := a.toInt - m.toInt - (1 - carryNat p.c)
    sbcBinary a m p =
      { value := BitVec.ofInt 8 t
        p := nzFlags { p with c := decide (0 ≤ t), v := decide (signed < -128 ∨ 127 < signed) } (BitVec.ofInt 8 t) } := by
  have hm := m.isLt
  have hk := carryNat_le p.c
  have hr : BitVec.ofNat 8 (a.toNat + (m ^^^ 0xFF).toNat + carryNat p.c)
      = BitVec.ofInt 8 ((a.toNat : Int) - m.toNat - (1 - carryNat p.c)) := by
    apply BitVec.eq_of_toNat_eq
    rw [BitVec.toNat_ofNat, BitVec.toNat_ofInt, complement_toNat]
    omega
  have hs : a.toInt + (m ^^^ 0xFF).toInt + carryNat p.c = a.toInt - m.toInt - (1 - carryNat p.c) := by
    rw [complement_toInt]; ring
  have hc : (256 ≤ a.toNat + (m ^^^ 0xFF).toNat + carryNat p.c) ↔
      (0 ≤ (a.toNat : Int) - m.toNat - (1 - carryNat p.c)) := by rw [complement_toNat]; omega
  simp only [sbcBinary, adcBinary_eq, hr, hs, hc]

/-- C and V of the decimal subtract are those of the binary one, on both variants (R306). -/
theorem sbcDecimal_carry_overflow (cmos : Bool) (a m : Byte) (p : Flags) :
    (sbcDecimal cmos a m p).p.c = (sbcBinary a m p).p.c ∧ (sbcDecimal cmos a m p).p.v = (sbcBinary a m p).p.v := by
  cases cmos <;> exact ⟨rfl, rfl⟩

/-- Decimal arithmetic leaves D and I (R303, R306). -/
theorem decimal_keeps (cmos : Bool) (a m : Byte) (p : Flags) :
    (adcDecimal cmos a m p).p.d = p.d ∧ (adcDecimal cmos a m p).p.i = p.i ∧
    (sbcDecimal cmos a m p).p.d = p.d ∧ (sbcDecimal cmos a m p).p.i = p.i := by
  cases cmos <;> exact ⟨rfl, rfl, rfl, rfl⟩

/-! ## Compare and BIT -/

/-- `Compare` (R307): Z says equal, C says that the register is not below the operand. -/
theorem compareFlags_eq (reg m : Byte) (p : Flags) :
    compareFlags reg m p =
      { p with
        n := decide (128 ≤ (reg.toNat + 256 - m.toNat) % 256)
        z := decide (reg = m)
        c := decide (m.toNat ≤ reg.toNat) } := by
  have h1 := reg.isLt
  have h2 := m.isLt
  have ht : reg.toNat + (m ^^^ 0xFF).toNat + 1 = reg.toNat + 256 - m.toNat := by rw [complement_toNat]; omega
  simp only [compareFlags, ht, nzFlags_eq, BitVec.toNat_ofNat]
  congr 1
  · rw [decide_eq_decide, BitVec.toNat_eq]; omega
  · rw [decide_eq_decide]; omega

/-- BIT (R354). -/
theorem bitFlags_eq (a m : Byte) (p : Flags) :
    bitFlags a m p =
      { p with
        z := decide ((a &&& m).toNat = 0), n := decide (128 ≤ m.toNat), v := decide (m.toNat / 64 % 2 = 1) } := by
  rw [bitFlags, getLsbD_seven, getLsbD_six, beq_zero_byte]

/-! ## Shifts, increments and decrements -/

/-- ASL (R356). -/
theorem aslResult_eq (v : Byte) (p : Flags) :
    aslResult v p =
      { value := BitVec.ofNat 8 (v.toNat * 2)
        p := nzFlags { p with c := decide (128 ≤ v.toNat) } (BitVec.ofNat 8 (v.toNat * 2)) } := by
  have h : v <<< 1 = BitVec.ofNat 8 (v.toNat * 2) := by revert v; decide
  simp only [aslResult, h, getLsbD_seven]

/-- LSR (R357). -/
theorem lsrResult_eq (v : Byte) (p : Flags) :
    lsrResult v p =
      { value := BitVec.ofNat 8 (v.toNat / 2)
        p := nzFlags { p with c := decide (v.toNat % 2 = 1) } (BitVec.ofNat 8 (v.toNat / 2)) } := by
  have h : v >>> 1 = BitVec.ofNat 8 (v.toNat / 2) := by revert v; decide
  simp only [lsrResult, h, getLsbD_zero]

/-- ROL (R358). -/
theorem rolResult_eq (v : Byte) (p : Flags) :
    rolResult v p =
      { value := BitVec.ofNat 8 (v.toNat * 2 + p.c.toNat)
        p := nzFlags { p with c := decide (128 ≤ v.toNat) } (BitVec.ofNat 8 (v.toNat * 2 + p.c.toNat)) } := by
  have h : v <<< 1 ||| bitByte p.c = BitVec.ofNat 8 (v.toNat * 2 + p.c.toNat) := by
    revert v; cases p.c <;> decide
  simp only [rolResult, h, getLsbD_seven]

/-- ROR (R359). -/
theorem rorResult_eq (v : Byte) (p : Flags) :
    rorResult v p =
      { value := BitVec.ofNat 8 (v.toNat / 2 + p.c.toNat * 128)
        p := nzFlags { p with c := decide (v.toNat % 2 = 1) } (BitVec.ofNat 8 (v.toNat / 2 + p.c.toNat * 128)) } := by
  have h : v >>> 1 ||| bitByte p.c <<< 7 = BitVec.ofNat 8 (v.toNat / 2 + p.c.toNat * 128) := by
    revert v; cases p.c <;> decide
  simp only [rorResult, h, getLsbD_zero]

/-- INC (R360). -/
theorem incResult_eq (v : Byte) (p : Flags) :
    incResult v p = { value := BitVec.ofNat 8 (v.toNat + 1), p := nzFlags p (BitVec.ofNat 8 (v.toNat + 1)) } := by
  have h : v + 1 = BitVec.ofNat 8 (v.toNat + 1) := by revert v; decide
  simp only [incResult, h]

/-- DEC (R361). -/
theorem decResult_eq (v : Byte) (p : Flags) :
    decResult v p = { value := BitVec.ofNat 8 (v.toNat + 255), p := nzFlags p (BitVec.ofNat 8 (v.toNat + 255)) } := by
  have h : v - 1 = BitVec.ofNat 8 (v.toNat + 255) := by revert v; decide
  simp only [decResult, h]

/-! ## Which arithmetic runs -/

/-- In binary mode ADC and SBC are the binary operations and cost nothing more (R301, R304). -/
theorem binary_arithmetic {s : State} (h : s.p.d = false ∨ s.cfg.bcdMode = .disabled) (m : Byte) :
    adcResult m s = adcBinary s.a m s.p ∧ sbcResult m s = sbcBinary s.a m s.p ∧ decimalCycle s = 0 := by
  have hd : decimalMode s = false := by
    rcases h with h | h <;> simp [decimalMode, h]
  have hc : decimalCycle s = 0 := by
    rcases h with h | h <;> simp [decimalCycle, h]
  simp [adcResult, sbcResult, hd, hc]

/-- In decimal mode ADC and SBC are the decimal operations of the configured way, Cmos with one cycle more (R301, R304). -/
theorem decimal_arithmetic {s : State} {cmos : Bool} (hd : s.p.d = true)
    (hb : s.cfg.bcdMode = if cmos then .cmos else .nmos) (m : Byte) :
    adcResult m s = adcDecimal cmos s.a m s.p ∧ sbcResult m s = sbcDecimal cmos s.a m s.p ∧
      decimalCycle s = if cmos then 1 else 0 := by
  cases cmos <;> simp_all [adcResult, sbcResult, decimalMode, decimalCycle]

end Sys2Proof.Machine
end

