-- ==== Sys2Proof/Laws/Step.lean ====
section
/-! SUPPORT. What one step can do, said once: the fetch, the hook's calls, the end of a step, and the inversion of
`step` into its three parts. -/

namespace Sys2Proof.Machine

/-! ## FETCH and DECODE (R501, R502) -/

theorem operandCount_le (op : Byte) : operandCount op ≤ 2 := by
  unfold operandCount
  cases (instrOf op 0 0).operand.mode <;> decide

/-- The fetch reads the opcode byte, then as many operand bytes as it announces. -/
theorem fetchInstr_cases (s : State) :
    let op := s.answer s.pc
    let s1 := (fetch s).2.setOpcode op
    (operandCount op = 0 ∧ fetchInstr s = (instrOf op 0 0, s1)) ∨
    (operandCount op = 1 ∧ fetchInstr s = (instrOf op (fetch s1).1 0, (fetch s1).2)) ∨
    (operandCount op = 2 ∧
      fetchInstr s = (instrOf op (fetch s1).1 (fetch (fetch s1).2).1, (fetch (fetch s1).2).2)) := by
  have hop : (fetch s).1 = s.answer s.pc := rfl
  have hle := operandCount_le (s.answer s.pc)
  simp only [fetchInstr, hop]
  rcases hn : operandCount (s.answer s.pc) with _ | _ | _ | n
  · exact .inl ⟨rfl, rfl⟩
  · exact .inr (.inl ⟨rfl, rfl⟩)
  · exact .inr (.inr ⟨rfl, rfl⟩)
  · omega

@[simp] theorem fetchInstr_a (s : State) : (fetchInstr s).2.a = s.a := by
  obtain ⟨_, h⟩ | ⟨_, h⟩ | ⟨_, h⟩ := fetchInstr_cases s <;>
    simp [h, fetch_eq, State.setOpcode]
@[simp] theorem fetchInstr_x (s : State) : (fetchInstr s).2.x = s.x := by
  obtain ⟨_, h⟩ | ⟨_, h⟩ | ⟨_, h⟩ := fetchInstr_cases s <;>
    simp [h, fetch_eq, State.setOpcode]
@[simp] theorem fetchInstr_y (s : State) : (fetchInstr s).2.y = s.y := by
  obtain ⟨_, h⟩ | ⟨_, h⟩ | ⟨_, h⟩ := fetchInstr_cases s <;>
    simp [h, fetch_eq, State.setOpcode]
@[simp] theorem fetchInstr_sp (s : State) : (fetchInstr s).2.sp = s.sp := by
  obtain ⟨_, h⟩ | ⟨_, h⟩ | ⟨_, h⟩ := fetchInstr_cases s <;>
    simp [h, fetch_eq, State.setOpcode]
@[simp] theorem fetchInstr_p (s : State) : (fetchInstr s).2.p = s.p := by
  obtain ⟨_, h⟩ | ⟨_, h⟩ | ⟨_, h⟩ := fetchInstr_cases s <;>
    simp [h, fetch_eq, State.setOpcode]
@[simp] theorem fetchInstr_cycles (s : State) : (fetchInstr s).2.cycles = s.cycles := by
  obtain ⟨_, h⟩ | ⟨_, h⟩ | ⟨_, h⟩ := fetchInstr_cases s <;>
    simp [h, fetch_eq, State.setOpcode]
@[simp] theorem fetchInstr_instructions (s : State) : (fetchInstr s).2.instructions = s.instructions := by
  obtain ⟨_, h⟩ | ⟨_, h⟩ | ⟨_, h⟩ := fetchInstr_cases s <;>
    simp [h, fetch_eq, State.setOpcode]
@[simp] theorem fetchInstr_nmiPending (s : State) : (fetchInstr s).2.nmiPending = s.nmiPending := by
  obtain ⟨_, h⟩ | ⟨_, h⟩ | ⟨_, h⟩ := fetchInstr_cases s <;>
    simp [h, fetch_eq, State.setOpcode]
@[simp] theorem fetchInstr_irqPending (s : State) : (fetchInstr s).2.irqPending = s.irqPending := by
  obtain ⟨_, h⟩ | ⟨_, h⟩ | ⟨_, h⟩ := fetchInstr_cases s <;>
    simp [h, fetch_eq, State.setOpcode]
@[simp] theorem fetchInstr_hook (s : State) : (fetchInstr s).2.hook = s.hook := by
  obtain ⟨_, h⟩ | ⟨_, h⟩ | ⟨_, h⟩ := fetchInstr_cases s <;>
    simp [h, fetch_eq, State.setOpcode]
@[simp] theorem fetchInstr_mem (s : State) : (fetchInstr s).2.mem = s.mem := by
  obtain ⟨_, h⟩ | ⟨_, h⟩ | ⟨_, h⟩ := fetchInstr_cases s <;>
    simp [h, fetch_eq, State.setOpcode]
@[simp] theorem fetchInstr_seq (s : State) : (fetchInstr s).2.seq = s.seq := by
  obtain ⟨_, h⟩ | ⟨_, h⟩ | ⟨_, h⟩ := fetchInstr_cases s <;>
    simp [h, fetch_eq, State.setOpcode]
@[simp] theorem fetchInstr_lastStep (s : State) : (fetchInstr s).2.lastStep = s.lastStep := by
  obtain ⟨_, h⟩ | ⟨_, h⟩ | ⟨_, h⟩ := fetchInstr_cases s <;>
    simp [h, fetch_eq, State.setOpcode]
@[simp] theorem fetchInstr_cfg (s : State) : (fetchInstr s).2.cfg = s.cfg := by
  obtain ⟨_, h⟩ | ⟨_, h⟩ | ⟨_, h⟩ := fetchInstr_cases s <;>
    simp [h, fetch_eq, State.setOpcode]

/-- What the fetch decodes to. -/
theorem fetchInstr_instr (s : State) : ∃ b1 b2, (fetchInstr s).1 = instrOf (s.answer s.pc) b1 b2 := by
  obtain ⟨_, h⟩ | ⟨_, h⟩ | ⟨_, h⟩ := fetchInstr_cases s <;> rw [h]
  · exact ⟨0, 0, rfl⟩
  · exact ⟨_, 0, rfl⟩
  · exact ⟨_, _, rfl⟩

theorem fetchInstr_wf (s : State) : (fetchInstr s).1.wf = true := by
  obtain ⟨b1, b2, h⟩ := fetchInstr_instr s
  rw [h, wf_instrOf]

theorem fetchInstr_opcode (s : State) : opcodeOf (fetchInstr s).1 = some (s.answer s.pc) := by
  obtain ⟨b1, b2, h⟩ := fetchInstr_instr s
  rw [h, opcodeOf_instrOf]

/-- The fetch reads one to three bytes on the bus, the opcode's first (R501). -/
theorem fetchInstr_busLog (s : State) :
    ∃ events, (fetchInstr s).2.busLog = events ++ .read s.pc (s.answer s.pc) :: s.busLog := by
  obtain ⟨_, h⟩ | ⟨_, h⟩ | ⟨_, h⟩ := fetchInstr_cases s <;> rw [h]
  · exact ⟨[], rfl⟩
  · exact ⟨[_], rfl⟩
  · exact ⟨[_, _], rfl⟩

theorem Keeps.fetchInstr {s t : State} (h : Keeps s t) : Keeps s (fetchInstr t).2 := by
  obtain ⟨e, he⟩ := fetchInstr_busLog t
  exact h.trans ⟨by simp, by simp, by simp, by simp, by simp, ⟨e ++ [_], by simpa using he⟩, by simp⟩

/-- An illegal opcode has no operand bytes, so PC stands one past it (R467, R620). -/
theorem fetchInstr_illegal {s : State} {op : Byte} (h : (fetchInstr s).1 = .illegal op) :
    op = s.answer s.pc ∧ (fetchInstr s).2.pc = s.pc + 1 := by
  have hop := fetchInstr_opcode s
  have hw := fetchInstr_wf s
  rw [h] at hop hw
  simp only [Instr.wf] at hw
  simp only [opcodeOf, hw, if_true, Option.some.injEq] at hop
  refine ⟨hop, ?_⟩
  obtain ⟨b1, b2, hi⟩ := fetchInstr_instr s
  have hcount : operandCount (s.answer s.pc) = 0 := by
    rw [operandCount, ← mode_instrOf _ b1 b2, ← hi, h]
    rfl
  obtain ⟨_, hf⟩ | ⟨h1, _⟩ | ⟨h1, _⟩ := fetchInstr_cases s
  · rw [hf]; rfl
  · omega
  · omega

/-! ## The hook (R520, R521) -/

/-- What the hook's calls leave: the registers, the counters, the last result, the slot, the sequencer and the
configuration; they may write memory, add bus events and raise interrupts. -/
structure HookFrame (s t : State) : Prop where
  a : t.a = s.a
  x : t.x = s.x
  y : t.y = s.y
  sp : t.sp = s.sp
  pc : t.pc = s.pc
  p : t.p = s.p
  scratch : t.scratch = s.scratch
  cycles : t.cycles = s.cycles
  instructions : t.instructions = s.instructions
  hook : t.hook = s.hook
  seq : t.seq = s.seq
  lastStep : t.lastStep = s.lastStep
  cfg : t.cfg = s.cfg
  record : ∃ events, t.busLog = events ++ s.busLog
  memory : Memory.wf s.mem = true → Memory.wf t.mem = true

theorem HookFrame.refl (s : State) : HookFrame s s :=
  ⟨rfl, rfl, rfl, rfl, rfl, rfl, rfl, rfl, rfl, rfl, rfl, rfl, rfl, ⟨[], rfl⟩, id⟩

theorem HookFrame.trans {s t u : State} (h : HookFrame s t) (h' : HookFrame t u) : HookFrame s u := by
  obtain ⟨e, he⟩ := h.record
  obtain ⟨e', he'⟩ := h'.record
  exact ⟨h'.a.trans h.a, h'.x.trans h.x, h'.y.trans h.y, h'.sp.trans h.sp, h'.pc.trans h.pc, h'.p.trans h.p,
    h'.scratch.trans h.scratch, h'.cycles.trans h.cycles, h'.instructions.trans h.instructions,
    h'.hook.trans h.hook, h'.seq.trans h.seq, h'.lastStep.trans h.lastStep, h'.cfg.trans h.cfg,
    ⟨e' ++ e, by rw [he', he, List.append_assoc]⟩, fun hw => h'.memory (h.memory hw)⟩

theorem runHookCall_frame {c : HookCall} {s : State} {r : Nat × State} (h : runHookCall c s = .next r) :
    HookFrame s r.2 := by
  cases c with
  | busRead a => cases h; exact ⟨rfl, rfl, rfl, rfl, rfl, rfl, rfl, rfl, rfl, rfl, rfl, rfl, rfl, ⟨[_], rfl⟩, id⟩
  | busWrite a v =>
    simp only [runHookCall, Host.Outcome.next.injEq] at h
    subst h
    refine ⟨?_, ?_, ?_, ?_, ?_, ?_, ?_, ?_, ?_, ?_, ?_, ?_, ?_, ⟨[.write a v], ?_⟩, busWrite_wf⟩ <;>
      simp [busWrite_eq]
  | forbidden e => cases h
  | _ => cases h; exact ⟨rfl, rfl, rfl, rfl, rfl, rfl, rfl, rfl, rfl, rfl, rfl, rfl, rfl, ⟨[], rfl⟩, id⟩

/-- A call that a hook may make is not refused, and one that it must not make is (R521). -/
theorem runHookCall_allowed (c : HookCall) (s : State) :
    (∃ e, c = .forbidden e ∧ runHookCall c s = .refused (.hookCalled e)) ∨ ∃ r, runHookCall c s = .next r := by
  cases c with
  | forbidden e => exact .inl ⟨e, rfl, rfl⟩
  | _ => exact .inr (by simp only [runHookCall, Host.Outcome.next.injEq, exists_eq'])

theorem runHook_frame {prog : HookProgram} {k : Nat} {s : State} {r : HookProgram × State}
    (h : runHook prog k s = .next r) : HookFrame s r.2 := by
  induction prog generalizing k s with
  | done => cases h; exact .refl _
  | ret rest => cases h; exact .refl _
  | call c rest ih =>
    simp only [runHook] at h
    split at h
    · exact (runHookCall_frame ‹_›).trans (ih h)
    · cases h
    · cases h
  | test t yes no ihy ihn =>
    simp only [runHook] at h
    split at h
    · exact ihy h
    · exact ihn h

/-- A hook that makes no call it must not make is not refused. -/
theorem runHook_completes {prog : HookProgram} (hp : HookProgram.obeys prog = true) :
    ∀ k s, ∃ r, runHook prog k s = .next r := by
  induction prog with
  | done => exact fun k s => ⟨_, rfl⟩
  | ret rest => exact fun k s => ⟨_, rfl⟩
  | call c rest ih =>
    intro k s
    simp only [HookProgram.obeys, Bool.and_eq_true] at hp
    obtain ⟨e, rfl, _⟩ | ⟨r, hr⟩ := runHookCall_allowed c s
    · exact absurd hp.1 (by simp [HookCall.allowed])
    · simpa only [runHook, hr] using ih hp.2 r.1 r.2
  | test t yes no ihy ihn =>
    intro k s
    simp only [HookProgram.obeys, Bool.and_eq_true] at hp
    simp only [runHook]
    split
    · exact ihy hp.1 k s
    · exact ihn hp.2 k s

theorem callHook_none {s : State} (hs : s.hook = none) : callHook s = .next s := by
  simp only [callHook, hs]

/-- With a callback in the slot its program runs, and the slot holds it after one more invocation (R520). -/
theorem callHook_some {s : State} {cb : Callback} (hs : s.hook = some cb) :
    callHook s =
      match runHook cb.program 0 s with
      | .next r => .next (r.2.setHook (some (cb.invoked r.1)))
      | .fault f => .fault f
      | .refused e => .refused e := by
  cases hr : runHook cb.program 0 s <;> simp only [callHook, hs, hr]

theorem callHook_next {s : State} {cb : Callback} {r : HookProgram × State} (hs : s.hook = some cb)
    (hr : runHook cb.program 0 s = .next r) : callHook s = .next (r.2.setHook (some (cb.invoked r.1))) := by
  rw [callHook_some hs, hr]

/-- What a next state of the call of the hook is. -/
theorem callHook_cases {s t : State} (h : callHook s = .next t) :
    (s.hook = none ∧ t = s) ∨
    ∃ cb r, s.hook = some cb ∧ runHook cb.program 0 s = .next r ∧ t = r.2.setHook (some (cb.invoked r.1)) := by
  rcases hs : s.hook with _ | cb
  · rw [callHook_none hs] at h
    cases h
    exact .inl ⟨rfl, rfl⟩
  · rw [callHook_some hs] at h
    split at h
    · cases h
      exact .inr ⟨cb, _, rfl, ‹_›, rfl⟩
    · cases h
    · cases h

theorem callHook_frame {s t : State} (h : callHook s = .next t) : HookFrame (s.setHook t.hook) t := by
  obtain ⟨_, rfl⟩ | ⟨cb, r, _, hr, rfl⟩ := callHook_cases h
  · exact .refl _
  · have f := runHook_frame hr
    exact ⟨f.a, f.x, f.y, f.sp, f.pc, f.p, f.scratch, f.cycles, f.instructions, rfl, f.seq, f.lastStep, f.cfg,
      f.record, f.memory⟩

/-- The call of a hook that obeys R521 is not refused. -/
theorem callHook_completes {s : State} (h : hookObeys s = true) : ∃ t, callHook s = .next t := by
  rcases hs : s.hook with _ | cb
  · exact ⟨s, callHook_none hs⟩
  · obtain ⟨r, hr⟩ := runHook_completes (prog := cb.program) (by simpa only [hookObeys, hs] using h) 0 s
    exact ⟨_, callHook_next hs hr⟩

/-! ## The step (R512) -/

/-- What a next state of the end of a step is: an illegal opcode that raised, or a completed instruction and the hook
after it. -/
theorem finishStep_next {start : Nat} {r : Host.Outcome State Fault Refusal} {t : State}
    (h : finishStep start r = .next t) :
    ∃ u, r = .next u ∧
      ((∃ pc op n, u.lastStep = some (.illegal pc op n) ∧ t = recordResult start u) ∨
       ((∀ pc op n, u.lastStep ≠ some (.illegal pc op n)) ∧ ∃ v, callHook u = .next v ∧ t = recordResult start v)) := by
  unfold finishStep at h
  split at h
  · cases h
  · cases h
  · rename_i u
    refine ⟨u, rfl, ?_⟩
    split at h
    · rename_i pc op n hl
      exact .inl ⟨pc, op, n, hl, by simpa [eq_comm] using h⟩
    · rename_i hl
      split at h
      · rename_i v hv
        exact .inr ⟨fun pc op n he => hl pc op n he, v, hv, by simpa [eq_comm] using h⟩
      · cases h
      · cases h

/-- What a next state of `step` is. -/
theorem step_next {s t : State} (h : step s = .next t) :
    configRefusal s.cfg = none ∧
      ∃ u, exec (fetchInstr (serviceInterrupts s)).1 (fetchInstr (serviceInterrupts s)).2 = .next u ∧
        ((∃ pc op n, u.lastStep = some (.illegal pc op n) ∧ t = recordResult s.cycles u) ∨
         ((∀ pc op n, u.lastStep ≠ some (.illegal pc op n)) ∧
           ∃ v, callHook u = .next v ∧ t = recordResult s.cycles v)) := by
  unfold step at h
  split at h
  · cases h
  · exact ⟨‹_›, finishStep_next h⟩

/-- An accepted configuration names a policy. -/
theorem policy_of_configRefusal {cfg : Config} (h : configRefusal cfg = none) :
    cfg.family = .mos6502 ∧ ∃ policy, cfg.illegalPolicy = some policy := by
  unfold configRefusal at h
  split at h
  · cases h
  · rename_i hf
    split at h
    · cases h
    · rename_i hp
      exact ⟨by simpa using hf, Option.ne_none_iff_exists'.mp hp⟩

/-! ## Placed instructions (log 11) -/

theorem placeBytes_pc (a : Addr) (bytes : List Byte) (s : State) : (placeBytes a bytes s).pc = s.pc := by
  induction bytes generalizing a s with
  | nil => rfl
  | cons b rest ih => exact ih _ _

theorem placeBytes_wf {a : Addr} {bytes : List Byte} {s : State} (h : Memory.wf s.mem = true) :
    Memory.wf (placeBytes a bytes s).mem = true := by
  induction bytes generalizing a s with
  | nil => exact h
  | cons b rest ih => exact ih (Memory.wf_write a.isLt h)

end Sys2Proof.Machine
end

