-- ==== Sys2Proof/Laws/HostInterface.lean ====
section
/-! SUPPORT. What the host's other entry points, the microprogram sequencer and the assembler's branch operand can do,
said once for each. -/

namespace Sys2Proof.Machine

/-! ## The bounded run (R513) -/

/-- The loop of `run` ends where the budget is used up. -/
theorem runLoop_done {budget consumed : Nat} (h : budget ≤ consumed) (k : Nat) (s : State) :
    runLoop k budget consumed s = some (.next (.ok consumed, s)) := by
  unfold runLoop
  rw [if_pos h]

/-- Before that it takes a step, and goes on where the step completed. -/
theorem runLoop_ok {budget consumed n : Nat} (h : ¬ budget ≤ consumed) (k : Nat) {s t : State}
    (hs : step s = .next t) (hl : t.lastStep = some (.ok n)) :
    runLoop (k + 1) budget consumed s = runLoop k budget (consumed + n) t := by
  rw [runLoop, if_neg h]
  simp only [hs, hl]

/-- It ends where the step raised an illegal opcode. -/
theorem runLoop_illegal {budget consumed n : Nat} {pc : Addr} {op : Byte} (h : ¬ budget ≤ consumed) (k : Nat)
    {s t : State} (hs : step s = .next t) (hl : t.lastStep = some (.illegal pc op n)) :
    runLoop (k + 1) budget consumed s = some (.next (.illegal pc op (consumed + n), t)) := by
  rw [runLoop, if_neg h]
  simp only [hs, hl]

/-- It ends where the step is refused. -/
theorem runLoop_refused {budget consumed : Nat} (h : ¬ budget ≤ consumed) (k : Nat) {s : State} {r : Refusal}
    (hs : step s = .refused r) : runLoop (k + 1) budget consumed s = some (.refused r) := by
  rw [runLoop, if_neg h]
  simp only [hs]

/-- Followed for more steps the loop has the same outcome. -/
theorem runLoop_mono {k budget consumed : Nat} {s : State} {o : Host.Outcome (RunResult × State) Fault Refusal}
    (h : runLoop k budget consumed s = some o) (j : Nat) : runLoop (k + j) budget consumed s = some o := by
  induction k generalizing consumed s with
  | zero =>
    unfold runLoop at h
    split at h
    · rw [runLoop_done ‹_›, h]
    · cases h
  | succ k ih =>
    rw [Nat.add_right_comm]
    unfold runLoop at h ⊢
    split
    · rwa [if_pos ‹_›] at h
    · rw [if_neg ‹_›] at h
      simp only at h ⊢
      split at h
      · exact h
      · exact h
      · split at h
        · exact ih h
        · exact h
        · cases h

/-- `run` has one outcome. -/
theorem runReturns_unique {budget : Nat} {s : State} {o o' : Host.Outcome (RunResult × State) Fault Refusal}
    (h : RunReturns budget s o) (h' : RunReturns budget s o') : o = o' := by
  obtain ⟨k, hk⟩ := h
  obtain ⟨j, hj⟩ := h'
  have h1 := runLoop_mono hk j
  have h2 := runLoop_mono hj k
  rw [Nat.add_comm, h2, Option.some.injEq] at h1
  exact h1.symm

/-! ## Save, restore, the hook slot and creation (R522, R630, R631, R703) -/

/-- `restore` of seven bytes writes the register file and the scratch flags, and nothing else (R631). -/
theorem restore_seven (pcLo pcHi a x y sp p : Byte) (s : State) :
    restore [pcLo, pcHi, a, x, y, sp, p] s =
      (.ok, { s.clearScratch with pc := mkAddr pcHi pcLo, a := a, x := x, y := y, sp := sp, p := loadP p }) := rfl

/-- `restore` of any other length changes nothing (R631). -/
theorem restore_other {buf : List Byte} (h : buf.length ≠ 7) (s : State) : restore buf s = (.rejected, s) := by
  rcases buf with _ | ⟨_, _ | ⟨_, _ | ⟨_, _ | ⟨_, _ | ⟨_, _ | ⟨_, _ | ⟨_, _ | ⟨_, _⟩⟩⟩⟩⟩⟩⟩⟩ <;>
    first | rfl | exact absurd rfl h

theorem save_length (s : State) : (save s).length = 7 := rfl

@[simp] theorem registerHook_hook (cb : Option Callback) (s : State) : (registerHook cb s).hook = cb := rfl

/-- Creation is the reset of an instance with counters and latches 0 and the hook slot empty (R703). -/
theorem create_eq (cfg : Config) (mem : List Host.Cell) :
    State.create cfg mem = hostReset { State.reset with mem := mem, busLog := [], cfg := cfg } := rfl

/-! ## The microprogram sequencer (R540 to R543) -/

/-- What micro-operations leave unchanged beside memory, the record and what their assignments write. -/
structure MicroFrame (s t : State) : Prop where
  cycles : t.cycles = s.cycles
  instructions : t.instructions = s.instructions
  nmi : t.nmiPending = s.nmiPending
  irq : t.irqPending = s.irqPending
  hook : t.hook = s.hook
  lastStep : t.lastStep = s.lastStep
  scratch : t.scratch = s.scratch
  cfg : t.cfg = s.cfg
  currentOp : t.seq.currentOp = s.seq.currentOp
  microStep : t.seq.microStep = s.seq.microStep
  suspended : t.seq.suspended = s.seq.suspended
  entry : t.seq.entry = s.seq.entry

theorem MicroFrame.refl (s : State) : MicroFrame s s := by constructor <;> rfl

theorem MicroFrame.trans {s t u : State} (h : MicroFrame s t) (h' : MicroFrame t u) : MicroFrame s u :=
  ⟨h'.cycles.trans h.cycles, h'.instructions.trans h.instructions, h'.nmi.trans h.nmi, h'.irq.trans h.irq,
    h'.hook.trans h.hook, h'.lastStep.trans h.lastStep, h'.scratch.trans h.scratch, h'.cfg.trans h.cfg,
    h'.currentOp.trans h.currentOp, h'.microStep.trans h.microStep, h'.suspended.trans h.suspended,
    h'.entry.trans h.entry⟩

/-- What the bus access of a micro-operation does: nothing, one read whose byte is kept, or one write (R541). -/
theorem performAccess_cases (m : MicroAccess) (s : State) :
    (m = .none ∧ performAccess m s = s) ∨
    (∃ addr, m = .read addr ∧ performAccess m s =
      (s.setBusLog (.read (exprWord addr s) (s.answer (exprWord addr s)) :: s.busLog)).keep
        (s.answer (exprWord addr s))) ∨
    ∃ addr value, m = .write addr value ∧ performAccess m s =
      (s.setMem (stored (exprWord addr s) (loByte (exprWord value s)) s)).setBusLog
        (.write (exprWord addr s) (loByte (exprWord value s)) :: s.busLog) := by
  cases m with
  | none => exact .inl ⟨rfl, rfl⟩
  | read addr => exact .inr (.inl ⟨addr, rfl, rfl⟩)
  | write addr value => exact .inr (.inr ⟨addr, value, rfl, busWrite_eq _ _ s⟩)

theorem performAccess_frame (m : MicroAccess) (s : State) : MicroFrame s (performAccess m s) := by
  obtain ⟨_, h⟩ | ⟨_, _, h⟩ | ⟨_, _, _, h⟩ := performAccess_cases m s <;> rw [h] <;> constructor <;> rfl

/-- An assignment makes no bus event (R541). -/
theorem microAssign_frame (s : State) (e : MicroTarget × MicroExpr) :
    MicroFrame s (microAssign s e) ∧ (microAssign s e).mem = s.mem ∧ (microAssign s e).busLog = s.busLog := by
  obtain ⟨target, expr⟩ := e
  cases target with
  | reg r => cases r <;> exact ⟨by constructor <;> rfl, rfl, rfl⟩
  | flag f => exact ⟨by constructor <;> rfl, rfl, rfl⟩
  | keep => exact ⟨by constructor <;> rfl, rfl, rfl⟩

theorem microAssigns_frame (l : List (MicroTarget × MicroExpr)) (s : State) :
    MicroFrame s (l.foldl microAssign s) ∧ (l.foldl microAssign s).mem = s.mem ∧
    (l.foldl microAssign s).busLog = s.busLog := by
  induction l generalizing s with
  | nil => exact ⟨.refl s, rfl, rfl⟩
  | cons e l ih =>
    obtain ⟨f, m, b⟩ := microAssign_frame s e
    obtain ⟨f', m', b'⟩ := ih (microAssign s e)
    exact ⟨f.trans f', m'.trans m, b'.trans b⟩

/-- What a whole micro-operation leaves: its bus event is that of its access. -/
theorem runMicroOp_frame (u : MicroOp) (s : State) :
    MicroFrame s (runMicroOp u s) ∧ (runMicroOp u s).mem = (performAccess u.access s).mem ∧
    (runMicroOp u s).busLog = (performAccess u.access s).busLog := by
  obtain ⟨f, m, b⟩ := microAssigns_frame u.assigns (performAccess u.access s)
  exact ⟨(performAccess_frame u.access s).trans f, m, b⟩

/-- Past the last micro-operation the call is a boundary. -/
theorem microStepCall_boundary {s t : State} {fam : MicroFamily} (h : currentMicroOp s = none)
    (hb : microBoundary fam s = .next t) (wait hold : Bool) :
    microStepCall fam wait hold s = .next (.boundary, t) := by
  simp only [microStepCall, h, hb]

/-- A micro-operation that must yield leaves everything but the mark that it is suspended. -/
theorem microStepCall_yields {s : State} {u : MicroOp} {wait hold : Bool} (h : currentMicroOp s = some u)
    (hy : mustYield u wait hold s = true) (fam : MicroFamily) :
    microStepCall fam wait hold s = .next (.yielded, s.setSeq { s.seq with suspended := true }) := by
  simp only [microStepCall, h, hy, if_true]

/-- A micro-operation that need not yield runs, and the index advances by one. -/
theorem microStepCall_runs {s : State} {u : MicroOp} {wait hold : Bool} (h : currentMicroOp s = some u)
    (hy : mustYield u wait hold s = false) (fam : MicroFamily) :
    microStepCall fam wait hold s =
      .next (.continued, (runMicroOp u s).setSeq
        { (runMicroOp u s).seq with microStep := (runMicroOp u s).seq.microStep + 1, suspended := false }) := by
  simp only [microStepCall, h, hy]
  rfl

/-! ## The assembler's branch operand (R170) -/

/-- A displacement byte is given exactly where the target is within reach, and it is the signed difference. -/
theorem branchByte_eq_some {at_ target : Addr} {b : Byte} (h : branchByte at_ target = some b) :
    b.toInt = (target - (at_ + 2)).toInt := by
  simp only [branchByte] at h
  split at h
  · rename_i hr
    cases h
    rw [BitVec.toInt_ofInt]
    generalize (target - (at_ + 2)).toInt = d at hr
    simp only [Int.bmod_def]
    omega
  · cases h

end Sys2Proof.Machine
end

