-- ==== Sys2Proof/Laws/PerInstr.lean ====
section
/-! SUPPORT. The family of statements made of each instruction: its encoding is as long as its mode says, 1 to 3 bytes
(spec R150, R151). -/

/-- A well-formed instruction encodes to one opcode byte and its mode's operand bytes, 1 to 3 bytes in all (R150, R151). -/
def Sys2Proof.Laws.EncodedLength.Statement (i : Sys2Proof.Instr) : Prop :=
  i.wf = true → (Sys2Proof.encode i).map List.length = some i.length ∧ 1 ≤ i.length ∧ i.length ≤ 3

/-- An operand's bytes are as many as its mode has. -/
theorem Sys2Proof.Laws.operand_bytes_length (o : Sys2Proof.Operand) : o.bytes.length = o.mode.operandBytes := by
  cases o <;> rfl

/-- The statement of every instruction, from its opcode. -/
theorem Sys2Proof.Laws.encodedLength (i : Sys2Proof.Instr) : Sys2Proof.Laws.EncodedLength.Statement i := by
  intro h
  obtain ⟨op, hop⟩ := Sys2Proof.opcodeOf_of_wf h
  have hb : i.operand.mode.operandBytes ≤ 2 := by cases i.operand.mode <;> decide
  refine ⟨?_, ?_, ?_⟩
  · simp only [Sys2Proof.encode, hop, Option.map_some, List.length_cons, Sys2Proof.Laws.operand_bytes_length,
      Sys2Proof.Instr.length, Nat.add_comm]
  · simp only [Sys2Proof.Instr.length]; omega
  · simp only [Sys2Proof.Instr.length]; omega

theorem Sys2Proof.Laws.EncodedLength.lda (o : Sys2Proof.Operand) :
    Sys2Proof.Laws.EncodedLength.Statement (.lda o) := Sys2Proof.Laws.encodedLength _
theorem Sys2Proof.Laws.EncodedLength.ldx (o : Sys2Proof.Operand) :
    Sys2Proof.Laws.EncodedLength.Statement (.ldx o) := Sys2Proof.Laws.encodedLength _
theorem Sys2Proof.Laws.EncodedLength.ldy (o : Sys2Proof.Operand) :
    Sys2Proof.Laws.EncodedLength.Statement (.ldy o) := Sys2Proof.Laws.encodedLength _
theorem Sys2Proof.Laws.EncodedLength.sta (o : Sys2Proof.Operand) :
    Sys2Proof.Laws.EncodedLength.Statement (.sta o) := Sys2Proof.Laws.encodedLength _
theorem Sys2Proof.Laws.EncodedLength.stx (o : Sys2Proof.Operand) :
    Sys2Proof.Laws.EncodedLength.Statement (.stx o) := Sys2Proof.Laws.encodedLength _
theorem Sys2Proof.Laws.EncodedLength.sty (o : Sys2Proof.Operand) :
    Sys2Proof.Laws.EncodedLength.Statement (.sty o) := Sys2Proof.Laws.encodedLength _
theorem Sys2Proof.Laws.EncodedLength.tax : Sys2Proof.Laws.EncodedLength.Statement .tax :=
  Sys2Proof.Laws.encodedLength _
theorem Sys2Proof.Laws.EncodedLength.tay : Sys2Proof.Laws.EncodedLength.Statement .tay :=
  Sys2Proof.Laws.encodedLength _
theorem Sys2Proof.Laws.EncodedLength.txa : Sys2Proof.Laws.EncodedLength.Statement .txa :=
  Sys2Proof.Laws.encodedLength _
theorem Sys2Proof.Laws.EncodedLength.tya : Sys2Proof.Laws.EncodedLength.Statement .tya :=
  Sys2Proof.Laws.encodedLength _
theorem Sys2Proof.Laws.EncodedLength.tsx : Sys2Proof.Laws.EncodedLength.Statement .tsx :=
  Sys2Proof.Laws.encodedLength _
theorem Sys2Proof.Laws.EncodedLength.txs : Sys2Proof.Laws.EncodedLength.Statement .txs :=
  Sys2Proof.Laws.encodedLength _
theorem Sys2Proof.Laws.EncodedLength.adc (o : Sys2Proof.Operand) :
    Sys2Proof.Laws.EncodedLength.Statement (.adc o) := Sys2Proof.Laws.encodedLength _
theorem Sys2Proof.Laws.EncodedLength.sbc (o : Sys2Proof.Operand) :
    Sys2Proof.Laws.EncodedLength.Statement (.sbc o) := Sys2Proof.Laws.encodedLength _
theorem Sys2Proof.Laws.EncodedLength.cmp (o : Sys2Proof.Operand) :
    Sys2Proof.Laws.EncodedLength.Statement (.cmp o) := Sys2Proof.Laws.encodedLength _
theorem Sys2Proof.Laws.EncodedLength.cpx (o : Sys2Proof.Operand) :
    Sys2Proof.Laws.EncodedLength.Statement (.cpx o) := Sys2Proof.Laws.encodedLength _
theorem Sys2Proof.Laws.EncodedLength.cpy (o : Sys2Proof.Operand) :
    Sys2Proof.Laws.EncodedLength.Statement (.cpy o) := Sys2Proof.Laws.encodedLength _
theorem Sys2Proof.Laws.EncodedLength.and (o : Sys2Proof.Operand) :
    Sys2Proof.Laws.EncodedLength.Statement (.and o) := Sys2Proof.Laws.encodedLength _
theorem Sys2Proof.Laws.EncodedLength.ora (o : Sys2Proof.Operand) :
    Sys2Proof.Laws.EncodedLength.Statement (.ora o) := Sys2Proof.Laws.encodedLength _
theorem Sys2Proof.Laws.EncodedLength.eor (o : Sys2Proof.Operand) :
    Sys2Proof.Laws.EncodedLength.Statement (.eor o) := Sys2Proof.Laws.encodedLength _
theorem Sys2Proof.Laws.EncodedLength.bit (o : Sys2Proof.Operand) :
    Sys2Proof.Laws.EncodedLength.Statement (.bit o) := Sys2Proof.Laws.encodedLength _
theorem Sys2Proof.Laws.EncodedLength.asl (o : Sys2Proof.Operand) :
    Sys2Proof.Laws.EncodedLength.Statement (.asl o) := Sys2Proof.Laws.encodedLength _
theorem Sys2Proof.Laws.EncodedLength.lsr (o : Sys2Proof.Operand) :
    Sys2Proof.Laws.EncodedLength.Statement (.lsr o) := Sys2Proof.Laws.encodedLength _
theorem Sys2Proof.Laws.EncodedLength.rol (o : Sys2Proof.Operand) :
    Sys2Proof.Laws.EncodedLength.Statement (.rol o) := Sys2Proof.Laws.encodedLength _
theorem Sys2Proof.Laws.EncodedLength.ror (o : Sys2Proof.Operand) :
    Sys2Proof.Laws.EncodedLength.Statement (.ror o) := Sys2Proof.Laws.encodedLength _
theorem Sys2Proof.Laws.EncodedLength.inc (o : Sys2Proof.Operand) :
    Sys2Proof.Laws.EncodedLength.Statement (.inc o) := Sys2Proof.Laws.encodedLength _
theorem Sys2Proof.Laws.EncodedLength.dec (o : Sys2Proof.Operand) :
    Sys2Proof.Laws.EncodedLength.Statement (.dec o) := Sys2Proof.Laws.encodedLength _
theorem Sys2Proof.Laws.EncodedLength.inx : Sys2Proof.Laws.EncodedLength.Statement .inx :=
  Sys2Proof.Laws.encodedLength _
theorem Sys2Proof.Laws.EncodedLength.iny : Sys2Proof.Laws.EncodedLength.Statement .iny :=
  Sys2Proof.Laws.encodedLength _
theorem Sys2Proof.Laws.EncodedLength.dex : Sys2Proof.Laws.EncodedLength.Statement .dex :=
  Sys2Proof.Laws.encodedLength _
theorem Sys2Proof.Laws.EncodedLength.dey : Sys2Proof.Laws.EncodedLength.Statement .dey :=
  Sys2Proof.Laws.encodedLength _
theorem Sys2Proof.Laws.EncodedLength.bpl (rel : Sys2Proof.Byte) :
    Sys2Proof.Laws.EncodedLength.Statement (.bpl rel) := Sys2Proof.Laws.encodedLength _
theorem Sys2Proof.Laws.EncodedLength.bmi (rel : Sys2Proof.Byte) :
    Sys2Proof.Laws.EncodedLength.Statement (.bmi rel) := Sys2Proof.Laws.encodedLength _
theorem Sys2Proof.Laws.EncodedLength.bvc (rel : Sys2Proof.Byte) :
    Sys2Proof.Laws.EncodedLength.Statement (.bvc rel) := Sys2Proof.Laws.encodedLength _
theorem Sys2Proof.Laws.EncodedLength.bvs (rel : Sys2Proof.Byte) :
    Sys2Proof.Laws.EncodedLength.Statement (.bvs rel) := Sys2Proof.Laws.encodedLength _
theorem Sys2Proof.Laws.EncodedLength.bcc (rel : Sys2Proof.Byte) :
    Sys2Proof.Laws.EncodedLength.Statement (.bcc rel) := Sys2Proof.Laws.encodedLength _
theorem Sys2Proof.Laws.EncodedLength.bcs (rel : Sys2Proof.Byte) :
    Sys2Proof.Laws.EncodedLength.Statement (.bcs rel) := Sys2Proof.Laws.encodedLength _
theorem Sys2Proof.Laws.EncodedLength.bne (rel : Sys2Proof.Byte) :
    Sys2Proof.Laws.EncodedLength.Statement (.bne rel) := Sys2Proof.Laws.encodedLength _
theorem Sys2Proof.Laws.EncodedLength.beq (rel : Sys2Proof.Byte) :
    Sys2Proof.Laws.EncodedLength.Statement (.beq rel) := Sys2Proof.Laws.encodedLength _
theorem Sys2Proof.Laws.EncodedLength.jmpAbs (target : Sys2Proof.Addr) :
    Sys2Proof.Laws.EncodedLength.Statement (.jmpAbs target) := Sys2Proof.Laws.encodedLength _
theorem Sys2Proof.Laws.EncodedLength.jmpInd (pointer : Sys2Proof.Addr) :
    Sys2Proof.Laws.EncodedLength.Statement (.jmpInd pointer) := Sys2Proof.Laws.encodedLength _
theorem Sys2Proof.Laws.EncodedLength.jsr (target : Sys2Proof.Addr) :
    Sys2Proof.Laws.EncodedLength.Statement (.jsr target) := Sys2Proof.Laws.encodedLength _
theorem Sys2Proof.Laws.EncodedLength.rts : Sys2Proof.Laws.EncodedLength.Statement .rts :=
  Sys2Proof.Laws.encodedLength _
theorem Sys2Proof.Laws.EncodedLength.pha : Sys2Proof.Laws.EncodedLength.Statement .pha :=
  Sys2Proof.Laws.encodedLength _
theorem Sys2Proof.Laws.EncodedLength.pla : Sys2Proof.Laws.EncodedLength.Statement .pla :=
  Sys2Proof.Laws.encodedLength _
theorem Sys2Proof.Laws.EncodedLength.php : Sys2Proof.Laws.EncodedLength.Statement .php :=
  Sys2Proof.Laws.encodedLength _
theorem Sys2Proof.Laws.EncodedLength.plp : Sys2Proof.Laws.EncodedLength.Statement .plp :=
  Sys2Proof.Laws.encodedLength _
theorem Sys2Proof.Laws.EncodedLength.clc : Sys2Proof.Laws.EncodedLength.Statement .clc :=
  Sys2Proof.Laws.encodedLength _
theorem Sys2Proof.Laws.EncodedLength.sec : Sys2Proof.Laws.EncodedLength.Statement .sec :=
  Sys2Proof.Laws.encodedLength _
theorem Sys2Proof.Laws.EncodedLength.cli : Sys2Proof.Laws.EncodedLength.Statement .cli :=
  Sys2Proof.Laws.encodedLength _
theorem Sys2Proof.Laws.EncodedLength.sei : Sys2Proof.Laws.EncodedLength.Statement .sei :=
  Sys2Proof.Laws.encodedLength _
theorem Sys2Proof.Laws.EncodedLength.cld : Sys2Proof.Laws.EncodedLength.Statement .cld :=
  Sys2Proof.Laws.encodedLength _
theorem Sys2Proof.Laws.EncodedLength.sed : Sys2Proof.Laws.EncodedLength.Statement .sed :=
  Sys2Proof.Laws.encodedLength _
theorem Sys2Proof.Laws.EncodedLength.clv : Sys2Proof.Laws.EncodedLength.Statement .clv :=
  Sys2Proof.Laws.encodedLength _
theorem Sys2Proof.Laws.EncodedLength.nop : Sys2Proof.Laws.EncodedLength.Statement .nop :=
  Sys2Proof.Laws.encodedLength _
theorem Sys2Proof.Laws.EncodedLength.brk : Sys2Proof.Laws.EncodedLength.Statement .brk :=
  Sys2Proof.Laws.encodedLength _
theorem Sys2Proof.Laws.EncodedLength.rti : Sys2Proof.Laws.EncodedLength.Statement .rti :=
  Sys2Proof.Laws.encodedLength _
theorem Sys2Proof.Laws.EncodedLength.illegal (opcode : Sys2Proof.Byte) :
    Sys2Proof.Laws.EncodedLength.Statement (.illegal opcode) := Sys2Proof.Laws.encodedLength _
end

