-- ==== Sys2Proof/Tests/Slice0.lean ====
section
/-! SUPPORT. Tests of the model: which terms are instructions, words written out from the encodings of spec/, single
steps with the expected results of spec/95_test_vectors.md (each test names its vector), and, for each statement that
has hypotheses, states and operands that meet them. -/

namespace Sys2Proof.Tests

open Sys2Proof.Machine Sys2Proof.Claims

/-! ## Helpers -/

/-- The configuration of 95_test_vectors.md. -/
def config : Config := Config.ofVariant .nmos .strict

/-- The same on Cmos. -/
def cmosConfig : Config := Config.ofVariant .cmos .strict

/-- The same under the Nop policy. -/
def nopConfig : Config := Config.ofVariant .nmos .nop

/-- P of the vectors' start: I set, the others clear. -/
def resetP : Flags := { n := false, v := false, d := false, i := true, z := false, c := false }

/-- The start of a vector: the code at an address where PC stands, and bytes of memory. -/
def begin (cfg : Config) (pc : Addr) (code : List Byte) (cells : List (Addr × Byte)) : State :=
  cells.foldl (fun s c => placeBytes c.1 [c.2] s)
    (placeBytes pc code { State.reset with pc := pc, busLog := [], cfg := cfg })

/-- The six flags N, V, D, I, Z, C in that order. -/
def flagBits (p : Flags) : Nat :=
  [p.n, p.v, p.d, p.i, p.z, p.c].foldl (fun k b => 2 * k + b.toNat) 0

/-- The bus writes of a state's record, the first made first. -/
def writesOf (s : State) : List (Addr × Byte) :=
  s.busLog.reverse.filterMap (fun e => match e with
    | .write a v => some (a, v)
    | .read _ _ => none)

/-- Does a test hold of the state after one step? -/
def after (s : State) (f : State → Bool) : Bool :=
  match step s with
  | .next t => f t
  | _ => false

/-- One step leaves these registers, flags (as `flagBits`) and bus writes, and takes `n` cycles. -/
def shows (s : State) (a x y sp : Byte) (pc : Addr) (flags : Nat) (writes : List (Addr × Byte)) (n : Nat) : Bool :=
  after s (fun t => decide (t.a = a ∧ t.x = x ∧ t.y = y ∧ t.sp = sp ∧ t.pc = pc ∧ flagBits t.p = flags ∧
    writesOf t = writes ∧ t.lastStep = some (.ok n)))

/-! ## Which terms are instructions -/

theorem test_illformed_lda : (Instr.lda .imp).wf = false := by decide
theorem test_illformed_ldx : (Instr.ldx (.zpx 0x10)).wf = false := by decide
theorem test_illformed_ldy : (Instr.ldy (.zpy 0x10)).wf = false := by decide
theorem test_illformed_sta : (Instr.sta (.imm 0x10)).wf = false := by decide
theorem test_illformed_stx : (Instr.stx (.aby 0x1000)).wf = false := by decide
theorem test_illformed_sty : (Instr.sty (.abx 0x1000)).wf = false := by decide
theorem test_illformed_adc : (Instr.adc (.zpy 0x10)).wf = false := by decide
theorem test_illformed_sbc : (Instr.sbc .acc).wf = false := by decide
theorem test_illformed_cmp : (Instr.cmp (.ind 0x1000)).wf = false := by decide
theorem test_illformed_cpx : (Instr.cpx (.zpx 0x10)).wf = false := by decide
theorem test_illformed_cpy : (Instr.cpy (.abx 0x1000)).wf = false := by decide
theorem test_illformed_and : (Instr.and (.rel 0x10)).wf = false := by decide
theorem test_illformed_ora : (Instr.ora (.zpy 0x10)).wf = false := by decide
theorem test_illformed_eor : (Instr.eor .imp).wf = false := by decide
theorem test_illformed_bit : (Instr.bit (.imm 0x10)).wf = false := by decide
theorem test_illformed_asl : (Instr.asl (.aby 0x1000)).wf = false := by decide
theorem test_illformed_lsr : (Instr.lsr (.imm 0x10)).wf = false := by decide
theorem test_illformed_rol : (Instr.rol (.izy 0x10)).wf = false := by decide
theorem test_illformed_ror : (Instr.ror .imp).wf = false := by decide
theorem test_illformed_inc : (Instr.inc .acc).wf = false := by decide
theorem test_illformed_dec : (Instr.dec (.zpy 0x10)).wf = false := by decide
theorem test_illformed_illegal : (Instr.illegal 0xA9).wf = false := by decide

/-- An ill-formed term has no encoding, and `exec` refuses it. -/
theorem test_illformed_refused :
    encode (.lda .imp) = none ∧ exec (.lda .imp) State.reset = .refused .illFormed ∧
    exec (.illegal 0xA9) State.reset = .refused .illFormed := ⟨by decide, rfl, rfl⟩

/-! ## Decoding, one theorem for each constructor: the words from the encodings of R251 to R464 and R160 -/

theorem test_decode_lda :
    decode [0b10100001, 0x81] = .ok (.lda (.izx 0x81), []) ∧ decode [0b10100101, 0x81] = .ok (.lda (.zp 0x81), []) ∧
    decode [0b10101001, 0x81] = .ok (.lda (.imm 0x81), []) ∧
    decode [0b10101101, 0x01, 0x80] = .ok (.lda (.abs 0x8001), []) ∧
    decode [0b10110001, 0x81] = .ok (.lda (.izy 0x81), []) ∧ decode [0b10110101, 0x81] = .ok (.lda (.zpx 0x81), []) ∧
    decode [0b10111001, 0x01, 0x80] = .ok (.lda (.aby 0x8001), []) ∧
    decode [0b10111101, 0x01, 0x80] = .ok (.lda (.abx 0x8001), []) := by decide

theorem test_decode_ldx :
    decode [0b10100010, 0x81] = .ok (.ldx (.imm 0x81), []) ∧ decode [0b10100110, 0x81] = .ok (.ldx (.zp 0x81), []) ∧
    decode [0b10101110, 0x01, 0x80] = .ok (.ldx (.abs 0x8001), []) ∧
    decode [0b10110110, 0x81] = .ok (.ldx (.zpy 0x81), []) ∧
    decode [0b10111110, 0x01, 0x80] = .ok (.ldx (.aby 0x8001), []) := by decide

theorem test_decode_ldy :
    decode [0b10100000, 0x81] = .ok (.ldy (.imm 0x81), []) ∧ decode [0b10100100, 0x81] = .ok (.ldy (.zp 0x81), []) ∧
    decode [0b10101100, 0x01, 0x80] = .ok (.ldy (.abs 0x8001), []) ∧
    decode [0b10110100, 0x81] = .ok (.ldy (.zpx 0x81), []) ∧
    decode [0b10111100, 0x01, 0x80] = .ok (.ldy (.abx 0x8001), []) := by decide

theorem test_decode_sta :
    decode [0b10000001, 0x81] = .ok (.sta (.izx 0x81), []) ∧ decode [0b10000101, 0x81] = .ok (.sta (.zp 0x81), []) ∧
    decode [0b10001101, 0x01, 0x80] = .ok (.sta (.abs 0x8001), []) ∧
    decode [0b10010001, 0x81] = .ok (.sta (.izy 0x81), []) ∧ decode [0b10010101, 0x81] = .ok (.sta (.zpx 0x81), []) ∧
    decode [0b10011001, 0x01, 0x80] = .ok (.sta (.aby 0x8001), []) ∧
    decode [0b10011101, 0x01, 0x80] = .ok (.sta (.abx 0x8001), []) := by decide

theorem test_decode_stx :
    decode [0b10000110, 0x81] = .ok (.stx (.zp 0x81), []) ∧
    decode [0b10001110, 0x01, 0x80] = .ok (.stx (.abs 0x8001), []) ∧
    decode [0b10010110, 0x81] = .ok (.stx (.zpy 0x81), []) := by decide

theorem test_decode_sty :
    decode [0b10000100, 0x81] = .ok (.sty (.zp 0x81), []) ∧
    decode [0b10001100, 0x01, 0x80] = .ok (.sty (.abs 0x8001), []) ∧
    decode [0b10010100, 0x81] = .ok (.sty (.zpx 0x81), []) := by decide

theorem test_decode_tax : decode [0b10101010] = .ok (.tax, []) := by decide

theorem test_decode_tay : decode [0b10101000] = .ok (.tay, []) := by decide

theorem test_decode_txa : decode [0b10001010] = .ok (.txa, []) := by decide

theorem test_decode_tya : decode [0b10011000] = .ok (.tya, []) := by decide

theorem test_decode_tsx : decode [0b10111010] = .ok (.tsx, []) := by decide

theorem test_decode_txs : decode [0b10011010] = .ok (.txs, []) := by decide

theorem test_decode_adc :
    decode [0b01100001, 0x81] = .ok (.adc (.izx 0x81), []) ∧ decode [0b01100101, 0x81] = .ok (.adc (.zp 0x81), []) ∧
    decode [0b01101001, 0x81] = .ok (.adc (.imm 0x81), []) ∧
    decode [0b01101101, 0x01, 0x80] = .ok (.adc (.abs 0x8001), []) ∧
    decode [0b01110001, 0x81] = .ok (.adc (.izy 0x81), []) ∧ decode [0b01110101, 0x81] = .ok (.adc (.zpx 0x81), []) ∧
    decode [0b01111001, 0x01, 0x80] = .ok (.adc (.aby 0x8001), []) ∧
    decode [0b01111101, 0x01, 0x80] = .ok (.adc (.abx 0x8001), []) := by decide

theorem test_decode_sbc :
    decode [0b11100001, 0x81] = .ok (.sbc (.izx 0x81), []) ∧ decode [0b11100101, 0x81] = .ok (.sbc (.zp 0x81), []) ∧
    decode [0b11101001, 0x81] = .ok (.sbc (.imm 0x81), []) ∧
    decode [0b11101101, 0x01, 0x80] = .ok (.sbc (.abs 0x8001), []) ∧
    decode [0b11110001, 0x81] = .ok (.sbc (.izy 0x81), []) ∧ decode [0b11110101, 0x81] = .ok (.sbc (.zpx 0x81), []) ∧
    decode [0b11111001, 0x01, 0x80] = .ok (.sbc (.aby 0x8001), []) ∧
    decode [0b11111101, 0x01, 0x80] = .ok (.sbc (.abx 0x8001), []) := by decide

theorem test_decode_cmp :
    decode [0b11000001, 0x81] = .ok (.cmp (.izx 0x81), []) ∧ decode [0b11000101, 0x81] = .ok (.cmp (.zp 0x81), []) ∧
    decode [0b11001001, 0x81] = .ok (.cmp (.imm 0x81), []) ∧
    decode [0b11001101, 0x01, 0x80] = .ok (.cmp (.abs 0x8001), []) ∧
    decode [0b11010001, 0x81] = .ok (.cmp (.izy 0x81), []) ∧ decode [0b11010101, 0x81] = .ok (.cmp (.zpx 0x81), []) ∧
    decode [0b11011001, 0x01, 0x80] = .ok (.cmp (.aby 0x8001), []) ∧
    decode [0b11011101, 0x01, 0x80] = .ok (.cmp (.abx 0x8001), []) := by decide

theorem test_decode_cpx :
    decode [0b11100000, 0x81] = .ok (.cpx (.imm 0x81), []) ∧ decode [0b11100100, 0x81] = .ok (.cpx (.zp 0x81), []) ∧
    decode [0b11101100, 0x01, 0x80] = .ok (.cpx (.abs 0x8001), []) := by decide

theorem test_decode_cpy :
    decode [0b11000000, 0x81] = .ok (.cpy (.imm 0x81), []) ∧ decode [0b11000100, 0x81] = .ok (.cpy (.zp 0x81), []) ∧
    decode [0b11001100, 0x01, 0x80] = .ok (.cpy (.abs 0x8001), []) := by decide

theorem test_decode_and :
    decode [0b00100001, 0x81] = .ok (.and (.izx 0x81), []) ∧ decode [0b00100101, 0x81] = .ok (.and (.zp 0x81), []) ∧
    decode [0b00101001, 0x81] = .ok (.and (.imm 0x81), []) ∧
    decode [0b00101101, 0x01, 0x80] = .ok (.and (.abs 0x8001), []) ∧
    decode [0b00110001, 0x81] = .ok (.and (.izy 0x81), []) ∧ decode [0b00110101, 0x81] = .ok (.and (.zpx 0x81), []) ∧
    decode [0b00111001, 0x01, 0x80] = .ok (.and (.aby 0x8001), []) ∧
    decode [0b00111101, 0x01, 0x80] = .ok (.and (.abx 0x8001), []) := by decide

theorem test_decode_ora :
    decode [0b00000001, 0x81] = .ok (.ora (.izx 0x81), []) ∧ decode [0b00000101, 0x81] = .ok (.ora (.zp 0x81), []) ∧
    decode [0b00001001, 0x81] = .ok (.ora (.imm 0x81), []) ∧
    decode [0b00001101, 0x01, 0x80] = .ok (.ora (.abs 0x8001), []) ∧
    decode [0b00010001, 0x81] = .ok (.ora (.izy 0x81), []) ∧ decode [0b00010101, 0x81] = .ok (.ora (.zpx 0x81), []) ∧
    decode [0b00011001, 0x01, 0x80] = .ok (.ora (.aby 0x8001), []) ∧
    decode [0b00011101, 0x01, 0x80] = .ok (.ora (.abx 0x8001), []) := by decide

theorem test_decode_eor :
    decode [0b01000001, 0x81] = .ok (.eor (.izx 0x81), []) ∧ decode [0b01000101, 0x81] = .ok (.eor (.zp 0x81), []) ∧
    decode [0b01001001, 0x81] = .ok (.eor (.imm 0x81), []) ∧
    decode [0b01001101, 0x01, 0x80] = .ok (.eor (.abs 0x8001), []) ∧
    decode [0b01010001, 0x81] = .ok (.eor (.izy 0x81), []) ∧ decode [0b01010101, 0x81] = .ok (.eor (.zpx 0x81), []) ∧
    decode [0b01011001, 0x01, 0x80] = .ok (.eor (.aby 0x8001), []) ∧
    decode [0b01011101, 0x01, 0x80] = .ok (.eor (.abx 0x8001), []) := by decide

theorem test_decode_bit :
    decode [0b00100100, 0x81] = .ok (.bit (.zp 0x81), []) ∧
    decode [0b00101100, 0x01, 0x80] = .ok (.bit (.abs 0x8001), []) := by decide

theorem test_decode_asl :
    decode [0b00000110, 0x81] = .ok (.asl (.zp 0x81), []) ∧ decode [0b00001010] = .ok (.asl .acc, []) ∧
    decode [0b00001110, 0x01, 0x80] = .ok (.asl (.abs 0x8001), []) ∧
    decode [0b00010110, 0x81] = .ok (.asl (.zpx 0x81), []) ∧
    decode [0b00011110, 0x01, 0x80] = .ok (.asl (.abx 0x8001), []) := by decide

theorem test_decode_lsr :
    decode [0b01000110, 0x81] = .ok (.lsr (.zp 0x81), []) ∧ decode [0b01001010] = .ok (.lsr .acc, []) ∧
    decode [0b01001110, 0x01, 0x80] = .ok (.lsr (.abs 0x8001), []) ∧
    decode [0b01010110, 0x81] = .ok (.lsr (.zpx 0x81), []) ∧
    decode [0b01011110, 0x01, 0x80] = .ok (.lsr (.abx 0x8001), []) := by decide

theorem test_decode_rol :
    decode [0b00100110, 0x81] = .ok (.rol (.zp 0x81), []) ∧ decode [0b00101010] = .ok (.rol .acc, []) ∧
    decode [0b00101110, 0x01, 0x80] = .ok (.rol (.abs 0x8001), []) ∧
    decode [0b00110110, 0x81] = .ok (.rol (.zpx 0x81), []) ∧
    decode [0b00111110, 0x01, 0x80] = .ok (.rol (.abx 0x8001), []) := by decide

theorem test_decode_ror :
    decode [0b01100110, 0x81] = .ok (.ror (.zp 0x81), []) ∧ decode [0b01101010] = .ok (.ror .acc, []) ∧
    decode [0b01101110, 0x01, 0x80] = .ok (.ror (.abs 0x8001), []) ∧
    decode [0b01110110, 0x81] = .ok (.ror (.zpx 0x81), []) ∧
    decode [0b01111110, 0x01, 0x80] = .ok (.ror (.abx 0x8001), []) := by decide

theorem test_decode_inc :
    decode [0b11100110, 0x81] = .ok (.inc (.zp 0x81), []) ∧
    decode [0b11101110, 0x01, 0x80] = .ok (.inc (.abs 0x8001), []) ∧
    decode [0b11110110, 0x81] = .ok (.inc (.zpx 0x81), []) ∧
    decode [0b11111110, 0x01, 0x80] = .ok (.inc (.abx 0x8001), []) := by decide

theorem test_decode_dec :
    decode [0b11000110, 0x81] = .ok (.dec (.zp 0x81), []) ∧
    decode [0b11001110, 0x01, 0x80] = .ok (.dec (.abs 0x8001), []) ∧
    decode [0b11010110, 0x81] = .ok (.dec (.zpx 0x81), []) ∧
    decode [0b11011110, 0x01, 0x80] = .ok (.dec (.abx 0x8001), []) := by decide

theorem test_decode_inx : decode [0b11101000] = .ok (.inx, []) := by decide

theorem test_decode_iny : decode [0b11001000] = .ok (.iny, []) := by decide

theorem test_decode_dex : decode [0b11001010] = .ok (.dex, []) := by decide

theorem test_decode_dey : decode [0b10001000] = .ok (.dey, []) := by decide

theorem test_decode_bpl : decode [0b00010000, 0x81] = .ok (.bpl 0x81, []) := by decide

theorem test_decode_bmi : decode [0b00110000, 0x81] = .ok (.bmi 0x81, []) := by decide

theorem test_decode_bvc : decode [0b01010000, 0x81] = .ok (.bvc 0x81, []) := by decide

theorem test_decode_bvs : decode [0b01110000, 0x81] = .ok (.bvs 0x81, []) := by decide

theorem test_decode_bcc : decode [0b10010000, 0x81] = .ok (.bcc 0x81, []) := by decide

theorem test_decode_bcs : decode [0b10110000, 0x81] = .ok (.bcs 0x81, []) := by decide

theorem test_decode_bne : decode [0b11010000, 0x81] = .ok (.bne 0x81, []) := by decide

theorem test_decode_beq : decode [0b11110000, 0x81] = .ok (.beq 0x81, []) := by decide

theorem test_decode_jmpAbs : decode [0b01001100, 0x01, 0x80] = .ok (.jmpAbs 0x8001, []) := by decide

theorem test_decode_jmpInd : decode [0b01101100, 0x01, 0x80] = .ok (.jmpInd 0x8001, []) := by decide

theorem test_decode_jsr : decode [0b00100000, 0x01, 0x80] = .ok (.jsr 0x8001, []) := by decide

theorem test_decode_rts : decode [0b01100000] = .ok (.rts, []) := by decide

theorem test_decode_pha : decode [0b01001000] = .ok (.pha, []) := by decide

theorem test_decode_pla : decode [0b01101000] = .ok (.pla, []) := by decide

theorem test_decode_php : decode [0b00001000] = .ok (.php, []) := by decide

theorem test_decode_plp : decode [0b00101000] = .ok (.plp, []) := by decide

theorem test_decode_clc : decode [0b00011000] = .ok (.clc, []) := by decide

theorem test_decode_sec : decode [0b00111000] = .ok (.sec, []) := by decide

theorem test_decode_cli : decode [0b01011000] = .ok (.cli, []) := by decide

theorem test_decode_sei : decode [0b01111000] = .ok (.sei, []) := by decide

theorem test_decode_cld : decode [0b11011000] = .ok (.cld, []) := by decide

theorem test_decode_sed : decode [0b11111000] = .ok (.sed, []) := by decide

theorem test_decode_clv : decode [0b10111000] = .ok (.clv, []) := by decide

theorem test_decode_nop : decode [0b11101010] = .ok (.nop, []) := by decide

theorem test_decode_brk : decode [0b00000000] = .ok (.brk, []) := by decide

theorem test_decode_rti : decode [0b01000000] = .ok (.rti, []) := by decide

/-- The three classes of R161: a NOP-class, a JAM and an undocumented-operation byte. -/
theorem test_decode_illegal :
    decode [0b00011100, 0xF0, 0x12] = .ok (.illegal 0x1C, [0xF0, 0x12]) ∧
    decode [0b00000010] = .ok (.illegal 0x02, []) ∧ decode [0b10100111] = .ok (.illegal 0xA7, []) := by decide

/-- The decoder refuses too few bytes by name, and no byte value. -/
theorem test_decode_refuses :
    decode [] = .error .noOpcode ∧ decode [0xA9] = .error (.truncated 0xA9) ∧
    decode [0x4C, 0x00] = .error (.truncated 0x4C) := by decide

/-- The table's numbering: bit 0 of the word is bit 0 of the first byte; bits above the width are 0. -/
theorem test_table_word :
    decodeTableWord 24 0x1234AD = some (.lda (.abs 0x1234)) ∧ decodeTableWord 16 0x1234A9 = some (.lda (.imm 0x34)) ∧
    decodeTableWord 8 0x00 = some .brk ∧ decodeTableWord 8 0x02 = some (.illegal 0x02) := by decide

/-- `withFetchWord` puts the word where the next step fetches it: LDA $1234 of R251, then a branch of R408. -/
theorem test_fetch_word :
    after (State.reset.withFetchWord 24 0x1234AD) (fun t => decide (t.pc = 3 ∧ t.p.z = true ∧ t.lastStep = some (.ok 4) ∧
      t.busLog.head? = some (.read 0x1234 0x00))) = true ∧
    after (State.reset.withFetchWord 16 0x05D0) (fun t => decide (t.pc = 7 ∧ t.lastStep = some (.ok 3))) = true := by
  decide

/-! ## Single steps: the vectors of 95_test_vectors.md, at most two for each instruction -/

/-- V40-6: (zp,X) pointer index wraps, high byte at 0x0000. -/
theorem test_lda_v40_6 :
    shows { begin config 0x0200 [0xA1, 0xFE] [(0x00FF, 0x00), (0x0000, 0x30), (0x0100, 0x31), (0x3000, 0x66), (0x3100, 0x77)] with x := 0x01 }
      0x66 0x01 0x00 0xFD 0x0202 0b000100 [] 6 = true := by decide

/-- V40-12: abs,Y wraps past 0xFFFF, page cross. -/
theorem test_lda_v40_12 :
    shows { begin config 0x0200 [0xB9, 0xFF, 0xFF] [(0x0001, 0x05)] with y := 0x02 }
      0x05 0x00 0x02 0xFD 0x0203 0b000100 [] 5 = true := by decide

/-- V41-4: LDY abs,X page cross: 5 cycles, N from 0xFF. -/
theorem test_ldy_v41_4 :
    shows { begin config 0x0200 [0xBC, 0xFF, 0x10] [(0x1100, 0xFF)] with x := 0x01 }
      0x00 0x01 0xFF 0xFD 0x0203 0b100100 [] 5 = true := by decide

/-- V41-3: LDX #$00 sets Z. -/
theorem test_ldx_v41_3 :
    shows { begin config 0x0200 [0xA2, 0x00] [] with x := 0x12 }
      0x00 0x00 0x00 0xFD 0x0202 0b000110 [] 2 = true := by decide

/-- V41-6: LDX abs,Y no cross 4. -/
theorem test_ldx_v41_6 :
    shows { begin config 0x0200 [0xBE, 0x00, 0x30] [(0x3005, 0x01)] with y := 0x05 }
      0x00 0x01 0x05 0xFD 0x0203 0b000100 [] 4 = true := by decide

/-- V41-7: STA abs writes, no flags. -/
theorem test_sta_v41_7 :
    shows { begin config 0x0200 [0x8D, 0x00, 0x03] [] with a := 0x00, p := { resetP with n := true } }
      0x00 0x00 0x00 0xFD 0x0203 0b100100 [(0x0300, 0x00)] 4 = true := by decide

/-- V41-9: STA (zp),Y always 6. -/
theorem test_sta_v41_9 :
    shows { begin config 0x0200 [0x91, 0x40] [(0x0040, 0x00), (0x0041, 0x05)] with a := 0x9C, y := 0x01 }
      0x9C 0x00 0x01 0xFD 0x0202 0b000100 [(0x0501, 0x9C)] 6 = true := by decide

/-- V41-10: STX zp,Y wraps. -/
theorem test_stx_v41_10 :
    shows { begin config 0x0200 [0x96, 0xFF] [] with x := 0xAB, y := 0x02 }
      0x00 0xAB 0x02 0xFD 0x0202 0b000100 [(0x0001, 0xAB)] 4 = true := by decide

/-- V41-11: STY zp,X. -/
theorem test_sty_v41_11 :
    shows { begin config 0x0200 [0x94, 0x10] [] with y := 0x09, x := 0x01 }
      0x00 0x01 0x09 0xFD 0x0202 0b000100 [(0x0011, 0x09)] 4 = true := by decide

/-- V41-12: TAX zero. -/
theorem test_tax_v41_12 :
    shows { begin config 0x0200 [0xAA] [] with a := 0x00, x := 0x33 }
      0x00 0x00 0x00 0xFD 0x0201 0b000110 [] 2 = true := by decide

/-- V41-13: TAY negative. -/
theorem test_tay_v41_13 :
    shows { begin config 0x0200 [0xA8] [] with a := 0xC0 }
      0xC0 0x00 0xC0 0xFD 0x0201 0b100100 [] 2 = true := by decide

/-- V41-14: TXA. -/
theorem test_txa_v41_14 :
    shows { begin config 0x0200 [0x8A] [] with x := 0x01, a := 0xFF, p := { resetP with n := true } }
      0x01 0x01 0x00 0xFD 0x0201 0b000100 [] 2 = true := by decide

/-- V41-15: TYA. -/
theorem test_tya_v41_15 :
    shows { begin config 0x0200 [0x98] [] with y := 0xFF }
      0xFF 0x00 0xFF 0xFD 0x0201 0b100100 [] 2 = true := by decide

/-- V41-16: TSX sets N. -/
theorem test_tsx_v41_16 :
    shows { begin config 0x0200 [0xBA] [] with sp := 0xFD }
      0x00 0xFD 0x00 0xFD 0x0201 0b100100 [] 2 = true := by decide

/-- V41-17: TXS writes no flag. -/
theorem test_txs_v41_17 :
    shows { begin config 0x0200 [0x9A] [] with x := 0x00 }
      0x00 0x00 0x00 0x00 0x0201 0b000100 [] 2 = true := by decide

/-- V42-4: ADC carry-in makes overflow. -/
theorem test_adc_v42_4 :
    shows { begin config 0x0200 [0x69, 0x00] [] with a := 0x7F, p := { resetP with c := true } }
      0x80 0x00 0x00 0xFD 0x0202 0b110100 [] 2 = true := by decide

/-- V42-A5N: ADC decimal Nmos. -/
theorem test_adc_v42_a5n :
    shows { begin config 0x0200 [0x69, 0x50] [] with a := 0x50, p := { resetP with c := false, d := true } }
      0x00 0x00 0x00 0xFD 0x0202 0b111101 [] 2 = true := by decide

/-- V42-7: SBC binary overflow. -/
theorem test_sbc_v42_7 :
    shows { begin config 0x0200 [0xE9, 0x01] [] with a := 0x80, p := { resetP with c := true } }
      0x7F 0x00 0x00 0xFD 0x0202 0b010101 [] 2 = true := by decide

/-- V42-S3N: SBC decimal Nmos. -/
theorem test_sbc_v42_s3n :
    shows { begin config 0x0200 [0xE9, 0x01] [] with a := 0x00, p := { resetP with c := true, d := true } }
      0x99 0x00 0x00 0xFD 0x0202 0b101100 [] 2 = true := by decide

/-- V42-13: CMP equal ignores C-in, keeps V. -/
theorem test_cmp_v42_13 :
    shows { begin config 0x0200 [0xC9, 0x05] [] with a := 0x05, p := { resetP with c := false, v := true } }
      0x05 0x00 0x00 0xFD 0x0202 0b010111 [] 2 = true := by decide

/-- V42-19: CMP abs,X page cross 5. -/
theorem test_cmp_v42_19 :
    shows { begin config 0x0200 [0xDD, 0xFF, 0x00] [(0x0100, 0x01)] with a := 0x01, x := 0x01 }
      0x01 0x01 0x00 0xFD 0x0203 0b000111 [] 5 = true := by decide

/-- V42-16: CPX equal. -/
theorem test_cpx_v42_16 :
    shows { begin config 0x0200 [0xE0, 0x10] [] with x := 0x10 }
      0x00 0x10 0x00 0xFD 0x0202 0b000111 [] 2 = true := by decide

/-- V42-18: CPX zp. -/
theorem test_cpx_v42_18 :
    shows { begin config 0x0200 [0xE4, 0x20] [(0x0020, 0x7F)] with x := 0x80 }
      0x00 0x80 0x00 0xFD 0x0202 0b000101 [] 3 = true := by decide

/-- V42-17: CPY less. -/
theorem test_cpy_v42_17 :
    shows { begin config 0x0200 [0xC0, 0x01] [] with y := 0x00 }
      0x00 0x00 0x00 0xFD 0x0202 0b100100 [] 2 = true := by decide

/-- V43-6: AND (zp),Y page cross 6. -/
theorem test_and_v43_6 :
    shows { begin config 0x0200 [0x31, 0x10] [(0x0010, 0x01), (0x0011, 0x30), (0x3100, 0x81)] with a := 0xFF, y := 0xFF }
      0x81 0x00 0xFF 0xFD 0x0202 0b100100 [] 6 = true := by decide

/-- V43-3: ORA. -/
theorem test_ora_v43_3 :
    shows { begin config 0x0200 [0x09, 0x80] [] with a := 0x0F }
      0x8F 0x00 0x00 0xFD 0x0202 0b100100 [] 2 = true := by decide

/-- V43-5: EOR (zp,X) 6. -/
theorem test_eor_v43_5 :
    shows { begin config 0x0200 [0x41, 0x10] [(0x0010, 0x00), (0x0011, 0x30), (0x3000, 0xFF)] with a := 0x0F, x := 0x00 }
      0xF0 0x00 0x00 0xFD 0x0202 0b100100 [] 6 = true := by decide

/-- V43-7: BIT zp: Z from A&m, N V from m. -/
theorem test_bit_v43_7 :
    shows { begin config 0x0200 [0x24, 0x10] [(0x0010, 0xC0)] with a := 0x01 }
      0x01 0x00 0x00 0xFD 0x0202 0b110110 [] 3 = true := by decide

/-- V43-8: BIT abs: nonzero, bits clear. -/
theorem test_bit_v43_8 :
    shows { begin config 0x0200 [0x2C, 0x00, 0x30] [(0x3000, 0x01)] with a := 0x01, p := { resetP with n := true, v := true } }
      0x01 0x00 0x00 0xFD 0x0203 0b000100 [] 4 = true := by decide

/-- V43-9: ASL A carry out. -/
theorem test_asl_v43_9 :
    shows { begin config 0x0200 [0x0A] [] with a := 0x80 }
      0x00 0x00 0x00 0xFD 0x0201 0b000111 [] 2 = true := by decide

/-- V43-12: ASL abs,X always 7. -/
theorem test_asl_v43_12 :
    shows { begin config 0x0200 [0x1E, 0x00, 0x30] [(0x3001, 0x01)] with x := 0x01 }
      0x00 0x01 0x00 0xFD 0x0203 0b000100 [(0x3001, 0x02)] 7 = true := by decide

/-- V43-13: LSR A to zero. -/
theorem test_lsr_v43_13 :
    shows { begin config 0x0200 [0x4A] [] with a := 0x01 }
      0x00 0x00 0x00 0xFD 0x0201 0b000111 [] 2 = true := by decide

/-- V43-14: LSR zp. -/
theorem test_lsr_v43_14 :
    shows (begin config 0x0200 [0x46, 0x20] [(0x0020, 0x03)])
      0x00 0x00 0x00 0xFD 0x0202 0b000101 [(0x0020, 0x01)] 5 = true := by decide

/-- V43-15: ROL A with carry in. -/
theorem test_rol_v43_15 :
    shows { begin config 0x0200 [0x2A] [] with a := 0x80, p := { resetP with c := true } }
      0x01 0x00 0x00 0xFD 0x0201 0b000101 [] 2 = true := by decide

/-- V43-16: ROL zp,X. -/
theorem test_rol_v43_16 :
    shows { begin config 0x0200 [0x36, 0x10] [(0x0011, 0x7F)] with x := 0x01, p := { resetP with c := false } }
      0x00 0x01 0x00 0xFD 0x0202 0b100100 [(0x0011, 0xFE)] 6 = true := by decide

/-- V43-18: ROR A carry in to bit 7. -/
theorem test_ror_v43_18 :
    shows { begin config 0x0200 [0x6A] [] with a := 0x00, p := { resetP with c := true } }
      0x80 0x00 0x00 0xFD 0x0201 0b100100 [] 2 = true := by decide

/-- V43-19: ROR abs. -/
theorem test_ror_v43_19 :
    shows { begin config 0x0200 [0x6E, 0x00, 0x30] [(0x3000, 0x02)] with p := { resetP with c := true } }
      0x00 0x00 0x00 0xFD 0x0203 0b100100 [(0x3000, 0x81)] 6 = true := by decide

/-- V43-20: INC zp wraps, C untouched. -/
theorem test_inc_v43_20 :
    shows { begin config 0x0200 [0xE6, 0x30] [(0x0030, 0xFF)] with p := { resetP with c := true } }
      0x00 0x00 0x00 0xFD 0x0202 0b000111 [(0x0030, 0x00)] 5 = true := by decide

/-- V43-21: INC abs,X 7. -/
theorem test_inc_v43_21 :
    shows { begin config 0x0200 [0xFE, 0xFF, 0x30] [(0x3100, 0x7F)] with x := 0x01 }
      0x00 0x01 0x00 0xFD 0x0203 0b100100 [(0x3100, 0x80)] 7 = true := by decide

/-- V43-22: DEC zp wraps. -/
theorem test_dec_v43_22 :
    shows (begin config 0x0200 [0xC6, 0x30] [(0x0030, 0x00)])
      0x00 0x00 0x00 0xFD 0x0202 0b100100 [(0x0030, 0xFF)] 5 = true := by decide

/-- V43-23: DEC abs to zero. -/
theorem test_dec_v43_23 :
    shows (begin config 0x0200 [0xCE, 0x00, 0x30] [(0x3000, 0x01)])
      0x00 0x00 0x00 0xFD 0x0203 0b000110 [(0x3000, 0x00)] 6 = true := by decide

/-- V43-24: INX to 0x80. -/
theorem test_inx_v43_24 :
    shows { begin config 0x0200 [0xE8] [] with x := 0x7F }
      0x00 0x80 0x00 0xFD 0x0201 0b100100 [] 2 = true := by decide

/-- V43-26: INY. -/
theorem test_iny_v43_26 :
    shows { begin config 0x0200 [0xC8] [] with y := 0x00 }
      0x00 0x00 0x01 0xFD 0x0201 0b000100 [] 2 = true := by decide

/-- V43-27: DEX to zero. -/
theorem test_dex_v43_27 :
    shows { begin config 0x0200 [0xCA] [] with x := 0x01 }
      0x00 0x00 0x00 0xFD 0x0201 0b000110 [] 2 = true := by decide

/-- V43-28: DEY wraps. -/
theorem test_dey_v43_28 :
    shows { begin config 0x0200 [0x88] [] with y := 0x00 }
      0x00 0x00 0xFF 0xFD 0x0201 0b100100 [] 2 = true := by decide

/-- V44-1: BPL taken, same page. -/
theorem test_bpl_v44_1 :
    shows { begin config 0x0300 [0x10, 0x04] [] with p := { resetP with n := false } }
      0x00 0x00 0x00 0xFD 0x0306 0b000100 [] 3 = true := by decide

/-- V44-2: BMI not taken. -/
theorem test_bmi_v44_2 :
    shows { begin config 0x0300 [0x30, 0x04] [] with p := { resetP with n := false } }
      0x00 0x00 0x00 0xFD 0x0302 0b000100 [] 2 = true := by decide

/-- V44-3: BVC taken backward, page cross. -/
theorem test_bvc_v44_3 :
    shows { begin config 0x0300 [0x50, 0x80] [] with p := { resetP with v := false } }
      0x00 0x00 0x00 0xFD 0x0282 0b000100 [] 4 = true := by decide

/-- V44-4: BVS taken +127. -/
theorem test_bvs_v44_4 :
    shows { begin config 0x0300 [0x70, 0x7F] [] with p := { resetP with v := true } }
      0x00 0x00 0x00 0xFD 0x0381 0b010100 [] 3 = true := by decide

/-- V44-5: BCC taken backward. -/
theorem test_bcc_v44_5 :
    shows { begin config 0x0310 [0x90, 0xFC] [] with p := { resetP with c := false } }
      0x00 0x00 0x00 0xFD 0x030E 0b000100 [] 3 = true := by decide

/-- V44-6: BCS taken, page cross. -/
theorem test_bcs_v44_6 :
    shows { begin config 0x03F0 [0xB0, 0x10] [] with p := { resetP with c := true } }
      0x00 0x00 0x00 0xFD 0x0402 0b000101 [] 4 = true := by decide

/-- V44-11: branch ends a page, target back on the branch's own page: penalty. -/
theorem test_bne_v44_11 :
    shows { begin config 0x02FE [0xD0, 0xFC] [] with p := { resetP with z := false } }
      0x00 0x00 0x00 0xFD 0x02FC 0b000100 [] 4 = true := by decide

/-- V44-8: BEQ not taken. -/
theorem test_beq_v44_8 :
    shows { begin config 0x0400 [0xF0, 0x05] [] with p := { resetP with z := false } }
      0x00 0x00 0x00 0xFD 0x0402 0b000100 [] 2 = true := by decide

/-- V44-9: BEQ taken, target wraps past 0xFFFF. -/
theorem test_beq_v44_9 :
    shows { begin config 0xFFF0 [0xF0, 0x20] [] with p := { resetP with z := true } }
      0x00 0x00 0x00 0xFD 0x0012 0b000110 [] 4 = true := by decide

/-- V44-12: JMP abs. -/
theorem test_jmpAbs_v44_12 :
    shows (begin config 0x0200 [0x4C, 0x00, 0xC0] [])
      0x00 0x00 0x00 0xFD 0xC000 0b000100 [] 3 = true := by decide

/-- V40-13: ind NMOS page wrap. -/
theorem test_jmpInd_v40_13 :
    shows (begin config 0x0400 [0x6C, 0xFF, 0x02] [(0x02FF, 0x34), (0x0200, 0x12), (0x0300, 0x56)])
      0x00 0x00 0x00 0xFD 0x1234 0b000100 [] 5 = true := by decide

/-- V40-14: ind CMOS no wrap. -/
theorem test_jmpInd_v40_14 :
    shows (begin cmosConfig 0x0400 [0x6C, 0xFF, 0x02] [(0x02FF, 0x34), (0x0200, 0x12), (0x0300, 0x56)])
      0x00 0x00 0x00 0xFD 0x5634 0b000100 [] 6 = true := by decide

/-- V44-14: JSR with S=00 wraps in page 1. -/
theorem test_jsr_v44_14 :
    shows { begin config 0x0200 [0x20, 0x00, 0x10] [] with sp := 0x00 }
      0x00 0x00 0x00 0xFE 0x1000 0b000100 [(0x0100, 0x02), (0x01FF, 0x02)] 6 = true := by decide

/-- V44-15: RTS. -/
theorem test_rts_v44_15 :
    shows { begin config 0x1000 [0x60] [(0x01FE, 0x02), (0x01FF, 0x02)] with sp := 0xFD }
      0x00 0x00 0x00 0xFF 0x0203 0b000100 [] 6 = true := by decide

/-- V44-16: RTS from 0xFFFF returns to 0x0000. -/
theorem test_rts_v44_16 :
    shows { begin config 0x1000 [0x60] [(0x01FE, 0xFF), (0x01FF, 0xFF)] with sp := 0xFD }
      0x00 0x00 0x00 0xFF 0x0000 0b000100 [] 6 = true := by decide

/-- V44-7: BNE to itself. -/
theorem test_bne_v44_7 :
    shows { begin config 0x0400 [0xD0, 0xFE] [] with p := { resetP with z := false } }
      0x00 0x00 0x00 0xFD 0x0400 0b000100 [] 3 = true := by decide

/-- V45-2: PHA with S=00 wraps. -/
theorem test_pha_v45_2 :
    shows { begin config 0x0200 [0x48] [] with a := 0x01, sp := 0x00 }
      0x01 0x00 0x00 0xFF 0x0201 0b000100 [(0x0100, 0x01)] 3 = true := by decide

/-- V45-4: PLA with S=FF reads 0x0100. -/
theorem test_pla_v45_4 :
    shows { begin config 0x0200 [0x68] [(0x0100, 0x00)] with sp := 0xFF }
      0x00 0x00 0x00 0x00 0x0201 0b000110 [] 4 = true := by decide

/-- V45-5: PHP pushes B=1, bit5=1. -/
theorem test_php_v45_5 :
    shows { begin config 0x0200 [0x08] [] with p := { resetP with c := true, i := true, n := true } }
      0x00 0x00 0x00 0xFC 0x0201 0b100101 [(0x01FD, 0xB5)] 3 = true := by decide

/-- V45-6: PHP with all flags 0. -/
theorem test_php_v45_6 :
    shows { begin config 0x0200 [0x08] [] with p := { resetP with i := false } }
      0x00 0x00 0x00 0xFC 0x0201 0b000000 [(0x01FD, 0x30)] 3 = true := by decide

/-- V45-7: PLP ignores bits 5 and 4. -/
theorem test_plp_v45_7 :
    shows { begin config 0x0200 [0x28] [(0x01FD, 0xFF)] with sp := 0xFC }
      0x00 0x00 0x00 0xFD 0x0201 0b111111 [] 4 = true := by decide

/-- V45-8: PLP of 0x00. -/
theorem test_plp_v45_8 :
    shows { begin config 0x0200 [0x28] [(0x01FD, 0x00)] with sp := 0xFC, p := { resetP with c := true, n := true } }
      0x00 0x00 0x00 0xFD 0x0201 0b000000 [] 4 = true := by decide

/-- V45-9: CLC. -/
theorem test_clc_v45_9 :
    shows { begin config 0x0200 [0x18] [] with p := { resetP with c := true } }
      0x00 0x00 0x00 0xFD 0x0201 0b000100 [] 2 = true := by decide

/-- V45-10: SEC. -/
theorem test_sec_v45_10 :
    shows (begin config 0x0200 [0x38] [])
      0x00 0x00 0x00 0xFD 0x0201 0b000101 [] 2 = true := by decide

/-- V45-11: CLI. -/
theorem test_cli_v45_11 :
    shows (begin config 0x0200 [0x58] [])
      0x00 0x00 0x00 0xFD 0x0201 0b000000 [] 2 = true := by decide

/-- V45-12: SEI. -/
theorem test_sei_v45_12 :
    shows { begin config 0x0200 [0x78] [] with p := { resetP with i := false } }
      0x00 0x00 0x00 0xFD 0x0201 0b000100 [] 2 = true := by decide

/-- V45-13: CLD. -/
theorem test_cld_v45_13 :
    shows { begin config 0x0200 [0xD8] [] with p := { resetP with d := true } }
      0x00 0x00 0x00 0xFD 0x0201 0b000100 [] 2 = true := by decide

/-- V45-14: SED. -/
theorem test_sed_v45_14 :
    shows (begin config 0x0200 [0xF8] [])
      0x00 0x00 0x00 0xFD 0x0201 0b001100 [] 2 = true := by decide

/-- V45-15: CLV. -/
theorem test_clv_v45_15 :
    shows { begin config 0x0200 [0xB8] [] with p := { resetP with v := true } }
      0x00 0x00 0x00 0xFD 0x0201 0b000100 [] 2 = true := by decide

/-- V45-16: NOP. -/
theorem test_nop_v45_16 :
    shows (begin config 0x0200 [0xEA] [])
      0x00 0x00 0x00 0xFD 0x0201 0b000100 [] 2 = true := by decide

/-- V45-17: BRK. -/
theorem test_brk_v45_17 :
    shows { begin config 0x0300 [0x00, 0xAA] [(0xFFFE, 0x00), (0xFFFF, 0x90)] with sp := 0xFF, p := { resetP with i := false } }
      0x00 0x00 0x00 0xFC 0x9000 0b000100 [(0x01FF, 0x03), (0x01FE, 0x02), (0x01FD, 0x30)] 7 = true := by decide

/-- V45-18: BRK with I=1 still taken; CMOS clears D. -/
theorem test_brk_v45_18 :
    shows { begin cmosConfig 0x0300 [0x00] [(0xFFFE, 0x00), (0xFFFF, 0x90)] with sp := 0xFF, p := { resetP with d := true } }
      0x00 0x00 0x00 0xFC 0x9000 0b000100 [(0x01FF, 0x03), (0x01FE, 0x02), (0x01FD, 0x3C)] 7 = true := by decide

/-- V45-19: RTI. -/
theorem test_rti_v45_19 :
    shows { begin config 0x9000 [0x40] [(0x01FD, 0x30), (0x01FE, 0x02), (0x01FF, 0x03)] with sp := 0xFC, p := { resetP with i := true } }
      0x00 0x00 0x00 0xFF 0x0302 0b000000 [] 6 = true := by decide

/-- V45-20: RTI restores flags, no +1. -/
theorem test_rti_v45_20 :
    shows { begin config 0x9000 [0x40] [(0x01FD, 0xC3), (0x01FE, 0x34), (0x01FF, 0x12)] with sp := 0xFC }
      0x00 0x00 0x00 0xFF 0x1234 0b110011 [] 6 = true := by decide

/-- V45-21: illegal 1C as NOP abs,X page cross (policy Nop). -/
theorem test_illegal_v45_21 :
    shows { begin nopConfig 0x0200 [0x1C, 0xF0, 0x12] [] with x := 0x20 }
      0x00 0x20 0x00 0xFD 0x0203 0b000100 [] 5 = true := by decide

/-- V45-23: illegal 04 as NOP zp reads nothing (policy Nop). -/
theorem test_illegal_v45_23 :
    shows (begin nopConfig 0x0200 [0x04, 0x10] [])
      0x00 0x00 0x00 0xFD 0x0202 0b000100 [] 3 = true := by decide

/-! ## Illegal opcodes, interrupts, the hook and the host's calls -/

/-- S11: a strict illegal opcode. -/
theorem test_step_s11 :
    after (begin config 0x0400 [0x02] []) (fun t => decide (t.pc = 0x0400 ∧ t.lastStep = some (.illegal 0x0400 0x02 0) ∧
      t.busLog = [.read 0x0400 0x02] ∧ t.instructions = 0 ∧ t.cycles = 0)) = true := by decide

/-- V46-9: an illegal opcode at the vector target; the entry stands. -/
theorem test_step_v46_9 :
    after (raiseIrq { begin config 0x0200 [0xEA] [(0x8000, 0x02), (0xFFFE, 0x00), (0xFFFF, 0x80)] with
        sp := 0xFF, p := { resetP with i := false } })
      (fun t => decide (t.lastStep = some (.illegal 0x8000 0x02 7) ∧
        writesOf t = [(0x01FF, 0x02), (0x01FE, 0x00), (0x01FD, 0x20)] ∧ t.sp = 0xFC ∧ t.p.i = true ∧ t.pc = 0x8000 ∧
        t.cycles = 7 ∧ t.instructions = 0)) = true := by decide

/-- V60-4: NMI and IRQ at one boundary. -/
theorem test_step_v60_4 :
    after (raiseIrq (raiseNmi { begin config 0x0200 [0xEA] [(0x9000, 0xEA), (0xFFFA, 0x00), (0xFFFB, 0x90),
        (0xFFFE, 0x00), (0xFFFF, 0x80)] with sp := 0xFF, p := { resetP with i := false } }))
      (fun t => decide (writesOf t = [(0x01FF, 0x02), (0x01FE, 0x00), (0x01FD, 0x20)] ∧ t.pc = 0x9001 ∧
        t.lastStep = some (.ok 9) ∧ t.nmiPending = false ∧ t.irqPending = false)) = true := by decide

/-- S6: a masked IRQ is dropped at the boundary. -/
theorem test_step_s6 :
    after (raiseIrq (begin config 0x0200 [0x58, 0xEA] [(0xFFFF, 0x80)]))
      (fun t => decide (t.pc = 0x0201 ∧ t.p.i = false ∧ t.irqPending = false ∧ t.lastStep = some (.ok 2))) = true := by
  decide

/-- V60-6: CMOS clears D on entry, after it was pushed. -/
theorem test_step_v60_6 :
    after (raiseIrq { begin cmosConfig 0x0200 [0xEA] [(0x8000, 0xEA), (0xFFFE, 0x00), (0xFFFF, 0x80)] with
        sp := 0xFF, p := { resetP with i := false, d := true } })
      (fun t => decide (writesOf t = [(0x01FF, 0x02), (0x01FE, 0x00), (0x01FD, 0x28)] ∧
        flagBits t.p = 0b000100)) = true := by decide

/-- V46-7: a raise by the hook is pending after the step. -/
theorem test_step_v46_7 :
    after (registerHook (some { id := 1, invocations := 0, program := .call .raiseIrq .done, again := .ret .done })
        (begin config 0x0200 [0x58, 0xEA] []))
      (fun t => decide (t.p.i = false ∧ t.irqPending = true ∧ t.lastStep = some (.ok 2) ∧
        t.hook = some { id := 1, invocations := 1, program := .ret .done, again := .ret .done })) = true := by decide

/-- V60-10: `save()`. -/
theorem test_save_v60_10 :
    save { State.reset with
        pc := 0x1234, a := 0x01, x := 0x02, y := 0x03, sp := 0xFD
        p := { n := true, v := false, d := false, i := false, z := false, c := true } } =
      [0x34, 0x12, 0x01, 0x02, 0x03, 0xFD, 0xB1] := by decide

/-- V60-11: `restore()`. -/
theorem test_restore_v60_11 :
    let r := restore [0x00, 0xC0, 0xAA, 0xBB, 0xCC, 0xEE, 0x00] { State.reset with nmiPending := true, cycles := 100 }
    r.1 = .ok ∧ r.2.pc = 0xC000 ∧ r.2.a = 0xAA ∧ r.2.x = 0xBB ∧ r.2.y = 0xCC ∧ r.2.sp = 0xEE ∧ flagBits r.2.p = 0 ∧
    r.2.nmiPending = true ∧ r.2.cycles = 100 ∧ save r.2 = [0x00, 0xC0, 0xAA, 0xBB, 0xCC, 0xEE, 0x30] := by decide

/-- The `reset_regs` of V70-1. -/
def resetRegsV70 : ResetRegs :=
  { a := 0x01, x := 0x02, y := 0x03, s := 0x10, n := true, v := true, d := true, z := true, c := true }

/-- V70-1 and V70-2: `reset()` on both variants. -/
theorem test_reset_v70_1 :
    let s := { begin config 0x0200 [] [(0xFFFC, 0x00), (0xFFFD, 0xC0)] with
      cycles := 50, instructions := 9, nmiPending := true, irqPending := true
      cfg := { config with resetRegs := resetRegsV70 } }
    let t := hostReset s
    let u := hostReset { s with cfg := { cmosConfig with resetRegs := resetRegsV70 } }
    t.pc = 0xC000 ∧ t.a = 0x01 ∧ t.x = 0x02 ∧ t.y = 0x03 ∧ t.sp = 0x10 ∧ flagBits t.p = 0b111111 ∧
    t.nmiPending = false ∧ t.irqPending = false ∧ t.cycles = 50 ∧ t.instructions = 9 ∧
    t.busLog = [.read 0xFFFD 0xC0, .read 0xFFFC 0x00] ∧ flagBits u.p = 0b110111 := by decide

/-- The operand syntax of R170. -/
theorem test_assembly_text :
    assemblyText (.lda (.izx 0x20)) = "LDA ($20,X)" ∧ assemblyText (.beq 0x05) = "BEQ *+7" ∧
    branchByte 0x0200 0x0207 = some 0x05 ∧ branchByte 0x0200 0x0282 = none ∧
    branchByte 0x0200 0x0281 = some 0x7F ∧ branchByte 0x0200 0x0182 = some 0x80 := by decide

/-! ## Witnesses: states and operands that meet the hypotheses of each statement that has some -/

/-- Does a step complete in `n` cycles? -/
def stepsOk (s : State) (n : Nat) : Bool := after s (fun t => t.lastStep == some (.ok n))

/-- Does a step raise an illegal opcode, having taken `n` cycles? -/
def stepsIllegal (s : State) (n : Nat) : Bool :=
  after s (fun t => match t.lastStep with
    | some (.illegal _ _ k) => k == n
    | _ => false)

/-- A Bool test of the state after a step gives that state. -/
theorem of_after {s : State} {f : State → Bool} (h : after s f = true) : ∃ t, step s = .next t ∧ f t = true := by
  unfold after at h
  split at h
  · exact ⟨_, by assumption, h⟩
  · cases h

/-- Does `exec` of an instruction leave a state of which a test holds? -/
def execAfter (i : Instr) (s : State) (f : State → Bool) : Bool :=
  match exec i s with
  | .next t => f t
  | _ => false

/-- A callback that does this once and nothing afterwards. -/
def callback (program : HookProgram) : Callback := { id := 1, invocations := 0, program := program, again := .done }

/-- A state with that callback in the slot. -/
def hooked (program : HookProgram) (s : State) : State := registerHook (some (callback program)) s

/-- A hook that writes a byte, raises an IRQ and reads an accessor. -/
def busyHook : HookProgram := .call (.busWrite 0x0300 0x01) (.call .raiseIrq (.call .save .done))

/-- A hook that polls address 0x0010 and raises an NMI where bit 7 of the answer is set. -/
def pollingHook : HookProgram := .call (.busRead 0x0010) (.test (.bit 7) (.call .raiseNmi .done) .done)

/-- A hook that makes a call it must not make after one that it may. -/
def forbiddenHook : HookProgram := .call .getPc (.call (.forbidden .run) .done)

/-- A state with all memory's pages but the last two a device's. -/
def deviceState : State :=
  { State.reset with cfg := { config with io := [{ first := 0x0200, last := 0xFDFF }] } }

/-- DecodeOfEncode: the forms with no, one and two operand bytes at the ends of their range, and an illegal byte. -/
theorem witness_decode_of_encode :
    Instr.rts.wf = true ∧ (Instr.lda (.imm 0xFF)).wf = true ∧ (Instr.jmpInd 0xFFFF).wf = true ∧
    (Instr.illegal 0xFF).wf = true := by decide

/-- StepRunsDecodedInstruction: instructions of one, two and three bytes, an interrupt pending before the last. -/
theorem witness_step_runs_decoded :
    let ready := fun (s : State) (i : Instr) =>
      let s1 := serviceInterrupts s
      let r0 := busRead s1.pc s1
      let r1 := busRead (s1.pc + 1) r0.2
      let r2 := busRead (s1.pc + 2) r1.2
      ∃ rest, configRefusal s.cfg = none ∧ decode [r0.1, r1.1, r2.1] = .ok (i, rest)
    ready (begin config 0xFFFF [0xEA] []) .nop ∧ ready (begin config 0xFFFE [0xA9, 0x80] []) (.lda (.imm 0x80)) ∧
    ready (begin config 0x0200 [0x4C, 0x00, 0xC0] []) (.jmpAbs 0xC000) ∧
    ready (raiseNmi (begin config 0x0200 [] [(0xFFFB, 0x90), (0x9000, 0x02)])) (.illegal 0x02) :=
  ⟨⟨_, by decide, rfl⟩, ⟨_, by decide, rfl⟩, ⟨_, by decide, rfl⟩, ⟨_, by decide, rfl⟩⟩

/-- StepAlwaysCompletes: with no hook, with a hook that makes calls, and with a device. -/
theorem witness_step_completes :
    Ready State.reset = true ∧ Ready (hooked busyHook State.reset) = true ∧ Ready (hooked pollingHook State.reset) = true ∧
    Ready deviceState = true := by decide

/-- StepRefusals: each of the four. -/
theorem witness_step_refusals :
    ({ config with family := .m68000 }).family ≠ .mos6502 ∧
    (({ config with illegalPolicy := none }).family = .mos6502 ∧ ({ config with illegalPolicy := none }).illegalPolicy = none) ∧
    (configured (hooked (.call (.forbidden .run) .done) State.reset) = true ∧
      (hooked (.call (.forbidden .run) .done) State.reset).hook = some (callback (.call (.forbidden .run) .done))) ∧
    (let s := hooked forbiddenHook State.reset
      let f := fetchInstr (serviceInterrupts s)
      configured s = true ∧ s.hook = some (callback forbiddenHook) ∧
      execAfter f.1 f.2 (fun u => u.lastStep == some (.ok 7) &&
        (hookPath forbiddenHook 0 u).1.find? (fun c => !HookCall.allowed c) == some (.forbidden .run)) = true) := by
  decide

/-- ShapesWithin of the default shapes (StepCostBounds, RunStopsAtBudget). -/
theorem witness_shapes : ShapesWithin config ∧ ShapesWithin nopConfig := by unfold ShapesWithin; decide

/-- StepResultMatchesCounters, StepCostBounds, StepKeepsConfiguration, StepExtendsBusRecord: steps that complete in 2
and in 14 cycles, and raises that cost none and an entry's 7. -/
theorem witness_step_results :
    (∃ t, step (begin config 0x0200 [0xEA] []) = .next t ∧ (t.lastStep == some (.ok 2)) = true) ∧
    (∃ t, step (raiseNmi (begin config 0x0200 [] [(0xFFFB, 0x90), (0x9000, 0x1E)])) = .next t ∧
      (t.lastStep == some (.ok 14)) = true) ∧
    stepsIllegal (begin config 0x0200 [0x02] []) 0 = true ∧
    stepsIllegal (raiseNmi (begin config 0x0200 [] [(0xFFFB, 0x90), (0x9000, 0x02)])) 7 = true :=
  ⟨of_after (by decide), of_after (by decide), by decide, by decide⟩

/-- HookCalledOncePerInstruction: steps without a hook, with one that completes, with one that raises an illegal opcode;
a hook with several calls, and a polling one with either answer. -/
theorem witness_hook :
    (State.reset.hook = none ∧ stepsOk State.reset 7 = true) ∧
    ((hooked .done State.reset).hook = some (callback .done) ∧ stepsOk (hooked .done State.reset) 7 = true) ∧
    stepsIllegal (hooked busyHook (begin config 0x0200 [0x02] [])) 0 = true ∧
    after (hooked busyHook State.reset) (fun t => t.irqPending && !t.nmiPending && t.byteAt 0x0300 == 0x01 &&
      t.busLog.head? == some (.write 0x0300 0x01)) = true ∧
    after (hooked pollingHook (begin config 0x0200 [0xEA] [(0x0010, 0x80)])) (fun t => t.nmiPending && !t.irqPending) = true ∧
    after (hooked pollingHook (begin config 0x0200 [0xEA] [(0x0010, 0x7F)])) (fun t => !t.nmiPending) = true := by decide

/-- StepKeepsMemoryCanonical: a state with memory listed, and its step. -/
theorem witness_memory_canonical :
    Memory.wf (begin config 0x0200 [0x85, 0x10] [(0xFFFF, 0x01)]).mem = true ∧
    stepsOk (begin config 0x0200 [0x85, 0x10] [(0xFFFF, 0x01)]) 3 = true := by decide

/-- FlagWriters: each flag changed by an instruction of its list, and D by BRK where the configuration clears it. -/
theorem witness_flag_writers :
    let s := { State.reset with a := 0x50 }
    execAfter (.adc (.imm 0x50)) s (fun t => t.p.v != s.p.v) = true ∧ execAfter .sed s (fun t => t.p.d != s.p.d) = true ∧
    execAfter .brk { s with p := { resetP with d := true }, cfg := cmosConfig } (fun t => !t.p.d) = true ∧
    execAfter .cli s (fun t => t.p.i != s.p.i) = true ∧ execAfter .sec s (fun t => t.p.c != s.p.c) = true ∧
    execAfter (.lda (.imm 0x80)) s (fun t => t.p.n != s.p.n) = true ∧
    execAfter (.lda (.imm 0x00)) s (fun t => t.p.z != s.p.z) = true := by decide

/-- RegisterWriters: each register changed, A also by a shift in accumulator mode. -/
theorem witness_register_writers :
    let s := { State.reset with a := 0x50 }
    execAfter (.lda (.imm 0x01)) s (fun t => t.a != s.a) = true ∧ execAfter (.asl .acc) s (fun t => t.a != s.a) = true ∧
    execAfter .tax s (fun t => t.x != s.x) = true ∧ execAfter .tay s (fun t => t.y != s.y) = true ∧
    execAfter .txs s (fun t => t.sp != s.sp) = true := by decide

/-- MemoryWriters: a store at 0xFFFF and a push at 0x0100. -/
theorem witness_memory_writers :
    let s := { State.reset with a := 0x50, sp := 0x00 }
    execAfter (.sta (.abs 0xFFFF)) s (fun t => t.byteAt 0xFFFF != s.byteAt 0xFFFF) = true ∧
    execAfter .pha s (fun t => t.byteAt 0x0100 != s.byteAt 0x0100) = true := by decide

/-- ReadGivesLatestWrite: the same address and the neighbours across 0xFFFF, beside a device. -/
theorem witness_read_latest_write :
    deviceState.isIo 0x0000 = false ∧ deviceState.isIo 0xFFFF = false ∧ deviceState.isIo 0x01FF = false ∧
    deviceState.isIo 0xFE00 = false ∧ deviceState.isIo 0x0200 = true := by decide

/-- PushesThenPulls, CallThenReturn, ReturnResumesInterrupted: page 0x01 is memory, for 0 and for 256 bytes. -/
theorem witness_stack : stackIsMemory deviceState ∧ ([] : List Byte).length ≤ 256 ∧ (List.replicate 256 (0xA5 : Byte)).length ≤ 256 :=
  ⟨by unfold stackIsMemory; decide, by decide, by rw [List.length_replicate]⟩

/-- FetchThenResolveIsMode: opcodes with no operand byte, an immediate, two operand bytes. -/
theorem witness_fetch_resolve :
    modeTable (fetch (begin config 0x0200 [0x0A] [])).1 = some .acc ∧
    modeTable (fetch (begin config 0x0200 [0xA9] [])).1 = some .imm ∧
    modeTable (fetch (begin config 0x0200 [0x6C] [])).1 = some .ind := by decide

/-- The read, store and read-modify-write rules: every form of the lists is met by an operand at the end of its range. -/
theorem witness_forms :
    let operands : List Operand :=
      [.acc, .imm 0xFF, .zp 0xFF, .zpx 0xFF, .zpy 0xFF, .izx 0xFF, .izy 0xFF, .abs 0xFFFF, .abx 0xFFFF, .aby 0xFFFF]
    ∀ f ∈ ldaForms ++ ldxForms ++ ldyForms ++ staForms ++ stxForms ++ styForms ++ adcForms ++ sbcForms ++ cmpForms ++
        cpxForms ++ cpyForms ++ andForms ++ oraForms ++ eorForms ++ bitForms ++ aslForms ++ lsrForms ++ rolForms ++
        rorForms ++ incForms ++ decForms,
      operands.any (fun o => o.mode == f.mode) = true := by decide

/-- AdcBinaryFollowsRule, SbcBinaryFollowsRule, AddThenSubtract: D clear, and D set with decimal arithmetic disabled. -/
theorem witness_binary :
    binaryMode State.reset ∧ State.reset.p.c = false ∧
    binaryMode { State.reset with p := { resetP with d := true }, cfg := { config with bcdMode := .disabled } } ∧
    { mode := .izy, opcode := 0x71, cycles := 5, star := true } ∈ adcForms ∧
    { mode := .izy, opcode := 0xF1, cycles := 5, star := true } ∈ sbcForms ∧ (Operand.izy 0xFF).mode = .izy :=
  ⟨.inl rfl, rfl, .inr rfl, by decide, by decide, rfl⟩

/-- AdcDecimalFollowsRule, SbcDecimalFollowsRule: both ways. -/
theorem witness_decimal :
    decimalWay false { State.reset with p := { resetP with d := true } } ∧
    decimalWay true { State.reset with p := { resetP with d := true }, cfg := cmosConfig } ∧
    { mode := .imm, opcode := 0x69, cycles := 2, star := false } ∈ adcForms ∧
    { mode := .imm, opcode := 0xE9, cycles := 2, star := false } ∈ sbcForms ∧ (Operand.imm 0x99).mode = .imm :=
  ⟨⟨rfl, rfl⟩, ⟨rfl, rfl⟩, by decide, by decide, rfl⟩

/-- DecimalAddIsDecimal, DecimalSubtractIsDecimal: the least and the greatest two digits. -/
theorem witness_bcd : isBcd 0x00 ∧ isBcd 0x99 := ⟨⟨by decide, by decide⟩, ⟨by decide, by decide⟩⟩

/-- BranchesFollowRules: taken within the page, taken across its end, and not taken. -/
theorem witness_branches :
    let s := { State.reset with pc := 0x02FF }
    s.p.z = false ∧ (BitVec.ofInt 16 (s.pc.toNat + (0x00 : Byte).toInt)).toNat / 256 = s.pc.toNat / 256 ∧
    (BitVec.ofInt 16 (s.pc.toNat + (0x01 : Byte).toInt)).toNat / 256 ≠ s.pc.toNat / 256 ∧ ¬ s.p.z = true := by decide

/-- FlagRoundTrip: a stack byte that is memory. -/
theorem witness_flag_round_trip : deviceState.isIo (stackAddr deviceState.sp) = false := by decide

/-- IllegalOpcodeRaises: Strict, and Nop without a shape. -/
theorem witness_illegal_raises :
    (isIllegalOpcode 0x1C = true ∧ State.reset.cfg.illegalPolicy = some .strict) ∧
    (isIllegalOpcode 0x02 = true ∧ nopConfig.illegalPolicy = some .nop ∧ shapeOf nopConfig 0x02 = none) := by decide

/-- IllegalOpcodeRunsAsNop: a shape with the penalty and one without operand bytes. -/
theorem witness_illegal_nop :
    isIllegalOpcode 0x1C = true ∧ nopConfig.illegalPolicy = some .nop ∧
    shapeOf nopConfig 0x1C = some { mode := .abx, base := 4, eligible := true } ∧
    isIllegalOpcode 0x1A = true ∧ shapeOf nopConfig 0x1A = some { mode := .imp, base := 2, eligible := false } := by decide

/-- IllegalStepRepeats. -/
theorem witness_illegal_step :
    let s := begin config 0x0400 [0x02] []
    s.cfg.family = .mos6502 ∧ s.cfg.illegalPolicy = some .strict ∧ s.nmiPending = false ∧ s.irqPending = false ∧
    s.isIo s.pc = false ∧ s.byteAt s.pc = 0x02 ∧ isIllegalOpcode 0x02 = true := by decide

/-- InterruptCheckFollowsRule, MaskedIrqHasNoEffect: an NMI, an IRQ that is taken, one that is masked, and none. -/
theorem witness_interrupts :
    (raiseNmi State.reset).nmiPending = true ∧
    (let s := raiseIrq { State.reset with p := { resetP with i := false } };
      s.nmiPending = false ∧ s.irqPending = true ∧ s.p.i = false) ∧
    ((raiseIrq State.reset).nmiPending = false ∧ (raiseIrq State.reset).p.i = true) ∧
    (State.reset.nmiPending = false ∧ State.reset.irqPending = false) := by decide

/-- SaveAndRestore: buffers just shorter and just longer than seven bytes. -/
theorem witness_restore : (List.replicate 6 (0 : Byte)).length ≠ 7 ∧ (List.replicate 8 (0 : Byte)).length ≠ 7 := by decide

/-- Does `run`, followed for some steps, return what a test holds of? -/
def runs (steps budget : Nat) (s : State) (f : RunResult → Bool) : Bool :=
  match run steps budget s with
  | some (.next r) => f r.1
  | _ => false

/-- Is the outcome this refusal? -/
def refusedAs (o : Host.Outcome State Fault Refusal) (r : Refusal) : Bool :=
  match o with
  | .refused q => q == r
  | _ => false

/-- One shape, of no cycles, at 0x1A (R13). -/
def freeShapeConfig : Config := { nopConfig with illegalShape := [(0x1A, { mode := .imp, base := 0, eligible := false })] }

/-- RunStopsAtBudget: no budget, a budget that is overshot, one used up by two steps, a step of no cycles before one of
two, an illegal opcode, a refusal, and the premises of the last clauses. -/
theorem witness_run :
    runs 0 0 State.reset (fun r => r == .ok 0) = true ∧ runs 1 1 State.reset (fun r => r == .ok 7) = true ∧
    (stepsOk (begin config 0x0200 [0xEA, 0xEA] []) 2 = true ∧
      runs 2 3 (begin config 0x0200 [0xEA, 0xEA] []) (fun r => r == .ok 4) = true) ∧
    (stepsOk (begin freeShapeConfig 0x0200 [0x1A, 0xEA] []) 0 = true ∧
      runs 2 1 (begin freeShapeConfig 0x0200 [0x1A, 0xEA] []) (fun r => r == .ok 2) = true) ∧
    runs 1 9 (begin config 0x0200 [0x02] []) (fun r => r == .illegal 0x0200 0x02 0) = true ∧
    refusedAs (step { State.reset with cfg := { config with family := .m68000 } }) (.familyNotDescribed .m68000) = true ∧
    configured State.reset = true ∧ State.reset.hook = none := by decide

/-- The micro-operations of a zero-page load of A, after whose fetch PC stands at the operand, and of INX. -/
def fetchOperand : MicroOp :=
  { access := .read (.reg .pc), assigns := [(.reg .pc, .apply .add (.reg .pc) (.const 1))] }
def loadA : MicroOp :=
  { access := .read (.kept 0)
    assigns := [(.reg .a, .kept 0), (.flag .n, .apply .and (.kept 0) (.const 0x80)),
      (.flag .z, .apply .equal (.kept 0) (.const 0))] }
def stepX : MicroOp := { access := .none, assigns := [(.reg .x, .apply .add (.reg .x) (.const 1))] }

/-- A state of the sequencer at a step of the load of A and then INX. -/
def sequencer (point : SuspendPoint) (k : Nat) (entry : Bool) : State :=
  { begin { config with microprogram := [(0, [fetchOperand, loadA, stepX])], suspendPoint := point } 0x0200 [0x10]
      [(0x0010, 0x80)] with
    seq := { currentOp := some 0, microStep := k, scratch := [], suspended := false, entry := entry } }

/-- A family that decodes nothing: every operation is number 7, an entry 8 or 9, and takes 5 cycles. -/
def family : MicroFamily :=
  { decode := fun s => (7, s)
    entry := fun k => match k with
      | .nmi => 8
      | .irq => 9
    cycles := fun _ _ => 5 }

/-- MicroStepFollowsRule: no operation yet; past the last micro-operation of an instruction and of an entry, with each
outcome of the check; a bus micro-operation with either suspension point, suspended and not; and one without access. -/
theorem witness_micro_step :
    let at_ := fun s : State => microOpAt s.cfg 0 s.seq.microStep
    let last := sequencer .afterWaitCheck 3 false
    let held := (sequencer .beforeWaitCheck 0 false).setSeq { (sequencer .beforeWaitCheck 0 false).seq with suspended := true }
    State.reset.seq.currentOp = none ∧ (State.reset.nmiPending = false ∧ State.reset.irqPending = false) ∧
    (last.seq.currentOp = some 0 ∧ at_ last = none ∧ last.seq.entry = false) ∧
    (last.hook = none ∧ last.nmiPending = false ∧ last.irqPending = false ∧ (raiseNmi last).nmiPending = true ∧
      (raiseIrq { last with p := { resetP with i := false } }).irqPending = true ∧ last.p.i = true) ∧
    refusedAs (callHook (hooked forbiddenHook last)) (.hookCalled .run) = true ∧
    (at_ (sequencer .afterWaitCheck 3 true) = none ∧ (sequencer .afterWaitCheck 3 true).seq.entry = true) ∧
    (at_ (sequencer .afterWaitCheck 2 false) = some stepX ∧ stepX.access = .none) ∧
    (at_ (sequencer .afterWaitCheck 0 false) = some fetchOperand ∧ fetchOperand.access ≠ .none ∧
      (sequencer .afterWaitCheck 0 false).cfg.suspendPoint = .afterWaitCheck) ∧
    (at_ (sequencer .beforeWaitCheck 0 false) = some fetchOperand ∧
      (sequencer .beforeWaitCheck 0 false).cfg.suspendPoint = .beforeWaitCheck ∧
      (sequencer .beforeWaitCheck 0 false).seq.suspended = false) ∧
    (at_ held = some fetchOperand ∧ held.cfg.suspendPoint = .beforeWaitCheck ∧ held.seq.suspended = true) := by decide

/-- Do some micro-step calls leave a state of which a test holds? -/
def microAfter (s : State) (calls : Nat) (f : State → Bool) : Bool :=
  match calls with
  | 0 => f s
  | k + 1 => match microStepCall family false false s with
    | .next m => microAfter m.2 k f
    | _ => false

/-- R541, R543: the first boundary counts nothing; the boundary of an instruction counts it and begins the entry of an
unmasked IRQ; the boundary of an entry counts none. -/
theorem test_micro_boundary :
    microAfter State.reset 1 (fun t => t.seq.currentOp == some 7 && t.instructions == 0 && t.cycles == 0) = true ∧
    microAfter (raiseIrq { sequencer .afterWaitCheck 3 false with p := { resetP with i := false } }) 1
      (fun t => t.seq.currentOp == some 9 && t.seq.entry && t.instructions == 1 && t.cycles == 5 && !t.irqPending) = true ∧
    microAfter (sequencer .afterWaitCheck 3 true) 1
      (fun t => t.seq.currentOp == some 7 && t.instructions == 0 && t.cycles == 5) = true := by decide

/-- R540: the microprogram carries the load out (0x80 at 0x0010: A = 0x80, N set), then INX. -/
theorem test_microprogram :
    microAfter (sequencer .afterWaitCheck 0 false) 3 (fun t => t.seq.microStep == 3 && t.a == 0x80 && t.x == 0x01 &&
      t.pc == 0x0201 && t.p.n && !t.p.z && t.busLog == [.read 0x0010 0x80, .read 0x0200 0x10]) = true := by decide

/-- AssembledBranchReaches: both ends of the reach, and across 0xFFFF. -/
theorem witness_branch_byte :
    branchByte 0x0200 0x0182 = some 0x80 ∧ branchByte 0x0200 0x0281 = some 0x7F ∧ branchByte 0xFFF0 0x0012 = some 0x20 := by
  decide

end Sys2Proof.Tests
end

section
/-! SUPPORT AND PROOF. When a step is refused (O6): a configuration the spec does not accept, or the first call of the
hook that R521 forbids. The one idea is that `hookPath`, which does not raise interrupts, and `runHook`, which does, see
the same answers, because no answer depends on the two latches. -/

namespace Sys2Proof.Machine

open Sys2Proof.Claims

/-! ## Hook calls beside the latches (R521, R612) -/

/-- A state with these two values in the latches (R63, R64). -/
def State.withLatches (nmi irq : Bool) (s : State) : State := (s.setNmi nmi).setIrq irq

theorem withLatches_self (s : State) : s.withLatches s.nmiPending s.irqPending = s := rfl

theorem hookAnswer_withLatches (c : HookCall) (nmi irq : Bool) (s : State) :
    hookAnswer (s.withLatches nmi irq) c = hookAnswer s c := by
  cases c <;> rfl

theorem busWrite_withLatches (a : Addr) (v : Byte) (nmi irq : Bool) (s : State) :
    busWrite a v (s.withLatches nmi irq) = (busWrite a v s).withLatches nmi irq := by
  rw [busWrite_eq, busWrite_eq]
  rfl

/-- An allowed call answers `hookAnswer`, makes `busAccess`, and sets the latch that it raises. -/
theorem runHookCall_withLatches {c : HookCall} (hc : HookCall.allowed c = true) (nmi irq : Bool) (s : State) :
    runHookCall c (s.withLatches nmi irq) =
      .next (hookAnswer s c, (busAccess s c).withLatches (nmi || c == .raiseNmi) (irq || c == .raiseIrq)) := by
  rw [← hookAnswer_withLatches c nmi irq s]
  have hkept : (c == .raiseNmi) = false → (c == .raiseIrq) = false →
      (busAccess s c).withLatches (nmi || c == .raiseNmi) (irq || c == .raiseIrq) =
        (busAccess s c).withLatches nmi irq := fun hn hi => by rw [hn, hi, Bool.or_false, Bool.or_false]
  cases c with
  | forbidden e => cases hc
  | raiseNmi => simp [runHookCall, hookAnswer, busAccess, State.withLatches, raiseNmi, State.setNmi, State.setIrq]
  | raiseIrq => simp [runHookCall, hookAnswer, busAccess, State.withLatches, raiseIrq, State.setNmi, State.setIrq]
  | busWrite a v => rw [hkept rfl rfl, runHookCall, busWrite_withLatches]; rfl
  | _ => rw [hkept rfl rfl]; rfl

/-- A hook is refused by the first call on its path that R521 forbids, whatever its earlier calls have raised. -/
theorem runHook_refused {prog : HookProgram} {k : Nat} {s : State} {e : HostEntry}
    (h : (hookPath prog k s).1.find? (fun c => !HookCall.allowed c) = some (.forbidden e)) (nmi irq : Bool) :
    runHook prog k (s.withLatches nmi irq) = .refused (.hookCalled e) := by
  induction prog generalizing k s nmi irq with
  | done => cases h
  | ret rest => cases h
  | test t yes no ihy ihn =>
    simp only [hookPath] at h
    simp only [runHook]
    split <;> rename_i ht
    · exact ihy (by rwa [if_pos ht] at h) nmi irq
    · exact ihn (by rwa [if_neg ht] at h) nmi irq
  | call c rest ih =>
    simp only [hookPath, List.find?_cons] at h
    cases hc : HookCall.allowed c with
    | false =>
      obtain rfl : c = .forbidden e := by simpa [hc] using h
      rfl
    | true =>
      simp only [runHook, runHookCall_withLatches hc]
      exact ih (by simpa [hc] using h) _ _

/-- The call of the hook is refused by the first forbidden call on its path. -/
theorem callHook_refused {s : State} {cb : Callback} {e : HostEntry} (hs : s.hook = some cb)
    (h : (hookPath cb.program 0 s).1.find? (fun c => !HookCall.allowed c) = some (.forbidden e)) :
    callHook s = .refused (.hookCalled e) := by
  have hr := runHook_refused h s.nmiPending s.irqPending
  rw [withLatches_self] at hr
  rw [callHook_some hs, hr]

/-! ## Execution of a fetched instruction (R502, R503) -/

/-- Where the configuration gives a policy, every instruction of the opcode map executes (R13, R160). -/
theorem exec_completes {i : Instr} {s : State} {policy : IllegalPolicy} (hw : i.wf = true)
    (hp : s.cfg.illegalPolicy = some policy) : ∃ t, exec i s = .next t := by
  obtain ⟨op, hop⟩ := opcodeOf_of_wf hw
  by_cases hd : documented i = true
  · exact ⟨_, (exec_documented hd s).trans (perform_eq hop _ s)⟩
  · cases i with
    | illegal b =>
      simp only [exec, execIllegal, hop, hp]
      split
      · exact ⟨_, rfl⟩
      · exact ⟨_, rfl⟩
    | _ => exact absurd rfl hd

/-- In a configured instance the instruction that a step fetches executes. -/
theorem exec_fetched_completes {s : State} (hcfg : configRefusal s.cfg = none) :
    ∃ u, exec (fetchInstr (serviceInterrupts s)).1 (fetchInstr (serviceInterrupts s)).2 = .next u := by
  obtain ⟨-, policy, hp⟩ := policy_of_configRefusal hcfg
  obtain ⟨-, -, -, -, hc, -⟩ := serviceInterrupts_frame s
  exact exec_completes (fetchInstr_wf _) (by rw [fetchInstr_cfg, hc, hp])

/-- At the end of a step's instruction the slot holds the hook that it held before the step (R65). -/
theorem exec_fetched_hook {s u : State}
    (h : exec (fetchInstr (serviceInterrupts s)).1 (fetchInstr (serviceInterrupts s)).2 = .next u) :
    u.hook = s.hook := by
  obtain ⟨-, -, hh, -⟩ := serviceInterrupts_frame s
  rw [(exec_keeps h).hook, fetchInstr_hook, hh]

/-! ## The step (R512) -/

theorem step_refused {s : State} {r : Refusal} (h : configRefusal s.cfg = some r) : step s = .refused r := by
  simp only [step, h]

theorem step_configured {s : State} (h : configRefusal s.cfg = none) :
    step s = finishStep s.cycles
      (exec (fetchInstr (serviceInterrupts s)).1 (fetchInstr (serviceInterrupts s)).2) := by
  simp only [step, h]

/-- After a raised illegal opcode the step ends without the hook (R520, R620). -/
theorem finishStep_raised {start : Nat} {u : State} {pc : Addr} {op : Byte} {n : Nat}
    (h : u.lastStep = some (.illegal pc op n)) : finishStep start (.next u) = .next (recordResult start u) := by
  simp only [finishStep, h]

/-- After a completed instruction a refused hook refuses the step (log 13). -/
theorem finishStep_hook_refused {start n : Nat} {u : State} {r : Refusal} (h : u.lastStep = some (.ok n))
    (hr : callHook u = .refused r) : finishStep start (.next u) = .refused r := by
  simp only [finishStep, h, hr]

/-- The last clause of O6, from which the third follows: the first forbidden call after a completed instruction. -/
theorem step_refused_of_hookPath {s u : State} {cb : Callback} {e : HostEntry} {n : Nat}
    (hcfg : configRefusal s.cfg = none) (hs : s.hook = some cb)
    (hu : exec (fetchInstr (serviceInterrupts s)).1 (fetchInstr (serviceInterrupts s)).2 = .next u)
    (hl : u.lastStep = some (.ok n))
    (hp : (hookPath cb.program 0 u).1.find? (fun c => !HookCall.allowed c) = some (.forbidden e)) :
    step s = .refused (.hookCalled e) := by
  rw [step_configured hcfg, hu]
  exact finishStep_hook_refused hl (callHook_refused ((exec_fetched_hook hu).trans hs) hp)

/-- A hook that begins with a forbidden call: the step is refused, or its instruction raised and the hook was not
called. -/
theorem step_of_forbidden_first {s : State} {cb : Callback} {e : HostEntry} {rest : HookProgram}
    (hcfg : configRefusal s.cfg = none) (hs : s.hook = some cb) (hp : cb.program = .call (.forbidden e) rest) :
    step s = .refused (.hookCalled e) ∨ ∃ t pc op n, step s = .next t ∧ t.lastStep = some (.illegal pc op n) := by
  obtain ⟨u, hu⟩ := exec_fetched_completes hcfg
  obtain ⟨n, hl, -⟩ | ⟨op, -, rfl⟩ := exec_counters hu
  · exact .inl (step_refused_of_hookPath hcfg hs hu hl (by rw [hp]; rfl))
  · exact .inr ⟨_, _, op, _, by rw [step_configured hcfg, hu, finishStep_raised rfl], rfl⟩

/-- Settles O6: the two refusals of a configuration, and the hook's by its path. -/
theorem stepRefusals : Obligations.StepRefusals := by
  refine ⟨fun s hf => ?family, fun s hf hp => ?policy, fun s cb e rest hc hs hp => ?forbiddenFirst,
    fun s u cb e n hc hs hu hl hp => ?forbiddenOnPath⟩
  case family => exact step_refused (by simp only [configRefusal, if_pos hf])
  case policy => exact step_refused (by simp only [configRefusal, hf, hp, ne_eq, not_true_eq_false, if_false, if_true])
  case forbiddenFirst => exact step_of_forbidden_first (of_decide_eq_true hc) hs hp
  case forbiddenOnPath => exact step_refused_of_hookPath (of_decide_eq_true hc) hs hu hl hp

end Sys2Proof.Machine
end

section
/-! SUPPORT AND PROOF. What a step leaves of the state around its instruction (O7, O9, O12) and the byte image of P
(O19). A step that answers a next state has one of two shapes, `Raised` and `Completed`; each statement about the
result, the hook or the configuration is read off them. -/

namespace Sys2Proof.Machine

open Sys2Proof.Claims

/-! ## The image of P (R57, R58) -/

/-- Each flag at its bit, bit 5 set and bit 4 the break bit (R57). -/
theorem pImage_toNat (b : Bool) (p : Flags) :
    (pImage b p).toNat = 128 * p.n.toNat + 64 * p.v.toNat + 32 + 16 * b.toNat + 8 * p.d.toNat + 4 * p.i.toNat +
      2 * p.z.toNat + p.c.toNat := by
  obtain ⟨n, v, d, i, z, c⟩ := p
  revert b n v d i z c
  decide

/-- Loading P does not look at bits 5 and 4 (R58). -/
theorem loadP_or_unused (v : Byte) : loadP (v ||| 0x30) = loadP v := by
  simp [loadP]

/-- The image of a loaded byte is that byte with bits 5 and 4 replaced by the image's own (R57, R58). -/
theorem pImage_loadP (b : Bool) (v : Byte) : pImage b (loadP v) = v &&& 0xCF ||| pImage b (loadP 0) := by
  revert b v
  decide

/-- Settles O19: the bits of the image, and the two directions between an image and the flags. -/
theorem statusImage : Obligations.StatusImage := fun b p v =>
  ⟨pImage_toNat b p, loadP_pImage b p, loadP_or_unused v, pImage_loadP b v⟩

/-! ## The two shapes of a step (R512, R520, R620) -/

/-- The step's instruction `u` raised: it is the fetched state with PC back at the opcode, no hook is called, and only
the result is recorded (R620). -/
def Raised (s u t : State) : Prop :=
  ∃ op, u = raiseIllegal op (fetchInstr (serviceInterrupts s)).2 ∧ t = recordResult s.cycles u

/-- The step's instruction completed in the state `u`, and the hook's call left `v`, in which the result is recorded
(R511, R520). -/
def Completed (s u v t : State) : Prop :=
  (∃ n, u.lastStep = some (.ok n) ∧ u.cycles = (fetchInstr (serviceInterrupts s)).2.cycles + n) ∧
    u.instructions = (fetchInstr (serviceInterrupts s)).2.instructions + 1 ∧
    callHook u = .next v ∧ t = recordResult s.cycles v

theorem step_cases {s t : State} (h : step s = .next t) :
    ∃ u, exec (fetchInstr (serviceInterrupts s)).1 (fetchInstr (serviceInterrupts s)).2 = .next u ∧
      (Raised s u t ∨ ∃ v, Completed s u v t) := by
  obtain ⟨-, u, hu, hend⟩ := step_next h
  refine ⟨u, hu, ?_⟩
  obtain ⟨n, hl, hcyc, hins⟩ | ⟨op, -, hraise⟩ := exec_counters hu
  · obtain ⟨pc, op, m, hl', -⟩ | ⟨-, v, hv, ht⟩ := hend
    · rw [hl] at hl'
      cases hl'
    · exact .inr ⟨v, ⟨n, hl, hcyc⟩, hins, hv, ht⟩
  · obtain ⟨-, -, -, -, ht⟩ | ⟨hnot, -⟩ := hend
    · exact .inl ⟨op, hraise, ht⟩
    · exact absurd (by rw [hraise]; rfl) (hnot _ op 0)

/-! ## Recording the result changes the result alone (R512) -/

/-- A completed result recorded is the cycles since the start (R512). -/
theorem recordResult_ok {start n : Nat} {u : State} (h : u.lastStep = some (.ok n)) :
    (recordResult start u).lastStep = some (.ok (u.cycles - start)) := by
  simp only [recordResult, h]
  rfl

theorem Raised.lastStep {s u t : State} (h : Raised s u t) :
    ∃ op, t.lastStep = some (.illegal u.pc op (u.cycles - s.cycles)) := by
  obtain ⟨op, rfl, rfl⟩ := h
  exact ⟨op, rfl⟩

theorem Completed.lastStep {s u v t : State} (h : Completed s u v t) :
    t.lastStep = some (.ok (v.cycles - s.cycles)) := by
  obtain ⟨⟨n, hl, -⟩, -, hv, rfl⟩ := h
  exact recordResult_ok ((callHook_frame hv).lastStep.trans hl)

/-! ## The result and the counters (R511, R512) -/

/-- Up to the fetch a step only adds cycles, and counts no instruction (R511, R610). -/
theorem fetched_counters (s : State) :
    s.cycles ≤ (fetchInstr (serviceInterrupts s)).2.cycles ∧
      (fetchInstr (serviceInterrupts s)).2.instructions = s.instructions := by
  obtain ⟨-, -, -, -, -, -, hcyc, hins, -⟩ := serviceInterrupts_frame s
  rw [fetchInstr_cycles, fetchInstr_instructions]
  exact ⟨by omega, hins⟩

/-- Settles O7: the recorded count is a difference of the cycle counter, and no part of a step takes cycles back. -/
theorem stepResultMatchesCounters : Obligations.StepResultMatchesCounters := by
  intro s t h
  obtain ⟨hcyc, hins⟩ := fetched_counters s
  obtain ⟨u, -, hr | ⟨v, hc⟩⟩ := step_cases h
  case inl =>
    obtain ⟨op, hl⟩ := hr.lastStep
    obtain ⟨op', rfl, rfl⟩ := hr
    rw [hl]
    exact ⟨(Nat.add_sub_cancel' hcyc).symm, hins, rfl⟩
  case inr =>
    rw [hc.lastStep]
    obtain ⟨⟨n, -, hucyc⟩, huins, hv, rfl⟩ := hc
    have hle : s.cycles ≤ v.cycles := by rw [(callHook_frame hv).cycles]; simp; omega
    exact ⟨(Nat.add_sub_cancel' hle).symm, by rw [← hins, ← huins]; exact (callHook_frame hv).instructions⟩

/-! ## The configuration and the sequencer (R66, R544) -/

/-- At the end of a step's instruction the configuration and the sequencer are those before the step, and both
latches are clear (R66, R544, R613). -/
theorem exec_fetched_frame {s u : State}
    (h : exec (fetchInstr (serviceInterrupts s)).1 (fetchInstr (serviceInterrupts s)).2 = .next u) :
    u.cfg = s.cfg ∧ u.seq = s.seq ∧ u.nmiPending = false ∧ u.irqPending = false := by
  obtain ⟨hn, hi, -, hs, hc, -⟩ := serviceInterrupts_frame s
  have k := (Keeps.refl (serviceInterrupts s)).fetchInstr.trans (exec_keeps h)
  exact ⟨k.cfg.trans hc, k.seq.trans hs, k.nmi.trans hn, k.irq.trans hi⟩

/-- Settles O12: neither the interrupt check, the instruction nor the hook writes either field. -/
theorem stepKeepsConfiguration : Obligations.StepKeepsConfiguration := by
  intro s t h
  obtain ⟨u, hu, ⟨-, -, rfl⟩ | ⟨v, -, -, hv, rfl⟩⟩ := step_cases h
  · obtain ⟨hcfg, hseq, -⟩ := exec_fetched_frame hu
    exact ⟨hcfg, hseq⟩
  · obtain ⟨hcfg, hseq, -⟩ := exec_fetched_frame hu
    exact ⟨(callHook_frame hv).cfg.trans hcfg, (callHook_frame hv).seq.trans hseq⟩

/-! ## The hook's calls (R520, R521, R612) -/

/-- A hook that is not refused makes the calls of its path in order: their bus accesses, and the latches that they
raise on top of those that were set. -/
theorem runHook_hookPath {prog : HookProgram} {k : Nat} {s : State} {nmi irq : Bool} {r : HookProgram × State}
    (h : runHook prog k (s.withLatches nmi irq) = .next r) :
    r.1 = (hookPath prog k s).2 ∧
      r.2 = ((hookPath prog k s).1.foldl busAccess s).withLatches
        (nmi || (hookPath prog k s).1.contains .raiseNmi) (irq || (hookPath prog k s).1.contains .raiseIrq) := by
  induction prog generalizing k s nmi irq with
  | done => cases h; simp [hookPath]
  | ret rest => cases h; simp [hookPath]
  | test t yes no ihy ihn =>
    simp only [runHook] at h
    simp only [hookPath]
    split at h <;> rename_i ht
    · rw [if_pos ht]; exact ihy h
    · rw [if_neg ht]; exact ihn h
  | call c rest ih =>
    cases hc : HookCall.allowed c with
    | false =>
      obtain ⟨e, rfl⟩ : ∃ e, c = .forbidden e := by cases c <;> simp_all [HookCall.allowed]
      cases h
    | true =>
      simp only [runHook, runHookCall_withLatches hc] at h
      obtain ⟨hrest, hstate⟩ := ih h
      refine ⟨hrest, hstate.trans ?_⟩
      simp only [hookPath, List.foldl_cons, List.contains_cons, Bool.or_assoc, BEq.comm (a := c)]

/-- A callback after one more invocation: what is left of its program, or `again` where it ended (log 10). -/
theorem invoked_eq (cb : Callback) (rest : HookProgram) :
    cb.invoked rest =
      { cb with invocations := cb.invocations + 1, program := if rest = .done then cb.again else rest } := by
  cases rest with
  | done => rw [if_pos rfl]; rfl
  | _ => rfl

/-- What the hook's call leaves where no interrupt is pending: the slot called once more, the latches that its path
raises, and the bus accesses of its path (R520, R521). -/
theorem callHook_hookPath {u v : State} {cb : Callback} (hs : u.hook = some cb) (hn : u.nmiPending = false)
    (hi : u.irqPending = false) (h : callHook u = .next v) :
    v.hook = some { cb with
        invocations := cb.invocations + 1
        program := if (hookPath cb.program 0 u).2 = .done then cb.again else (hookPath cb.program 0 u).2 } ∧
      v.nmiPending = (hookPath cb.program 0 u).1.contains .raiseNmi ∧
      v.irqPending = (hookPath cb.program 0 u).1.contains .raiseIrq ∧
      v.mem = ((hookPath cb.program 0 u).1.foldl busAccess u).mem ∧
      v.busLog = ((hookPath cb.program 0 u).1.foldl busAccess u).busLog := by
  obtain ⟨hnone, -⟩ | ⟨cb', r, hs', hr, rfl⟩ := callHook_cases h
  · rw [hs] at hnone
    cases hnone
  · obtain rfl : cb = cb' := Option.some.inj (hs.symm.trans hs')
    rw [← withLatches_self u, hn, hi] at hr
    obtain ⟨hrest, hstate⟩ := runHook_hookPath hr
    rw [hrest, hstate, Bool.false_or, Bool.false_or]
    exact ⟨congrArg some (invoked_eq cb _), rfl, rfl, rfl, rfl⟩

/-- Settles O9: by the two shapes of a step, the completed one by the hook's path. -/
theorem hookCalledOncePerInstruction : Obligations.HookCalledOncePerInstruction := by
  intro s t h
  obtain ⟨u, hu, hend⟩ := step_cases h
  have hhook := exec_fetched_hook hu
  obtain ⟨-, -, hn, hi⟩ := exec_fetched_frame hu
  refine ⟨u, hu, ?_⟩
  rcases hend with hr | ⟨v, hc⟩
  case inl =>
    obtain ⟨op, hl⟩ := hr.lastStep
    obtain ⟨-, -, rfl⟩ := hr
    refine ⟨rfl, rfl, rfl, fun hs => ⟨hhook.trans hs, hn, hi, rfl, rfl⟩, fun cb hs => ?_⟩
    rw [hl]
    exact ⟨hhook.trans hs, hn, hi, rfl, rfl⟩
  case inr =>
    have hl := hc.lastStep
    obtain ⟨-, -, hv, rfl⟩ := hc
    have f := callHook_frame hv
    have hregs : regs v = regs u := by simp [regs, f.a, f.x, f.y, f.sp, f.pc, f.p]
    refine ⟨hregs, f.cycles, f.instructions, fun hs => ?_, fun cb hs => ?_⟩
    · rw [callHook_none (hhook.trans hs)] at hv
      cases hv
      exact ⟨hhook.trans hs, hn, hi, rfl, rfl⟩
    · rw [hl]
      have hpath := callHook_hookPath (hhook.trans hs) hn hi hv
      exact hpath

end Sys2Proof.Machine
end

section
/-! SUPPORT AND PROOF. Which instructions write each flag, each register and memory (O14, O15, O16). What `exec` leaves
in them is what the handler left (`exec_effect`), so each statement is one case split over the handlers, an illegal
opcode counting as the handler that does nothing. -/

namespace Sys2Proof.Machine

open Sys2Proof.Claims

/-! ## From `exec` to the handler (R503, R467, R620) -/

/-- Only an instruction of the opcode map executes (log 14). -/
theorem exec_wf {i : Instr} {s t : State} (h : exec i s = .next t) : i.wf = true := by
  rw [← opcodeOf_isSome]
  by_cases hd : documented i = true
  · obtain ⟨op, hop, -⟩ := exec_next hd h
    rw [hop, Option.isSome_some]
  · cases i with
    | illegal op =>
      simp only [exec, execIllegal] at h
      split at h
      · cases h
      · rename_i op' hop
        rw [hop, Option.isSome_some]
    | _ => exact absurd rfl hd

@[simp] theorem ready_a (o : Operand) (s : State) : (ready o s).a = s.a := by simp [ready]
@[simp] theorem ready_x (o : Operand) (s : State) : (ready o s).x = s.x := by simp [ready]
@[simp] theorem ready_y (o : Operand) (s : State) : (ready o s).y = s.y := by simp [ready]
@[simp] theorem ready_sp (o : Operand) (s : State) : (ready o s).sp = s.sp := by simp [ready]
@[simp] theorem ready_p (o : Operand) (s : State) : (ready o s).p = s.p := by simp [ready]
@[simp] theorem ready_cfg (o : Operand) (s : State) : (ready o s).cfg = s.cfg := by simp [ready]
@[simp] theorem ready_byteAt (o : Operand) (s : State) (b : Addr) : (ready o s).byteAt b = s.byteAt b := by
  simp [ready]

/-- Accumulator mode and nothing else has `acc_mode` set when the handler runs (R201, R505). -/
theorem ready_accMode (o : Operand) (s : State) : (ready o s).scratch.accMode = decide (o = .acc) := by
  rw [ready, resolve_accMode]
  by_cases h : o = .acc <;> simp [h]

@[simp] theorem account_byteAt (start base : Nat) (s : State) (b : Addr) :
    (account start base s).byteAt b = s.byteAt b := rfl

/-- The registers but PC, the flags and memory after an instruction are those that its handler leaves; an illegal
opcode, raised or run as a NOP, has the handler that does nothing (R467, R620). -/
theorem exec_effect {i : Instr} {s t : State} (h : exec i s = .next t) :
    let u := handlerOf i (ready i.operand s)
    t.a = u.a ∧ t.x = u.x ∧ t.y = u.y ∧ t.sp = u.sp ∧ t.p = u.p ∧ ∀ b, t.byteAt b = u.byteAt b := by
  by_cases hd : documented i = true
  · obtain ⟨op, -, rfl⟩ := exec_next hd h
    exact ⟨rfl, rfl, rfl, rfl, rfl, fun _ => rfl⟩
  · cases i with
    | illegal op =>
      obtain ⟨r, hr⟩ | ⟨sh, -, hr⟩ | hr := execIllegal_cases op s <;>
        simp only [exec, hr, Host.Outcome.next.injEq, reduceCtorEq] at h <;> subst h
      · simp [performNop, handlerOf]
      · simp [raiseIllegal, handlerOf]
    | _ => exact absurd rfl hd

/-! ## The handlers with a branch in them (R301, R304, R355, R400) -/

theorem adcHandler_eq (o : Operand) (s : State) :
    arithmeticHandler adcResult o s =
      ((((readOperand o s).setPenalty true).setA (adcResult (operandValue o s) s).value).setP
        (adcResult (operandValue o s) s).p).setCycles (s.cycles + decimalCycle s) :=
  arithmeticHandler_eq (fun m _ _ => adcResult_congr m) o s

theorem sbcHandler_eq (o : Operand) (s : State) :
    arithmeticHandler sbcResult o s =
      ((((readOperand o s).setPenalty true).setA (sbcResult (operandValue o s) s).value).setP
        (sbcResult (operandValue o s) s).p).setCycles (s.cycles + decimalCycle s) :=
  arithmeticHandler_eq (fun m _ _ => sbcResult_congr m) o s

/-- ADC and SBC leave D and I, in binary and in decimal mode (R301, R304). -/
theorem arithmetic_keeps (m : Byte) (s : State) :
    (adcResult m s).p.d = s.p.d ∧ (adcResult m s).p.i = s.p.i ∧
    (sbcResult m s).p.d = s.p.d ∧ (sbcResult m s).p.i = s.p.i := by
  cases hd : decimalMode s <;> simp only [adcResult, sbcResult, hd, if_true]
  · exact ⟨rfl, rfl, rfl, rfl⟩
  · exact decimal_keeps _ s.a m s.p

/-! A branch writes PC and the cycle counter alone (R400). -/

@[simp] theorem branchHandler_a (cond : Flags → Bool) (s : State) : (branchHandler cond s).a = s.a := by
  rw [branchHandler_eq]; split <;> rfl
@[simp] theorem branchHandler_x (cond : Flags → Bool) (s : State) : (branchHandler cond s).x = s.x := by
  rw [branchHandler_eq]; split <;> rfl
@[simp] theorem branchHandler_y (cond : Flags → Bool) (s : State) : (branchHandler cond s).y = s.y := by
  rw [branchHandler_eq]; split <;> rfl
@[simp] theorem branchHandler_sp (cond : Flags → Bool) (s : State) : (branchHandler cond s).sp = s.sp := by
  rw [branchHandler_eq]; split <;> rfl
@[simp] theorem branchHandler_p (cond : Flags → Bool) (s : State) : (branchHandler cond s).p = s.p := by
  rw [branchHandler_eq]; split <;> rfl
@[simp] theorem branchHandler_byteAt (cond : Flags → Bool) (s : State) (b : Addr) :
    (branchHandler cond s).byteAt b = s.byteAt b := by
  rw [branchHandler_eq]; split <;> rfl

/-! A read-modify-write handler writes P, and A only in accumulator mode (R355). -/

@[simp] theorem writeOperand_x (v : Byte) (s : State) : (writeOperand v s).x = s.x := by
  rw [writeOperand_eq]; split <;> simp [busWrite_eq]
@[simp] theorem writeOperand_y (v : Byte) (s : State) : (writeOperand v s).y = s.y := by
  rw [writeOperand_eq]; split <;> simp [busWrite_eq]
@[simp] theorem writeOperand_sp (v : Byte) (s : State) : (writeOperand v s).sp = s.sp := by
  rw [writeOperand_eq]; split <;> simp [busWrite_eq]
@[simp] theorem writeOperand_p (v : Byte) (s : State) : (writeOperand v s).p = s.p := by
  rw [writeOperand_eq]; split <;> simp [busWrite_eq]

theorem accMode_of_rmwHandler_a_ne {f : Byte → Flags → AluResult} {o : Operand} {s : State}
    (h : (rmwHandler f o s).a ≠ s.a) : s.scratch.accMode = true := by
  by_contra hm
  exact h (by simp [rmwHandler_eq, writeOperand_eq, readOperand_eq, hm, busWrite_eq])

/-! ## Where memory changes (R54, R120, R216) -/

theorem busWrite_changes {a b : Addr} {v : Byte} {s : State} (h : (busWrite a v s).byteAt b ≠ s.byteAt b) : b = a := by
  by_contra hb
  exact h (by rw [busWrite_byteAt, if_neg (fun hab => hb hab.1)])

/-- A read-modify-write handler changes memory at `ea` alone, and only outside accumulator mode (R355). -/
theorem rmwHandler_changes {f : Byte → Flags → AluResult} {o : Operand} {s : State} {b : Addr}
    (h : (rmwHandler f o s).byteAt b ≠ s.byteAt b) : s.scratch.accMode = false ∧ b = s.scratch.ea := by
  rw [rmwHandler_eq, writeOperand_eq] at h
  split at h <;> rename_i hm
  · exact absurd (by simp) h
  · have hb := busWrite_changes (s := (readOperand o s).setP (f (operandValue o s) s.p).p) (by simpa using h)
    simpa [readOperand_eq, hb] using hm

/-- The stack is page 0x01 (R54). -/
theorem stackAddr_page (sp : Byte) : (stackAddr sp).toNat / 256 = 1 := by
  revert sp
  decide

theorem push_changes {v : Byte} {s : State} {b : Addr} (h : (push v s).byteAt b ≠ s.byteAt b) : b.toNat / 256 = 1 := by
  obtain rfl : b = stackAddr s.sp := busWrite_changes (v := v) h
  exact stackAddr_page _

theorem push16_changes {v : Addr} {s : State} {b : Addr} (h : (push16 v s).byteAt b ≠ s.byteAt b) :
    b.toNat / 256 = 1 := by
  by_cases hhigh : (push (hiByte v) s).byteAt b = s.byteAt b
  · exact push_changes (v := loByte v) (s := push (hiByte v) s) (by rwa [hhigh])
  · exact push_changes hhigh

/-- An exception entry changes memory by its three pushes alone (R463, R610). -/
theorem enterException_changes {brk : Bool} {vec : Addr} {s : State} {b : Addr}
    (h : (enterException brk vec s).byteAt b ≠ s.byteAt b) : b.toNat / 256 = 1 := by
  rw [enterException_eq] at h
  by_cases hpc : (push16 s.pc s).byteAt b = s.byteAt b
  · exact push_changes (v := pImage brk s.p) (s := push16 s.pc s) (by simpa [hpc] using h)
  · exact push16_changes hpc

/-! ## Flags (R59) -/

/-- The changes of P, from `p` to `q`, that R59 allows an instruction of this name, where `clearD` says that an
exception entry clears D. -/
structure FlagWrites (clearD : Bool) (name : String) (p q : Flags) : Prop where
  v : q.v ≠ p.v → ["ADC", "BIT", "CLV", "PLP", "RTI", "SBC"].contains name = true
  d : q.d ≠ p.d → ["CLD", "SED", "PLP", "RTI"].contains name = true ∨ (name = "BRK" ∧ clearD = true)
  i : q.i ≠ p.i → ["CLI", "SEI", "PLP", "RTI", "BRK"].contains name = true
  c : q.c ≠ p.c →
    ["ADC", "ASL", "CLC", "CMP", "CPX", "CPY", "LSR", "PLP", "ROL", "ROR", "RTI", "SBC", "SEC"].contains name = true
  nz : (q.n ≠ p.n ∨ q.z ≠ p.z) →
    ["ADC", "AND", "ASL", "BIT", "CMP", "CPX", "CPY", "DEC", "DEX", "DEY", "EOR", "INC", "INX", "INY", "LDA", "LDX",
     "LDY", "LSR", "ORA", "PLA", "PLP", "ROL", "ROR", "RTI", "SBC", "TAX", "TAY", "TSX", "TXA", "TYA"].contains name = true

/-- Each handler writes only the flags that R59 gives its instruction. -/
theorem handlerOf_flags (i : Instr) (s : State) :
    FlagWrites s.cfg.clearDOnInterrupt (mnemonic i) s.p (handlerOf i s).p := by
  cases i with
  | lda o | ldx o | ldy o => constructor <;> simp [handlerOf, mnemonic, loadHandler_eq, State.setNZ, nzFlags]
  | and o | ora o | eor o => constructor <;> simp [handlerOf, mnemonic, logicHandler_eq, State.setNZ, nzFlags]
  | adc o | sbc o => constructor <;> simp [handlerOf, mnemonic, adcHandler_eq, sbcHandler_eq, arithmetic_keeps]
  | cmp o | cpx o | cpy o => constructor <;> simp [handlerOf, mnemonic, compareHandler_eq, compareFlags_eq]
  | bit o => constructor <;> simp [handlerOf, mnemonic, bitHandler_eq, bitFlags_eq]
  | asl o | lsr o | rol o | ror o =>
    constructor <;>
      simp [handlerOf, mnemonic, rmwHandler_eq, aslResult_eq, lsrResult_eq, rolResult_eq, rorResult_eq, nzFlags]
  | inc o | dec o => constructor <;> simp [handlerOf, mnemonic, rmwHandler_eq, incResult_eq, decResult_eq, nzFlags]
  | sta o | stx o | sty o => constructor <;> simp [handlerOf, busWrite_eq]
  | jsr w | pha | php => constructor <;> simp [handlerOf, push_eq, push16_eq]
  | rts | pla | plp | rti =>
    constructor <;>
      simp [handlerOf, mnemonic, rtsHandler_eq, plaHandler, plpHandler, returnFromException_eq, pull_eq, State.setNZ,
        nzFlags]
  | brk =>
    cases hc : s.cfg.clearDOnInterrupt <;> constructor <;> simp [handlerOf, mnemonic, enterException_eq, hc]
  | bpl r | bmi r | bvc r | bvs r | bcc r | bcs r | bne r | beq r => constructor <;> simp [handlerOf]
  -- register transfers and index steps, flag operations, jumps, NOP and the illegal opcodes
  | _ => constructor <;> simp [handlerOf, mnemonic, State.setNZ, nzFlags]

/-- Settles O14: by the flags that each handler writes. -/
theorem flagWriters : Obligations.FlagWriters := by
  intro i s t h
  obtain ⟨-, -, -, -, hp, -⟩ := exec_effect h
  have w := handlerOf_flags i (ready i.operand s)
  rw [← hp, ready_p, ready_cfg] at w
  exact ⟨w.v, w.d, w.i, w.c, w.nz⟩

/-! ## Registers (R69) -/

/-- The changes of A, X, Y and S that R69 allows the instruction. -/
structure RegisterWrites (i : Instr) (s u : State) : Prop where
  a : u.a ≠ s.a → ["LDA", "PLA", "TXA", "TYA", "ADC", "SBC", "AND", "ORA", "EOR"].contains (mnemonic i) = true ∨
    (["ASL", "LSR", "ROL", "ROR"].contains (mnemonic i) = true ∧ i.operand = .acc)
  x : u.x ≠ s.x → ["LDX", "TAX", "TSX", "INX", "DEX"].contains (mnemonic i) = true
  y : u.y ≠ s.y → ["LDY", "TAY", "INY", "DEY"].contains (mnemonic i) = true
  sp : u.sp ≠ s.sp →
    ["TXS", "PHA", "PLA", "PHP", "PLP", "JSR", "RTS", "BRK", "RTI"].contains (mnemonic i) = true

/-- A read-modify-write instruction may write A where its accumulator form is a shift's, and no other of the four. -/
theorem rmwHandler_registers {i : Instr} {o : Operand} {s : State} (f : Byte → Flags → AluResult)
    (ha : s.scratch.accMode = true → ["ASL", "LSR", "ROL", "ROR"].contains (mnemonic i) = true ∧ i.operand = .acc) :
    RegisterWrites i s (rmwHandler f o s) where
  a h := .inr (ha (accMode_of_rmwHandler_a_ne h))
  x h := absurd (by simp [rmwHandler_eq]) h
  y h := absurd (by simp [rmwHandler_eq]) h
  sp h := absurd (by simp [rmwHandler_eq]) h

/-- Each handler writes only the registers that R69 gives its instruction, a shift's A only in accumulator mode. -/
theorem handlerOf_registers {i : Instr} {s : State} (hw : i.wf = true)
    (hacc : s.scratch.accMode = true → i.operand = .acc) : RegisterWrites i s (handlerOf i s) := by
  cases i with
  | lda o | ldx o | ldy o => constructor <;> simp [handlerOf, mnemonic, loadHandler_eq, State.setNZ]
  | and o | ora o | eor o => constructor <;> simp [handlerOf, mnemonic, logicHandler_eq, State.setNZ]
  | adc o | sbc o => constructor <;> simp [handlerOf, mnemonic, adcHandler_eq, sbcHandler_eq]
  | cmp o | cpx o | cpy o => constructor <;> simp [handlerOf, compareHandler_eq]
  | bit o => constructor <;> simp [handlerOf, bitHandler_eq]
  | asl o | lsr o | rol o | ror o => exact rmwHandler_registers _ fun hm => ⟨rfl, hacc hm⟩
  | inc o | dec o =>
    refine rmwHandler_registers _ fun hm => ?_
    obtain rfl : o = .acc := hacc hm
    cases hw
  | sta o | stx o | sty o => constructor <;> simp [handlerOf, busWrite_eq]
  | jsr w | pha | php => constructor <;> simp [handlerOf, mnemonic, push_eq, push16_eq]
  | rts | pla | plp | rti =>
    constructor <;>
      simp [handlerOf, mnemonic, rtsHandler_eq, plaHandler, plpHandler, returnFromException_eq, pull_eq, State.setNZ]
  | brk => constructor <;> simp [handlerOf, mnemonic, enterException_eq, push_eq, push16_eq]
  | bpl r | bmi r | bvc r | bvs r | bcc r | bcs r | bne r | beq r => constructor <;> simp [handlerOf]
  | _ => constructor <;> simp [handlerOf, mnemonic, State.setNZ]

/-- Settles O15: by the registers that each handler writes, in the state its resolver leaves. -/
theorem registerWriters : Obligations.RegisterWriters := by
  intro i s t h
  obtain ⟨ha, hx, hy, hsp, -⟩ := exec_effect h
  have w := handlerOf_registers (s := ready i.operand s) (exec_wf h) (by simp [ready_accMode])
  exact ⟨fun hne => w.a (by rwa [← ha, ready_a]), fun hne => w.x (by rwa [← hx, ready_x]),
    fun hne => w.y (by rwa [← hy, ready_y]), fun hne => w.sp (by rwa [← hsp, ready_sp])⟩

/-! ## Memory (R54, R254 to R256, R355) -/

/-- The change of the byte at `b` that the instruction may make: a store's or a read-modify-write's at `ea`, or a push
within page 0x01. -/
def MemoryWrites (i : Instr) (s : State) (b : Addr) : Prop :=
  ["STA", "STX", "STY", "ASL", "LSR", "ROL", "ROR", "INC", "DEC"].contains (mnemonic i) = true ∧
      i.operand ≠ .acc ∧ b = s.scratch.ea ∨
    ["PHA", "PHP", "JSR", "BRK"].contains (mnemonic i) = true ∧ b.toNat / 256 = 1

/-- A handler that changes a byte is a store's or a read-modify-write's at `ea`, or a push's. -/
theorem handlerOf_memory {i : Instr} {s : State} {b : Addr} (hw : i.wf = true)
    (hacc : i.operand = .acc → s.scratch.accMode = true) (h : (handlerOf i s).byteAt b ≠ s.byteAt b) :
    MemoryWrites i s b := by
  have rmw {f : Byte → Flags → AluResult} {o : Operand} (h : (rmwHandler f o s).byteAt b ≠ s.byteAt b) :
      i.operand ≠ .acc ∧ b = s.scratch.ea := by
    obtain ⟨hm, hb⟩ := rmwHandler_changes h
    exact ⟨fun ho => absurd (hacc ho) (by simp [hm]), hb⟩
  cases i with
  | sta o | stx o | sty o =>
    exact .inl ⟨rfl, fun ho => absurd hw (by rw [show o = .acc from ho]; decide), busWrite_changes h⟩
  | asl o | lsr o | rol o | ror o | inc o | dec o => exact .inl ⟨rfl, rmw h⟩
  | pha | php => exact .inr ⟨rfl, push_changes h⟩
  | jsr w => exact .inr ⟨rfl, push16_changes (v := s.pc - 1) h⟩
  | brk => exact .inr ⟨rfl, enterException_changes h⟩
  | lda o | ldx o | ldy o => exact absurd (by simp [handlerOf, loadHandler_eq, State.setNZ]) h
  | and o | ora o | eor o => exact absurd (by simp [handlerOf, logicHandler_eq, State.setNZ]) h
  | adc o | sbc o => exact absurd (by simp [handlerOf, adcHandler_eq, sbcHandler_eq]) h
  | cmp o | cpx o | cpy o => exact absurd (by simp [handlerOf, compareHandler_eq]) h
  | bit o => exact absurd (by simp [handlerOf, bitHandler_eq]) h
  | rts | pla | plp | rti =>
    exact absurd (by simp [handlerOf, rtsHandler_eq, plaHandler, plpHandler, returnFromException_eq, pull_eq,
      State.setNZ]) h
  | bpl r | bmi r | bvc r | bvs r | bcc r | bcs r | bne r | beq r => exact absurd (by simp [handlerOf]) h
  | _ => exact absurd (by simp [handlerOf, State.setNZ]) h

/-- Settles O16: by the bytes that each handler writes, in the state its resolver leaves, whose `ea` is `eaOf`. -/
theorem memoryWriters : Obligations.MemoryWriters := by
  intro i s t b h hb
  obtain ⟨-, -, -, -, -, hm⟩ := exec_effect h
  exact handlerOf_memory (s := ready i.operand s) (exec_wf h) (by simp [ready_accMode]) (by rwa [← hm, ready_byteAt])

end Sys2Proof.Machine
end

section
/-! SUPPORT AND PROOF. Memory, the bus record and the stack over a whole step (O5, O10, O11, O13) and over the bus
operations (O17, O18). What follows the fetch of a step is the instruction and perhaps the hook, and both only add to
the record and keep memory canonical (`step_after_fetch`). A run of pushes and a run of pulls each have a closed form
by offset from S, and O18 is the two side by side. -/

namespace Sys2Proof.Machine

open Sys2Proof.Claims

/-! ## The two halves of a step: up to the fetch, and after it (R501, R512, R520) -/

/-- Up to the fetch a step has recorded at least the read of the opcode (R501, R610). -/
theorem fetched_record (s : State) :
    ∃ events, events ≠ [] ∧ (fetchInstr (serviceInterrupts s)).2.busLog = events ++ s.busLog := by
  obtain ⟨-, -, -, -, -, ⟨entry, hentry⟩, -⟩ := serviceInterrupts_frame s
  obtain ⟨operands, hfetch⟩ := fetchInstr_busLog (serviceInterrupts s)
  exact ⟨operands ++ .read _ _ :: entry, by simp, by rw [hfetch, hentry, List.append_assoc, List.cons_append]⟩

/-- Up to the fetch only the pushes of an interrupt entry write memory (R501, R610). -/
theorem fetched_wf {s : State} (h : Memory.wf s.mem = true) :
    Memory.wf (fetchInstr (serviceInterrupts s)).2.mem = true := by
  rw [fetchInstr_mem]
  exact serviceInterrupts_wf h

/-- After the fetch, the instruction and the hook add to the bus record and keep memory canonical; recording the result
touches neither. -/
theorem step_after_fetch {s t : State} (h : step s = .next t) :
    (∃ events, t.busLog = events ++ (fetchInstr (serviceInterrupts s)).2.busLog) ∧
      (Memory.wf (fetchInstr (serviceInterrupts s)).2.mem = true → Memory.wf t.mem = true) := by
  obtain ⟨u, hu, ⟨-, -, rfl⟩ | ⟨v, -, -, hv, rfl⟩⟩ := step_cases h
  · exact ⟨(exec_keeps hu).record, (exec_keeps hu).memory⟩
  · obtain ⟨byInstr, hinstr⟩ := (exec_keeps hu).record
    obtain ⟨byHook, hhook⟩ := (callHook_frame hv).record
    refine ⟨⟨byHook ++ byInstr, ?_⟩, fun hw => (callHook_frame hv).memory ((exec_keeps hu).memory hw)⟩
    rw [List.append_assoc, ← hinstr]
    exact hhook

/-- Settles O10: every write of an interrupt entry, an instruction and a hook is a bus write. -/
theorem stepKeepsMemoryCanonical : Obligations.StepKeepsMemoryCanonical :=
  fun _ _ hw h => (step_after_fetch h).2 (fetched_wf hw)

/-- Settles O13: the opcode's read is never missing, and what follows it only adds. -/
theorem stepExtendsBusRecord : Obligations.StepExtendsBusRecord := by
  intro s t h
  obtain ⟨before, hne, hbefore⟩ := fetched_record s
  obtain ⟨⟨later, hlater⟩, -⟩ := step_after_fetch h
  exact ⟨later ++ before, List.append_ne_nil_of_right_ne_nil later hne, by
    rw [hlater, hbefore, List.append_assoc]⟩

/-- Settles O11: reset lists nothing. -/
theorem resetMemoryCanonical : Obligations.ResetMemoryCanonical := Memory.wf_nil

/-! ## No step stops (R107, R601, R650) -/

/-- After an instruction that executed, a hook that obeys R521 lets the step end in a next state. -/
theorem finishStep_completes (start : Nat) {u : State} (h : hookObeys u = true) :
    ∃ t, finishStep start (.next u) = .next t := by
  obtain ⟨v, hv⟩ := callHook_completes h
  simp only [finishStep, hv]
  split
  · exact ⟨_, rfl⟩
  · exact ⟨_, rfl⟩

/-- Settles O5: the instruction fetched executes, and neither it nor the interrupt check replaces the hook. -/
theorem stepAlwaysCompletes : Obligations.StepAlwaysCompletes := by
  intro s h
  obtain ⟨hconf, hobeys⟩ := Bool.and_eq_true_iff.mp h
  have hcfg : configRefusal s.cfg = none := of_decide_eq_true hconf
  obtain ⟨u, hu⟩ := exec_fetched_completes hcfg
  have hobeys' : hookObeys u = true := by rwa [hookObeys, exec_fetched_hook hu]
  rw [step_configured hcfg, hu]
  exact finishStep_completes s.cycles hobeys'

/-! ## Reads and writes of memory (R110, R114) -/

/-- Where no device answers, the bus answers memory's byte. -/
theorem answer_of_memory {s : State} {a : Addr} (h : s.isIo a = false) : s.answer a = s.byteAt a := by
  rw [State.answer, h, if_neg Bool.false_ne_true]

@[simp] theorem busWrite_isIo (a b : Addr) (v : Byte) (s : State) : (busWrite a v s).isIo b = s.isIo b := by
  rw [busWrite_eq, State.setBusLog_isIo, State.setMem_isIo]

/-- Settles O17: the byte the bus answers is memory's, before and after the write. -/
theorem readGivesLatestWrite : Obligations.ReadGivesLatestWrite := by
  intro a b v s ha hb
  rw [busRead_eq, busRead_eq, answer_of_memory hb, answer_of_memory (by rwa [busWrite_isIo]), busWrite_byteAt]
  simp only [ha, and_true]

/-! ## Runs of pushes and pulls (R120, R121) -/

theorem push_sp (v : Byte) (s : State) : (push v s).sp = s.sp - 1 := rfl

@[simp] theorem push_isIo (v : Byte) (s : State) (b : Addr) : (push v s).isIo b = s.isIo b := busWrite_isIo _ b v s

/-- Several pushes, the first byte pushed first. -/
def pushAll (bytes : List Byte) (s : State) : State := bytes.foldl (fun u v => push v u) s

theorem pushAll_concat (bytes : List Byte) (v : Byte) (s : State) :
    pushAll (bytes ++ [v]) s = push v (pushAll bytes s) := List.foldl_concat ..

theorem pushAll_isIo (bytes : List Byte) (s : State) (a : Addr) : (pushAll bytes s).isIo a = s.isIo a := by
  induction bytes using List.reverseRecOn with
  | nil => rfl
  | append_singleton bytes v ih => rw [pushAll_concat, push_isIo, ih]

/-- S goes down by one with each push, modulo 256. -/
theorem pushAll_sp (bytes : List Byte) (s : State) :
    (pushAll bytes s).sp = s.sp - BitVec.ofNat 8 bytes.length := by
  induction bytes using List.reverseRecOn with
  | nil => exact (BitVec.sub_zero s.sp).symm
  | append_singleton bytes v ih =>
    rw [pushAll_concat, push_sp, ih, List.length_append, List.length_singleton]
    bv_omega

/-- Where page 0x01 is memory, the byte pushed `k`-th lies `k` below the first S: up to 256 pushes use distinct slots,
so no later one overwrites it. -/
theorem pushAll_byteAt {bytes : List Byte} {s : State} (hmem : stackIsMemory s) (hlen : bytes.length ≤ 256)
    {k : Nat} (hk : k < bytes.length) :
    (pushAll bytes s).byteAt (stackAddr (s.sp - BitVec.ofNat 8 k)) = bytes[k] := by
  induction bytes using List.reverseRecOn with
  | nil => cases hk
  | append_singleton bytes v ih =>
    simp only [List.length_append, List.length_singleton] at hlen hk
    have hslot : s.sp - BitVec.ofNat 8 k = s.sp - BitVec.ofNat 8 bytes.length ↔ k = bytes.length := by
      constructor
      · intro h
        bv_omega
      · rintro rfl
        rfl
    simp only [pushAll_concat, push_byteAt, pushAll_sp, pushAll_isIo, hmem _, stackAddr_inj, hslot, and_true,
      List.getElem_append]
    by_cases hlast : k = bytes.length
    · simp [hlast]
    · have hk' : k < bytes.length := by omega
      simp only [hlast, hk', if_false, dif_pos, ih (by omega) hk']

theorem pull_sp (s : State) : (pull s).2.sp = s.sp + 1 := rfl

/-- S goes up by one with each pull, modulo 256. -/
theorem pullMany_sp (n : Nat) (s : State) : (pullMany n s).2.sp = s.sp + BitVec.ofNat 8 n := by
  induction n generalizing s with
  | zero => exact (BitVec.add_zero s.sp).symm
  | succ n ih =>
    simp only [pullMany, ih, pull_sp]
    bv_omega

theorem pullMany_length (n : Nat) (s : State) : (pullMany n s).1.length = n := by
  induction n generalizing s with
  | zero => rfl
  | succ n ih => simp only [pullMany, List.length_cons, ih]

/-- Where page 0x01 is memory, the `k`-th byte pulled is the one `k + 1` above S: a pull writes nothing. -/
theorem pullMany_getElem {n : Nat} {s : State} (hmem : stackIsMemory s) {k : Nat}
    (hk : k < (pullMany n s).1.length) :
    (pullMany n s).1[k] = s.byteAt (stackAddr (s.sp + BitVec.ofNat 8 (k + 1))) := by
  induction n generalizing s k with
  | zero => cases hk
  | succ n ih =>
    cases k with
    | zero => exact answer_of_memory (hmem _)
    | succ k =>
      have hslot : s.sp + 1 + BitVec.ofNat 8 (k + 1) = s.sp + BitVec.ofNat 8 (k + 1 + 1) := by bv_omega
      calc (pullMany (n + 1) s).1[k + 1]
          = (pull s).2.byteAt (stackAddr ((pull s).2.sp + BitVec.ofNat 8 (k + 1))) :=
            ih (s := (pull s).2) hmem (Nat.lt_of_succ_lt_succ hk)
        _ = s.byteAt (stackAddr (s.sp + BitVec.ofNat 8 (k + 1 + 1))) := by rw [pull_sp, hslot]; rfl

/-- Settles O18: the `k`-th byte pulled lies where the byte `k` places before the last was pushed. -/
theorem pushesThenPulls : Obligations.PushesThenPulls := by
  intro bytes s hmem hlen
  have hmem' : stackIsMemory (pushAll bytes s) := fun sp => (pushAll_isIo bytes s _).trans (hmem sp)
  refine ⟨List.ext_getElem (by simp [pullMany_length]) fun k hpull hrev => ?byte, ?sp⟩
  case byte =>
    have hk : k < bytes.length := by simpa using hrev
    have hslot : s.sp - BitVec.ofNat 8 bytes.length + BitVec.ofNat 8 (k + 1) =
        s.sp - BitVec.ofNat 8 (bytes.length - 1 - k) := by bv_omega
    calc (pullMany bytes.length (pushAll bytes s)).1[k]
        = (pushAll bytes s).byteAt (stackAddr ((pushAll bytes s).sp + BitVec.ofNat 8 (k + 1))) :=
          pullMany_getElem hmem' hpull
      _ = bytes[bytes.length - 1 - k] := by rw [pushAll_sp, hslot, pushAll_byteAt hmem hlen]
      _ = bytes.reverse[k] := (List.getElem_reverse hrev).symm
  case sp =>
    exact (pullMany_sp _ (pushAll bytes s)).trans (by rw [pushAll_sp, BitVec.sub_add_cancel])

end Sys2Proof.Machine
end

section
/-! SUPPORT AND PROOF. The encoding family (O1, O2, O3, O59). A list of operand bytes as long as the opcode announces
is what joins decoder and encoder: the decoder takes exactly these bytes (`decode_operands`), and they are the operand
bytes of the instruction it answers (`encode_instrOf_operands`). -/

namespace Sys2Proof.Machine

/-! ## Operand bytes (R151, R152) -/

/-- An instruction has at most two operand bytes (R150). -/
theorem operandCount_le_two (op : Byte) : operandCount op ≤ 2 := by
  unfold operandCount
  cases (instrOf op 0 0).operand.mode <;> decide

/-- The decoder takes the operand bytes that the opcode announces, and leaves the bytes after them (R151). -/
theorem decode_operands {op : Byte} {operands : List Byte} (hlen : operands.length = operandCount op)
    (rest : List Byte) :
    decode (op :: operands ++ rest) = .ok (instrOf op (operands.getD 0 0) (operands.getD 1 0), rest) := by
  have hle := operandCount_le_two op
  rw [← hlen] at hle
  match operands, hlen, hle with
  | [], hlen, _ => simp only [decode, List.cons_append, ← hlen]; rfl
  | [_], hlen, _ => simp only [decode, List.cons_append, ← hlen]; rfl
  | [_, _], hlen, _ => simp only [decode, List.cons_append, ← hlen]; rfl

/-- The instruction that the decoder answers encodes to its opcode byte and the operand bytes taken (R152). -/
theorem encode_instrOf_operands {op : Byte} {operands : List Byte} (hlen : operands.length = operandCount op) :
    encode (instrOf op (operands.getD 0 0) (operands.getD 1 0)) = some (op :: operands) := by
  have hle := operandCount_le_two op
  have hbytes : (instrOf op (operands.getD 0 0) (operands.getD 1 0)).operand.bytes =
      [operands.getD 0 0, operands.getD 1 0].take operands.length := by
    rw [operand_instrOf, bytes_operandOf, hlen, operandCount]
  have htake : [operands.getD 0 0, operands.getD 1 0].take operands.length = operands := by
    rw [← hlen] at hle
    match operands, hle with
    | [], _ | [_], _ | [_, _], _ => rfl
  simp only [encode, opcodeOf_instrOf, hbytes, htake]

/-- An operand is given by its mode and its operand bytes (R152). -/
theorem operandOf_bytes (o : Operand) :
    operandOf o.mode (o.bytes.getD 0 0) (mkAddr (o.bytes.getD 1 0) (o.bytes.getD 0 0)) = o := by
  cases o <;> simp [operandOf, Operand.mode, Operand.bytes]

/-! ## The map inverts `opcodeOf` (R160) -/

/-- An instruction stands in the map at its opcode byte: two instructions with one opcode differ in nothing but the
operand bytes. -/
theorem instrOf_of_opcodeOf {i : Instr} {op b1 b2 : Byte} (hop : opcodeOf i = some op)
    (ho : operandOf i.operand.mode b1 (mkAddr b2 b1) = i.operand) : instrOf op b1 b2 = i := by
  cases i with
  | illegal k =>
    simp only [opcodeOf] at hop
    split at hop
    · cases hop
      exact instrOf_illegal ‹_› b1 b2
    · cases hop
  | lda o | ldx o | ldy o | sta o | stx o | sty o | adc o | sbc o | cmp o | cpx o | cpy o =>
    cases o <;> cases hop <;> cases ho <;> rfl
  | and o | ora o | eor o | bit o | asl o | lsr o | rol o | ror o | inc o | dec o =>
    cases o <;> cases hop <;> cases ho <;> rfl
  | _ =>
    cases hop
    cases ho
    rfl

/-! ## The statements -/

/-- Settles O1: the operand bytes of an instruction are those its opcode announces, and the map gives it back from
them. -/
theorem decodeOfEncode : Obligations.DecodeOfEncode := by
  intro i rest hwf
  obtain ⟨op, hop⟩ := opcodeOf_of_wf hwf
  have hinstr := instrOf_of_opcodeOf hop (operandOf_bytes i.operand)
  have hlen : i.operand.bytes.length = operandCount op := by
    rw [Laws.operand_bytes_length, operandCount, ← mode_instrOf op _ _, hinstr]
  exact ⟨op :: i.operand.bytes, by simp only [encode, hop], by rw [decode_operands hlen, hinstr]⟩

/-- Settles O2: the bytes consumed are the opcode byte and as many of the next two as it announces. -/
theorem encodeOfDecode : Obligations.EncodeOfDecode := by
  intro b0 b1 b2 rest
  have hle := operandCount_le_two b0
  have hlen : ([b1, b2].take (operandCount b0)).length = operandCount b0 := List.length_take_of_le hle
  have hsplit : b0 :: [b1, b2].take (operandCount b0) ++ ([b1, b2].drop (operandCount b0) ++ rest) =
      b0 :: b1 :: b2 :: rest := by
    rw [List.cons_append, ← List.append_assoc, List.take_append_drop]
    rfl
  have hdecode := decode_operands hlen ([b1, b2].drop (operandCount b0) ++ rest)
  rw [hsplit] at hdecode
  exact ⟨_, _, _, hdecode, wf_instrOf _ _ _, encode_instrOf_operands hlen, hsplit⟩

/-- Adding the signed value of a word to PC is addition modulo 2^16 (R400). -/
theorem branchTarget_toInt (pc d : Addr) : branchTarget pc d.toInt = pc + d := by
  rw [branchTarget, BitVec.ofInt_add, BitVec.ofInt_natCast, BitVec.ofNat_toNat, BitVec.setWidth_eq, BitVec.ofInt_toInt]

/-- Settles O59: the byte's signed value is the difference of the two addresses. -/
theorem assembledBranchReaches : Obligations.AssembledBranchReaches := by
  intro at_ target b h
  rw [branchByte_eq_some h, branchTarget_toInt, add_comm, BitVec.sub_add_cancel]

/-- Settles O3, by running the decoder on each word. -/
theorem decodeKnownWords : Obligations.DecodeKnownWords := by
  unfold Obligations.DecodeKnownWords
  decide

end Sys2Proof.Machine
end

section
/-! SUPPORT AND PROOF. The addressing modes (O20, O21, O22). The model computes an address by joining, widening and
adding words; the statements give it as a number with its wrap. The first part is that translation, one lemma per
address operation; a resolver's lemma applies it to the one address the resolver computes. No fetch and no read touches
scratch or an index register, so the state before them may stand for the state after. -/

namespace Sys2Proof.Machine

/-! ## Addresses as numbers (R20, R21, R23) -/

theorem zeroPage_eq (b : Byte) : zeroPage b = BitVec.ofNat 16 b.toNat := (BitVec.ofNat_toNat 16 b).symm

/-- A sum of bytes stays in the zero page. -/
theorem zeroPage_add (b index : Byte) :
    zeroPage (b + index) = BitVec.ofNat 16 ((b.toNat + index.toNat) % 256) := by
  rw [zeroPage_eq, BitVec.toNat_add]

theorem mkAddr_eq (hi lo : Byte) : mkAddr hi lo = BitVec.ofNat 16 (hi.toNat * 256 + lo.toNat) := by
  rw [← mkAddr_toNat, BitVec.ofNat_toNat, BitVec.setWidth_eq]

/-- An indexed address wraps modulo 2^16. -/
theorem add_zeroPage (base : Addr) (index : Byte) :
    base + zeroPage index = BitVec.ofNat 16 (base.toNat + index.toNat) := by
  rw [zeroPage_eq, BitVec.ofNat_add, BitVec.ofNat_toNat 16 base, BitVec.setWidth_eq]

/-- Indexing leaves the base's page exactly when the low byte's sum carries (R214), where the sum wraps too. -/
theorem pagesDiffer_indexed (base : Addr) (index : Byte) :
    pagesDiffer (base + zeroPage index) base = decide (256 ≤ base.toNat % 256 + index.toNat) := by
  have hbase := base.isLt
  have hindex := index.isLt
  have hpage : hiByte (base + zeroPage index) = hiByte base ↔ base.toNat % 256 + index.toNat < 256 := by
    rw [← BitVec.toNat_inj, hiByte_toNat, hiByte_toNat, add_zeroPage, BitVec.toNat_ofNat]
    omega
  rw [pagesDiffer, Bool.eq_iff_iff, bne_iff_ne, ne_eq, hpage, decide_eq_true_iff, not_lt]

theorem setEaFrom_indexed (s : State) (base : Addr) (index : Byte) :
    s.setEaFrom base (base + zeroPage index) = s.setScratch
      { s.scratch with
        ea := BitVec.ofNat 16 (base.toNat + index.toNat)
        pageCross := decide (256 ≤ base.toNat % 256 + index.toNat) } := by
  rw [State.setEaFrom, pagesDiffer_indexed, add_zeroPage]

/-! ## The high byte of a pointer (R208, R209, R211) -/

/-- A zero-page pointer wraps within the zero page. -/
theorem pointerHigh_eq (p : Byte) : pointerHigh p = BitVec.ofNat 16 ((p.toNat + 1) % 256) := zeroPage_add p 1

theorem pointerHigh_add (b index : Byte) :
    pointerHigh (b + index) = BitVec.ofNat 16 ((b.toNat + index.toNat + 1) % 256) := by
  rw [pointerHigh_eq, BitVec.toNat_add, Nat.mod_add_mod]

/-- Nmos carries nothing into the pointer's page. -/
theorem indirectHigh_nmos (hi lo : Byte) :
    indirectHigh .nmos (mkAddr hi lo) = BitVec.ofNat 16 (hi.toNat * 256 + (lo.toNat + 1) % 256) := by
  rw [indirectHigh, hiByte_mkAddr, loByte_mkAddr, mkAddr_eq, BitVec.toNat_add]
  rfl

/-- Cmos goes to the next address, which wraps modulo 2^16. -/
theorem indirectHigh_cmos (hi lo : Byte) :
    indirectHigh .cmos (mkAddr hi lo) = BitVec.ofNat 16 (hi.toNat * 256 + lo.toNat + 1) := by
  rw [indirectHigh, mkAddr_eq]
  exact (BitVec.ofNat_add _ 1).symm

/-! ## The resolvers (R203 to R213) -/

/-- After its resolver PC is past the immediate byte, and `ea` is the byte's own address (R203). -/
theorem fetchAndResolve_imm (s : State) :
    fetchAndResolve .imm s = (s.setPc (s.pc + 1)).setScratch { s.scratch with ea := s.pc } := by
  rw [fetchAndResolve, resolve, State.setEa, State.setPc_pc, BitVec.add_sub_cancel, State.setPc_scratch]

theorem resolve_zp (b : Byte) (s : State) :
    resolve (.zp b) s = s.setScratch { s.scratch with ea := BitVec.ofNat 16 b.toNat } := by
  rw [resolve, State.setEa, zeroPage_eq]

theorem resolve_zpx (b : Byte) (s : State) :
    resolve (.zpx b) s = s.setScratch { s.scratch with ea := BitVec.ofNat 16 ((b.toNat + s.x.toNat) % 256) } := by
  rw [resolve, State.setEa, zeroPage_add]

theorem resolve_zpy (b : Byte) (s : State) :
    resolve (.zpy b) s = s.setScratch { s.scratch with ea := BitVec.ofNat 16 ((b.toNat + s.y.toNat) % 256) } := by
  rw [resolve, State.setEa, zeroPage_add]

theorem resolve_abs_mkAddr (hi lo : Byte) (s : State) :
    resolve (.abs (mkAddr hi lo)) s =
      s.setScratch { s.scratch with ea := BitVec.ofNat 16 (hi.toNat * 256 + lo.toNat) } := by
  rw [resolve, State.setEa, mkAddr_eq]

/-- The state an absolute indexed resolver leaves, from the base address's two bytes and the index register. -/
def indexedFrom (hi lo index : Byte) (s : State) : State :=
  s.setScratch
    { s.scratch with
      ea := BitVec.ofNat 16 (hi.toNat * 256 + lo.toNat + index.toNat)
      pageCross := decide (256 ≤ (hi.toNat * 256 + lo.toNat) % 256 + index.toNat) }

theorem setEaFrom_mkAddr (hi lo index : Byte) (s : State) :
    s.setEaFrom (mkAddr hi lo) (mkAddr hi lo + zeroPage index) = indexedFrom hi lo index s := by
  rw [setEaFrom_indexed, mkAddr_toNat, indexedFrom]

theorem resolve_abx_mkAddr (hi lo : Byte) (s : State) :
    resolve (.abx (mkAddr hi lo)) s = indexedFrom hi lo s.x s := setEaFrom_mkAddr hi lo s.x s

theorem resolve_aby_mkAddr (hi lo : Byte) (s : State) :
    resolve (.aby (mkAddr hi lo)) s = indexedFrom hi lo s.y s := setEaFrom_mkAddr hi lo s.y s

/-- (zp,X) reads the pointer at the indexed zero-page address (R208). -/
theorem resolve_izx (b : Byte) (s : State) :
    let r := read16 (BitVec.ofNat 16 ((b.toNat + s.x.toNat) % 256))
      (BitVec.ofNat 16 ((b.toNat + s.x.toNat + 1) % 256)) s
    resolve (.izx b) s = r.2.setScratch { s.scratch with ea := r.1 } := by
  simp only [resolve, zeroPage_add, pointerHigh_add]
  rfl

/-- (zp),Y reads the pointer at the operand byte and indexes what it holds (R209). -/
theorem resolve_izy (b : Byte) (s : State) :
    let r := read16 (BitVec.ofNat 16 (b.toNat % 256)) (BitVec.ofNat 16 ((b.toNat + 1) % 256)) s
    resolve (.izy b) s = r.2.setScratch
      { s.scratch with
        ea := BitVec.ofNat 16 (r.1.toNat + s.y.toNat)
        pageCross := decide (256 ≤ r.1.toNat % 256 + s.y.toNat) } := by
  simp only [resolve, zeroPage_eq b, pointerHigh_eq, Nat.mod_eq_of_lt b.isLt, setEaFrom_indexed]
  rfl

/-! ## The statements -/

/-- Settles O20: a mode's own fetches, then its resolver. -/
theorem directModeAddresses : Obligations.DirectModeAddresses := by
  intro s b hi base at_
  refine ⟨?imp, ?acc, ?imm, ?zp, ?zpx, ?zpy, ?rel, ?abs, ?abx, ?aby⟩
  case imp | acc | rel => rfl
  case imm => exact fetchAndResolve_imm s
  case zp => exact resolve_zp b.1 b.2
  case zpx => exact resolve_zpx b.1 b.2
  case zpy => exact resolve_zpy b.1 b.2
  case abs => exact resolve_abs_mkAddr hi.1 b.1 hi.2
  case abx => exact resolve_abx_mkAddr hi.1 b.1 hi.2
  case aby => exact resolve_aby_mkAddr hi.1 b.1 hi.2

/-- Settles O21: one fetch, then the pointer's resolver. -/
theorem pointerModeAddresses : Obligations.PointerModeAddresses := fun s =>
  ⟨resolve_izx (fetch s).1 (fetch s).2, resolve_izy (fetch s).1 (fetch s).2⟩

/-- Settles O22: the two variants differ only in where the pointer's high byte is read. -/
theorem indirectModeAddress : Obligations.IndirectModeAddress := by
  intro s plo phi ptr hiAt r
  have hhigh : indirectHigh s.cfg.variant (mkAddr phi.1 plo.1) = BitVec.ofNat 16 hiAt := by
    simp only [hiAt]
    cases s.cfg.variant with
    | nmos => exact indirectHigh_nmos phi.1 plo.1
    | cmos => exact indirectHigh_cmos phi.1 plo.1
  have hread : read16 (mkAddr phi.1 plo.1) (indirectHigh s.cfg.variant (mkAddr phi.1 plo.1)) phi.2 = r := by
    rw [hhigh, mkAddr_eq]
  exact congrArg (fun pointed : Addr × State => pointed.2.setEa pointed.1) hread

end Sys2Proof.Machine
end

section
/-! SUPPORT AND PROOF. The loads, stores and transfers (O24, O25, O26). An instruction that has a form of the spec's
tables (`HasForm`) ends in its handler's state with that form's cycles charged (`exec_form`). What is left of a
statement is one fact about the handler, in the state its resolver leaves; `readRule_of_handler`,
`storeRule_of_handler` and `impliedRule_of_handler` say which. -/

namespace Sys2Proof.Machine

open Sys2Proof.Claims

/-! ## The state the resolver leaves (R503, R505) -/

@[simp] theorem ready_pc (o : Operand) (s : State) : (ready o s).pc = s.pc := by simp [ready]
@[simp] theorem ready_cycles (o : Operand) (s : State) : (ready o s).cycles = s.cycles := by simp [ready]
@[simp] theorem ready_instructions (o : Operand) (s : State) : (ready o s).instructions = s.instructions := by
  simp [ready]
@[simp] theorem ready_mem (o : Operand) (s : State) : (ready o s).mem = s.mem := by simp [ready]
@[simp] theorem ready_isIo (o : Operand) (s : State) (a : Addr) : (ready o s).isIo a = s.isIo a := by simp [ready]

@[simp] theorem ready_opPenalty (o : Operand) (s : State) : (ready o s).scratch.opPenalty = false := by
  simp [ready, resolve_opPenalty]

theorem Keeps.ready {s t : State} (h : Keeps s t) (o : Operand) : Keeps s (ready o t) := (h.setScratch _).resolve o

/-- The byte and the record that the statements give `ReadOperand` are the handler's, because in the resolved state
`acc_mode` says whether the mode is accumulator mode (R201, R215). -/
theorem operand_ready (o : Operand) (s : State) :
    operandValue o (ready o s) = operandByte o s ∧ operandLog o (ready o s) = readLog o s := by
  have hacc := ready_accMode o s
  cases o with
  | imm b => exact ⟨rfl, rfl⟩
  | acc => exact ⟨rfl, rfl⟩
  | _ => simp [operandValue, operandByte, operandLog, readLog, eaOf, hacc]

/-! ## Registers and flags of a handler's state (R22) -/

@[simp] theorem regs_readOperand (o : Operand) (s : State) : regs (readOperand o s) = regs s := by simp [regs]
@[simp] theorem regs_setPenalty (s : State) (e : Bool) : regs (s.setPenalty e) = regs s := rfl
@[simp] theorem regs_ready (o : Operand) (s : State) : regs (ready o s) = regs s := by simp [regs]

theorem regs_setNZ (s : State) (v : Byte) : regs (s.setNZ v) = { regs s with p := withNZ s.p v } := by
  simp only [State.setNZ, nzFlags_eq]
  rfl

/-! ## The forms of an instruction (R510, R720) -/

/-- The modes whose resolver sets the page-cross flag (R214). -/
def indexesPage : Mode → Bool
  | .abx | .aby | .izy => true
  | _ => false

theorem crossed_of_not_indexesPage {o : Operand} (h : indexesPage o.mode = false) (s : State) :
    crossed o s = false := by
  have hmode : o.mode ≠ .abx ∧ o.mode ≠ .aby ∧ o.mode ≠ .izy := by
    refine ⟨?_, ?_, ?_⟩ <;> intro hm <;> simp [hm, indexesPage] at h
  rw [crossed, ready, resolve_pageCross o _ hmode]
  rfl

theorem baseCycles_of_variants {opcode : Byte} {cycles : Nat} (hnmos : baseCycles .nmos opcode = cycles)
    (hcmos : baseCycles .cmos opcode = cycles) (variant : Variant) : baseCycles variant opcode = cycles := by
  cases variant with
  | nmos => exact hnmos
  | cmos => exact hcmos

/-- The form is what the model's tables say of the instruction: its opcode, its base cycles, and a star exactly where
the handler sets `op_penalty` and the mode's resolver can set `page_cross`. -/
structure HasForm (i : Instr) (f : Form) : Prop where
  isDocumented : documented i = true
  mode : i.operand.mode = f.mode
  opcode : opcodeOf i = some f.opcode
  cycles : ∀ variant, baseCycles variant f.opcode = f.cycles
  star : f.star = (setsPenalty i && indexesPage f.mode)

/-- The star of a form and the handler's `op_penalty` charge the same crossings (R510). -/
theorem HasForm.penalty {i : Instr} {f : Form} (h : HasForm i f) (s : State) :
    (crossed i.operand s && setsPenalty i) = (f.star && crossed i.operand s) := by
  cases hindex : indexesPage f.mode with
  | true => rw [h.star, hindex, Bool.and_true, Bool.and_comm]
  | false => simp [crossed_of_not_indexesPage (h.mode ▸ hindex)]

/-- An instruction of a form completes: registers, memory and bus record are those its handler leaves, and it takes the
form's cycles and the `k` that the handler adds by itself (R503 to R511). -/
theorem exec_form {i : Instr} {f : Form} (h : HasForm i f) {s : State} {k : Nat}
    (hk : (handlerOf i (ready i.operand s)).cycles = s.cycles + k) :
    ∃ t, exec i s = .next t ∧ SameHost s t ∧ Took (formCycles f i.operand s + k) s t ∧
      let u := handlerOf i (ready i.operand s)
      regs t = regs u ∧ t.mem = u.mem ∧ t.busLog = u.busLog := by
  have keeps := (((Keeps.refl s).ready i.operand).handlerOf i).account s.cycles f.cycles
  refine ⟨_, ?executes, ⟨keeps.nmi, keeps.irq, keeps.hook, keeps.seq, keeps.cfg⟩, ?took, rfl, rfl, rfl⟩
  case executes => rw [exec_documented h.isDocumented, perform_eq h.opcode, h.cycles, ready]
  case took =>
    have hpenalty : penaltyCycles (handlerOf i (ready i.operand s)) =
        if f.star && crossed i.operand s then 1 else 0 := by
      rw [handlerOf_penalty i (ready_opPenalty _ s), ← h.penalty s, crossed]
    have hcount : (handlerOf i (ready i.operand s)).instructions = s.instructions := by
      rw [(handlerOf_counters i _).1, ready_instructions]
    obtain ⟨hcycles, hinstructions, hlast⟩ := account_counters s.cycles f.cycles (handlerOf i (ready i.operand s))
    have htotal : s.cycles + k + f.cycles + penaltyCycles (handlerOf i (ready i.operand s)) =
        s.cycles + (formCycles f i.operand s + k) := by
      rw [hpenalty, formCycles]
      omega
    rw [hk, htotal] at hcycles hlast
    rw [hcount] at hinstructions
    rw [Nat.add_sub_cancel_left] at hlast
    exact ⟨hcycles, hinstructions, hlast⟩

/-- Only a branch and decimal arithmetic add cycles of their own (R301, R304, R400). -/
theorem handlerOf_cycles {i : Instr} (h : extraCycles i = 0) (s : State) : (handlerOf i s).cycles = s.cycles := by
  obtain ⟨-, ⟨k, hk, hcycles⟩, -⟩ := handlerOf_counters i s
  omega

/-- Each of the forms is one of the instructions that `mk` makes of an operand. -/
def HasForms (mk : Operand → Instr) (forms : List Form) : Prop :=
  ∀ f ∈ forms, ∀ o : Operand, o.mode = f.mode → (mk o).operand = o ∧ HasForm (mk o) f

theorem mode_operandOf (m : Mode) (b : Byte) (w : Addr) : (operandOf m b w).mode = m := by cases m <;> rfl

/-- The forms of a mnemonic, from its opcodes and cycles at one operand of each mode: a mnemonic's opcode depends on
the mode alone (R151). `penalty` is whether its handler sets `op_penalty` (R504). -/
theorem hasForms_of_tables {mk : Operand → Instr} {forms : List Form} (penalty : Bool)
    (hinstr : ∀ o, documented (mk o) = true ∧ (mk o).operand = o ∧ setsPenalty (mk o) = penalty)
    (hmode : ∀ o o' : Operand, o.mode = o'.mode → opcodeOf (mk o) = opcodeOf (mk o'))
    (htables : ∀ f ∈ forms, opcodeOf (mk (operandOf f.mode 0 0)) = some f.opcode ∧
      baseCycles .nmos f.opcode = f.cycles ∧ baseCycles .cmos f.opcode = f.cycles ∧
      f.star = (penalty && indexesPage f.mode)) : HasForms mk forms := by
  intro f hf o ho
  obtain ⟨hdoc, hoperand, hpenalty⟩ := hinstr o
  obtain ⟨hopcode, hnmos, hcmos, hstar⟩ := htables f hf
  have hsample : o.mode = (operandOf f.mode 0 0).mode := by rw [mode_operandOf, ho]
  exact ⟨hoperand, hdoc, by rw [hoperand, ho], (hmode o _ hsample).trans hopcode,
    baseCycles_of_variants hnmos hcmos, by rw [hpenalty, hstar]⟩

/-! ## From the handler to the rule (R215, R254, R505) -/

theorem sameMemory_of_mem {s t : State} (h : t.mem = s.mem) : SameMemory s t := fun a => by
  rw [State.byteAt, h, State.byteAt]

/-- A rule of an instruction that reads its operand: the handler leaves memory, its one bus access is `ReadOperand`'s,
and its registers and cycles are the rule's. -/
theorem readRule_of_handler {mk : Operand → Instr} {forms : List Form} {pre : State → Prop}
    {out : Byte → State → Regs} {extra : State → Nat} (hforms : HasForms mk forms)
    (hbus : ∀ o t, (handlerOf (mk o) t).mem = t.mem ∧ (handlerOf (mk o) t).busLog = operandLog o t)
    (hregs : ∀ o s, pre s → regs (handlerOf (mk o) (ready o s)) = out (operandByte o s) s)
    (hcycles : ∀ o s, pre s → (handlerOf (mk o) (ready o s)).cycles = s.cycles + extra s) :
    ReadRule mk forms pre out extra := by
  intro f hf o s ho hpre
  obtain ⟨hoperand, hform⟩ := hforms f hf o ho
  obtain ⟨hmem, hlog⟩ := hbus o (ready o s)
  obtain ⟨t, hexec, hhost, htook, htregs, htmem, htlog⟩ :=
    exec_form hform (s := s) (k := extra s) (by rw [hoperand, hcycles o s hpre])
  rw [hoperand] at htook htregs htmem htlog
  exact ⟨hform.opcode, t, hexec, htregs.trans (hregs o s hpre), hhost,
    sameMemory_of_mem (by rw [htmem, hmem, ready_mem]), by rw [htlog, hlog, (operand_ready o s).2], htook⟩

/-- One bus write stores its byte and no other; `u` reads as `s` does. -/
theorem stored_busWrite {s u : State} (hio : ∀ b, u.isIo b = s.isIo b) (hbyte : ∀ b, u.byteAt b = s.byteAt b)
    (a : Addr) (v : Byte) : Stored [(a, v)] s (busWrite a v u) := by
  intro b
  rw [busWrite_byteAt, hio, hbyte]
  by_cases hb : b = a
  · subst hb
    cases s.isIo b <;> simp
  · simp [hb, Ne.symm hb]

/-- A rule of a store: the handler is one bus write, at the `ea` of its resolver, of a byte that no resolver changes. -/
theorem storeRule_of_handler {mk : Operand → Instr} {forms : List Form} {value : State → Byte}
    (hforms : HasForms mk forms) (hplain : ∀ o, extraCycles (mk o) = 0 ∧ setsPenalty (mk o) = false)
    (hhandler : ∀ o t, handlerOf (mk o) t = busWrite t.scratch.ea (value t) t)
    (hvalue : ∀ o s, value (ready o s) = value s) : StoreRule mk forms value := by
  intro f hf o s ho
  obtain ⟨hoperand, hform⟩ := hforms f hf o ho
  obtain ⟨hextra, hpenalty⟩ := hplain o
  have hwrite : handlerOf (mk o) (ready (mk o).operand s) = busWrite (eaOf o s) (value s) (ready o s) := by
    rw [hoperand, hhandler, hvalue, eaOf]
  have hcycles : formCycles f (mk o).operand s + 0 = f.cycles := by
    rw [formCycles, hform.star, hpenalty, Bool.false_and, Bool.false_and]
    rfl
  obtain ⟨t, hexec, hhost, htook, htregs, htmem, htlog⟩ :=
    exec_form hform (s := s) (k := 0) (by rw [handlerOf_cycles hextra, ready_cycles, Nat.add_zero])
  rw [hcycles] at htook
  rw [hwrite] at htregs htmem htlog
  refine ⟨hform.opcode, t, hexec, ?regs, hhost, ?stored, ?log, htook⟩
  case regs => rw [htregs, ← regs_ready o s, busWrite_eq]; rfl
  case stored =>
    intro a
    rw [State.byteAt, htmem]
    exact stored_busWrite (ready_isIo o s) (ready_byteAt o s) (eaOf o s) (value s) a
  case log => rw [htlog, busWrite_eq]; rfl

/-- A rule of an instruction in implied mode: the handler makes no bus access and adds no cycles. -/
theorem impliedRule_of_handler {i : Instr} {opcode : Byte} {cycles : Nat} {out : State → Regs}
    (hinstr : documented i = true ∧ i.operand = .imp ∧ extraCycles i = 0)
    (htables : opcodeOf i = some opcode ∧ baseCycles .nmos opcode = cycles ∧ baseCycles .cmos opcode = cycles)
    (hbus : ∀ t, (handlerOf i t).mem = t.mem ∧ (handlerOf i t).busLog = t.busLog)
    (hregs : ∀ s, regs (handlerOf i (ready .imp s)) = out s) : ImpliedRule i opcode cycles out := by
  obtain ⟨hdoc, hoperand, hextra⟩ := hinstr
  obtain ⟨hopcode, hnmos, hcmos⟩ := htables
  have hform : HasForm i ⟨.imp, opcode, cycles, false⟩ :=
    ⟨hdoc, by rw [hoperand]; rfl, hopcode, baseCycles_of_variants hnmos hcmos, (Bool.and_false _).symm⟩
  refine ⟨hopcode, fun s => ?_⟩
  obtain ⟨hmem, hlog⟩ := hbus (ready .imp s)
  obtain ⟨t, hexec, hhost, htook, htregs, htmem, htlog⟩ :=
    exec_form hform (s := s) (k := 0) (by rw [handlerOf_cycles hextra, ready_cycles, Nat.add_zero])
  rw [hoperand] at htregs htmem htlog
  exact ⟨t, hexec, htregs.trans (hregs s), hhost, sameMemory_of_mem (by rw [htmem, hmem, ready_mem]),
    htlog.trans hlog, htook⟩

/-! ## Loads (R250 to R253) -/

theorem lda_hasForms : HasForms .lda ldaForms :=
  hasForms_of_tables true (fun _ => ⟨rfl, rfl, rfl⟩) (fun o o' h => by simp only [opcodeOf, h]) (by decide)

theorem ldx_hasForms : HasForms .ldx ldxForms :=
  hasForms_of_tables true (fun _ => ⟨rfl, rfl, rfl⟩) (fun o o' h => by simp only [opcodeOf, h]) (by decide)

theorem ldy_hasForms : HasForms .ldy ldyForms :=
  hasForms_of_tables true (fun _ => ⟨rfl, rfl, rfl⟩) (fun o o' h => by simp only [opcodeOf, h]) (by decide)

/-- A load's rule, from what its `set` does: it puts the byte into the registers and leaves P, memory and the record. -/
theorem readRule_of_loadHandler {mk : Operand → Instr} {forms : List Form} {set : State → Byte → State}
    (put : Regs → Byte → Regs) (hforms : HasForms mk forms)
    (hhandler : ∀ o, handlerOf (mk o) = loadHandler set o ∧ extraCycles (mk o) = 0)
    (hset : ∀ t v, regs (set t v) = put (regs t) v ∧ (set t v).mem = t.mem ∧ (set t v).busLog = t.busLog)
    (hput : ∀ r v, (put r v).p = r.p) :
    ReadRule mk forms always (fun v s => { put (regs s) v with p := withNZ s.p v }) noExtra := by
  refine readRule_of_handler hforms ?bus ?regs fun o s _ => ?cycles
  case bus =>
    intro o t
    obtain ⟨-, hmem, hlog⟩ := hset (readOperand o t) (operandValue o t)
    rw [(hhandler o).1, loadHandler_eq]
    exact ⟨hmem.trans (readOperand_mem o t), hlog.trans (by rw [readOperand_eq, State.setBusLog_busLog])⟩
  case regs =>
    intro o s _
    have hregs : regs (set (readOperand o (ready o s)) (operandByte o s)) = put (regs s) (operandByte o s) := by
      rw [(hset _ _).1, regs_readOperand, regs_ready]
    have hp : (set (readOperand o (ready o s)) (operandByte o s)).p = s.p :=
      (congrArg Regs.p hregs).trans (hput _ _)
    rw [(hhandler o).1, loadHandler_eq, (operand_ready o s).1, regs_setPenalty, regs_setNZ, hregs, hp]
  case cycles => rw [handlerOf_cycles (hhandler o).2, ready_cycles, noExtra, Nat.add_zero]

/-- Settles O24: each load is the common load into its register. -/
theorem loadsFollowRules : Obligations.LoadsFollowRules := by
  refine ⟨?lda, ?ldx, ?ldy⟩
  case lda =>
    exact readRule_of_loadHandler (fun r v => { r with a := v }) lda_hasForms (fun _ => ⟨rfl, rfl⟩)
      (fun _ _ => ⟨rfl, rfl, rfl⟩) fun _ _ => rfl
  case ldx =>
    exact readRule_of_loadHandler (fun r v => { r with x := v }) ldx_hasForms (fun _ => ⟨rfl, rfl⟩)
      (fun _ _ => ⟨rfl, rfl, rfl⟩) fun _ _ => rfl
  case ldy =>
    exact readRule_of_loadHandler (fun r v => { r with y := v }) ldy_hasForms (fun _ => ⟨rfl, rfl⟩)
      (fun _ _ => ⟨rfl, rfl, rfl⟩) fun _ _ => rfl

/-! ## Stores (R254 to R256) -/

theorem sta_hasForms : HasForms .sta staForms :=
  hasForms_of_tables false (fun _ => ⟨rfl, rfl, rfl⟩) (fun o o' h => by simp only [opcodeOf, h]) (by decide)

theorem stx_hasForms : HasForms .stx stxForms :=
  hasForms_of_tables false (fun _ => ⟨rfl, rfl, rfl⟩) (fun o o' h => by simp only [opcodeOf, h]) (by decide)

theorem sty_hasForms : HasForms .sty styForms :=
  hasForms_of_tables false (fun _ => ⟨rfl, rfl, rfl⟩) (fun o o' h => by simp only [opcodeOf, h]) (by decide)

/-- Settles O25: a store's handler is its one bus write. -/
theorem storesFollowRules : Obligations.StoresFollowRules :=
  ⟨storeRule_of_handler sta_hasForms (fun _ => ⟨rfl, rfl⟩) (fun _ _ => rfl) ready_a,
   storeRule_of_handler stx_hasForms (fun _ => ⟨rfl, rfl⟩) (fun _ _ => rfl) ready_x,
   storeRule_of_handler sty_hasForms (fun _ => ⟨rfl, rfl⟩) (fun _ _ => rfl) ready_y⟩

/-! ## Transfers (R257 to R262) -/

/-- Settles O26: each transfer's handler writes one register from another, and N and Z but for TXS. -/
theorem transfersFollowRules : Obligations.TransfersFollowRules := by
  refine ⟨?tax, ?tay, ?txa, ?tya, ?tsx, ?txs⟩
  case tax | tay | txa | tya | tsx =>
    exact impliedRule_of_handler ⟨rfl, rfl, rfl⟩ ⟨rfl, rfl, rfl⟩ (fun _ => ⟨rfl, rfl⟩) fun _ => regs_setNZ _ _
  case txs => exact impliedRule_of_handler ⟨rfl, rfl, rfl⟩ ⟨rfl, rfl, rfl⟩ (fun _ => ⟨rfl, rfl⟩) fun _ => rfl

end Sys2Proof.Machine
end

section
/-! SUPPORT AND PROOF. Arithmetic and compare (O27 to O34). A rule of ADC or SBC in one mode is one equation between
registers, what the mode's operation answers against the statement's numbers (`readRule_of_arithmetic`); the model and
the statements differ only in how they cut a byte and decide an overflow. On decimal digits both decimal operations give
one thing, a sum or difference of digits with each carry or borrow corrected from 16 to 10 (`decimalCorrected`). -/

namespace Sys2Proof.Machine

open Sys2Proof.Claims

/-! ## Carries and signs as the statements write them (R22, R302) -/

theorem carryInt_eq (c : Bool) : carryInt c = (carryNat c : Int) := by cases c <;> rfl

theorem withNZ_eq (p : Flags) (v : Byte) : withNZ p v = nzFlags p v := (nzFlags_eq p v).symm

/-- The sign of a byte's high digit alone (R303). -/
theorem signedOf_highDigit (v : Byte) : signedOf (v.toNat / 16 * 16) = (v &&& 0xF0).toInt := (highDigit_toInt v).symm

/-! ## The operations in numbers (R302, R303, R305, R306) -/

/-- The registers after A and P take an ALU result. -/
def withResult (r : AluResult) (s : State) : Regs := { regs s with a := r.value, p := r.p }

theorem adcBinary_regs (m : Byte) (s : State) : withResult (adcBinary s.a m s.p) s = binarySum m s := by
  simp only [withResult, adcBinary_eq, binarySum, carryInt_eq, Int.toNat_natCast, withNZ_eq, nzFlags]

theorem sbcBinary_regs (m : Byte) (s : State) : withResult (sbcBinary s.a m s.p) s = binaryDifference m s := by
  simp only [withResult, sbcBinary_eq, binaryDifference, carryInt_eq, withNZ_eq, nzFlags]

theorem adcDecimal_regs (cmos : Bool) (m : Byte) (s : State) :
    withResult (adcDecimal cmos s.a m s.p) s = decimalSum cmos m s := by
  simp only [withResult, adcDecimal, decimalSum, carryInt_eq, Int.toNat_natCast, withNZ_eq, highDigit_eq,
    lowDigit_eq, signedOf_highDigit, Bool.decide_or, Nat.testBit_eq_decide_div_mod_eq]

/-- The decimal subtract takes its flags from the binary one, but N and Z on Cmos (R306). -/
theorem sbcDecimal_p (cmos : Bool) (a m : Byte) (p : Flags) :
    (sbcDecimal cmos a m p).p =
      if cmos then nzFlags (sbcBinary a m p).p (sbcDecimal cmos a m p).value else (sbcBinary a m p).p := by
  cases cmos <;> rfl

theorem sbcDecimal_regs (cmos : Bool) (m : Byte) (s : State) :
    withResult (sbcDecimal cmos s.a m s.p) s = decimalDifference cmos m s := by
  rw [withResult, sbcDecimal_p, decimalDifference, ← sbcBinary_regs]
  cases cmos with
  | false => simp only [withResult, sbcDecimal, carryInt_eq, highDigit_eq, lowDigit_eq]; rfl
  | true => simp only [withResult, sbcDecimal, carryInt_eq, lowDigit_eq, withNZ_eq]; rfl

/-! ## ADC and SBC in every form (R301, R304) -/

theorem adc_hasForms : HasForms .adc adcForms :=
  hasForms_of_tables true (fun _ => ⟨rfl, rfl, rfl⟩) (fun o o' h => by simp only [opcodeOf, h]) (by decide)

theorem sbc_hasForms : HasForms .sbc sbcForms :=
  hasForms_of_tables true (fun _ => ⟨rfl, rfl, rfl⟩) (fun o o' h => by simp only [opcodeOf, h]) (by decide)

/-- A rule of ADC or SBC, from what its operation `f` answers where the rule's condition holds. -/
theorem readRule_of_arithmetic {mk : Operand → Instr} {forms : List Form} {f : Byte → State → AluResult}
    {pre : State → Prop} {out : Byte → State → Regs} {extra : State → Nat} (hforms : HasForms mk forms)
    (hhandler : ∀ o, handlerOf (mk o) = arithmeticHandler f o)
    (hf : ∀ m s t, t.a = s.a → t.p = s.p → t.cfg = s.cfg → f m t = f m s)
    (hmode : ∀ m s, pre s → withResult (f m s) s = out m s ∧ decimalCycle s = extra s) :
    ReadRule mk forms pre out extra := by
  refine readRule_of_handler hforms (fun o t => ?bus) (fun o s hpre => ?regs) fun o s hpre => ?cycles
  case bus => simp [hhandler, arithmeticHandler_eq hf, readOperand_eq]
  case regs =>
    rw [hhandler, arithmeticHandler_eq hf, (operand_ready o s).1, hf _ _ _ (ready_a o s) (ready_p o s) (ready_cfg o s),
      ← (hmode _ s hpre).1, withResult, ← regs_ready o s, ← regs_readOperand o (ready o s)]
    rfl
  case cycles =>
    rw [hhandler, (arithmeticHandler_counters hf o _).2.1, ready_cycles, ← (hmode (operandByte o s) s hpre).2,
      decimalCycle, decimalCycle, ready_p, ready_cfg]

/-- Settles O27: in binary mode ADC is `AdcBinary`. -/
theorem adcBinaryFollowsRule : Obligations.AdcBinaryFollowsRule :=
  readRule_of_arithmetic adc_hasForms (fun _ => rfl) (fun m _ _ => adcResult_congr m) fun m s hbinary => by
    obtain ⟨hadc, -, hcycle⟩ := binary_arithmetic hbinary m
    exact ⟨by rw [hadc, adcBinary_regs], hcycle⟩

/-- Settles O28: in decimal mode ADC is `AdcDecimal` of the configured way. -/
theorem adcDecimalFollowsRule : Obligations.AdcDecimalFollowsRule := fun cmos =>
  readRule_of_arithmetic adc_hasForms (fun _ => rfl) (fun m _ _ => adcResult_congr m) fun m s ⟨hd, hway⟩ => by
    obtain ⟨hadc, -, hcycle⟩ := decimal_arithmetic hd hway m
    exact ⟨by rw [hadc, adcDecimal_regs], hcycle⟩

/-- Settles O29: in binary mode SBC is `SbcBinary`. -/
theorem sbcBinaryFollowsRule : Obligations.SbcBinaryFollowsRule :=
  readRule_of_arithmetic sbc_hasForms (fun _ => rfl) (fun m _ _ => sbcResult_congr m) fun m s hbinary => by
    obtain ⟨-, hsbc, hcycle⟩ := binary_arithmetic hbinary m
    exact ⟨by rw [hsbc, sbcBinary_regs], hcycle⟩

/-- Settles O30: in decimal mode SBC is `SbcDecimal` of the configured way. -/
theorem sbcDecimalFollowsRule : Obligations.SbcDecimalFollowsRule := fun cmos =>
  readRule_of_arithmetic sbc_hasForms (fun _ => rfl) (fun m _ _ => sbcResult_congr m) fun m s ⟨hd, hway⟩ => by
    obtain ⟨-, hsbc, hcycle⟩ := decimal_arithmetic hd hway m
    exact ⟨by rw [hsbc, sbcDecimal_regs], hcycle⟩

/-! ## Compares (R307 to R310) -/

theorem cmp_hasForms : HasForms .cmp cmpForms :=
  hasForms_of_tables true (fun _ => ⟨rfl, rfl, rfl⟩) (fun o o' h => by simp only [opcodeOf, h]) (by decide)

theorem cpx_hasForms : HasForms .cpx cpxForms :=
  hasForms_of_tables false (fun _ => ⟨rfl, rfl, rfl⟩) (fun o o' h => by simp only [opcodeOf, h]) (by decide)

theorem cpy_hasForms : HasForms .cpy cpyForms :=
  hasForms_of_tables false (fun _ => ⟨rfl, rfl, rfl⟩) (fun o o' h => by simp only [opcodeOf, h]) (by decide)

/-- A rule of a compare, whose handler is the compare of `reg` and may write scratch after it, as CMP does. -/
theorem readRule_of_compare {mk : Operand → Instr} {forms : List Form} (reg : State → Byte)
    (hforms : HasForms mk forms)
    (hhandler : ∀ o t, ∃ scratch, handlerOf (mk o) t = (compareHandler reg o t).setScratch scratch)
    (hextra : ∀ o, extraCycles (mk o) = 0) (hreg : ∀ o s, reg (readOperand o (ready o s)) = reg s) :
    ReadRule mk forms always (fun m s => { regs s with p := compared (reg s) m s.p }) noExtra := by
  refine readRule_of_handler hforms (fun o t => ?bus) (fun o s _ => ?regs) fun o s _ => ?cycles
  case bus =>
    obtain ⟨scratch, hscratch⟩ := hhandler o t
    rw [hscratch, compareHandler_eq]
    simp [readOperand_eq]
  case regs =>
    obtain ⟨scratch, hscratch⟩ := hhandler o (ready o s)
    rw [hscratch, compareHandler_eq, hreg, (operand_ready o s).1, ready_p, compareFlags_eq, ← regs_ready o s,
      ← regs_readOperand o (ready o s)]
    rfl
  case cycles => rw [handlerOf_cycles (hextra o), ready_cycles, noExtra, Nat.add_zero]

/-- Settles O31: each compare is the common one of its register. -/
theorem comparesFollowRules : Obligations.ComparesFollowRules :=
  ⟨readRule_of_compare State.a cmp_hasForms (fun _ _ => ⟨_, rfl⟩) (fun _ => rfl) (fun o s => by simp),
   readRule_of_compare State.x cpx_hasForms (fun _ _ => ⟨_, rfl⟩) (fun _ => rfl) (fun o s => by simp),
   readRule_of_compare State.y cpy_hasForms (fun _ _ => ⟨_, rfl⟩) (fun _ => rfl) (fun o s => by simp)⟩

/-! ## Add, then subtract (R311) -/

/-- A binary add without carry, then a binary subtract of the same byte without borrow, give A back (R302, R305). -/
theorem binaryDifference_binarySum {m : Byte} {s t : State} (ht : t.a = (binarySum m s).a) (hs : s.p.c = false)
    (hc : t.p.c = true) : (binaryDifference m t).a = s.a := by
  have ha := s.a.isLt
  have hm := m.isLt
  apply BitVec.eq_of_toNat_eq
  simp only [binaryDifference, binarySum, carryInt, ht, hs, hc, if_true, Bool.false_eq_true, if_false,
    BitVec.toNat_ofInt, BitVec.toNat_ofNat]
  omega

/-- SEC sets C and leaves the other registers (R456). -/
theorem sec_rule : ImpliedRule .sec 0x38 2 (fun s => { regs s with p := { s.p with c := true } }) :=
  impliedRule_of_handler ⟨rfl, rfl, rfl⟩ ⟨rfl, rfl, rfl⟩ (fun _ => ⟨rfl, rfl⟩) fun _ => rfl

/-- Settles O32: the three rules in turn; the first two leave D and the configuration, so the third is binary too. -/
theorem addThenSubtract : Obligations.AddThenSubtract := by
  intro s b hmode hc
  obtain ⟨-, t, hadc, htregs, ⟨-, -, -, -, htcfg⟩, -⟩ :=
    adcBinaryFollowsRule ⟨.imm, 0x69, 2, false⟩ (by decide) (.imm b) s rfl hmode
  obtain ⟨u, hsec, huregs, ⟨-, -, -, -, hucfg⟩, -⟩ := sec_rule.2 t
  have hta : t.a = (binarySum b s).a := congrArg Regs.a htregs
  have htp : t.p.d = s.p.d := congrArg (fun r => r.p.d) htregs
  have hua : u.a = t.a := congrArg Regs.a huregs
  have hup : u.p = { t.p with c := true } := congrArg Regs.p huregs
  have humode : binaryMode u := by rwa [binaryMode, hup, htp, hucfg, htcfg]
  obtain ⟨-, v, hsbc, hvregs, -⟩ :=
    sbcBinaryFollowsRule ⟨.imm, 0xE9, 2, false⟩ (by decide) (.imm b) u rfl humode
  exact ⟨t, u, v, hadc, hsec, hsbc,
    (congrArg Regs.a hvregs).trans (binaryDifference_binarySum (hua.trans hta) hc (by rw [hup]))⟩

/-! ## Decimal digits (R303, R306) -/

/-- The sum or difference of two bytes' digits, corrected to decimal: `high` and `low` are those of the high and of the
low digits. The quotients are the carries, negative where a digit borrows, and a carry moves a digit by 6. -/
def decimalCorrected (high low : Int) : Int := 16 * high + low + 6 * (low / 10) + 96 * ((10 * high + low) / 100)

/-- The two digits with their carries, and a byte's carry where the number they stand for passes 99. -/
theorem decimalCorrected_eq (high low : Int) :
    decimalCorrected high low = 16 * ((high + low / 10) % 10) + low % 10 + 256 * ((10 * high + low) / 100) := by
  rw [decimalCorrected]
  omega

/-- The corrected byte is two decimal digits, of the number that the uncorrected digits stand for, modulo 100. -/
theorem decimalCorrected_isBcd (high low : Int) :
    isBcd (BitVec.ofInt 8 (decimalCorrected high low)) ∧
      (bcdValue (BitVec.ofInt 8 (decimalCorrected high low)) : Int) = (10 * high + low) % 100 := by
  have hdigits : ((BitVec.ofInt 8 (decimalCorrected high low)).toNat : Int) =
      16 * ((high + low / 10) % 10) + low % 10 := by
    rw [BitVec.toNat_ofInt, decimalCorrected_eq]
    omega
  rw [isBcd, bcdValue]
  omega

/-- The correction carries out of the byte exactly where the number passes 99. -/
theorem decimalCorrected_carries (high low : Int) : 256 ≤ decimalCorrected high low ↔ 100 ≤ 10 * high + low := by
  rw [decimalCorrected_eq]
  omega

/-- The sum of `AdcDecimal`, from which it takes the result and C (R303). -/
def adcDecimalTotal (a m : Byte) (c : Bool) : Nat :=
  let low := a.toNat % 16 + m.toNat % 16 + c.toNat
  let sum := a.toNat / 16 * 16 + m.toNat / 16 * 16 + if 10 ≤ low then (low + 6) % 16 + 16 else low
  if 160 ≤ sum then sum + 96 else sum

theorem adcDecimal_total (cmos : Bool) (a m : Byte) (p : Flags) :
    (adcDecimal cmos a m p).value = BitVec.ofNat 8 (adcDecimalTotal a m p.c) ∧
      (adcDecimal cmos a m p).p.c = decide (256 ≤ adcDecimalTotal a m p.c) := by
  cases cmos <;> simp only [adcDecimal, highDigit_eq, lowDigit_eq, carryNat_eq] <;> exact ⟨rfl, rfl⟩

theorem adcDecimalTotal_of_isBcd {a m : Byte} (c : Bool) (ha : isBcd a) (hm : isBcd m) :
    (adcDecimalTotal a m c : Int) =
      decimalCorrected (a.toNat / 16 + m.toNat / 16) (a.toNat % 16 + m.toNat % 16 + c.toNat) := by
  obtain ⟨hal, hah⟩ := ha
  obtain ⟨hml, hmh⟩ := hm
  have hc := Bool.toNat_le c
  simp only [adcDecimalTotal, decimalCorrected]
  split <;> split <;> omega

/-- Settles O33: the sum is the corrected one of the digits' sums. -/
theorem decimalAddIsDecimal : Obligations.DecimalAddIsDecimal := by
  intro cmos a m p ha hm r total
  let high : Int := a.toNat / 16 + m.toNat / 16
  let low : Int := a.toNat % 16 + m.toNat % 16 + p.c.toNat
  have htotal : (total : Int) = 10 * high + low := by
    simp only [total, high, low, bcdValue]
    omega
  have hsum : (adcDecimalTotal a m p.c : Int) = decimalCorrected high low := adcDecimalTotal_of_isBcd p.c ha hm
  obtain ⟨hvalue, hcarry⟩ := adcDecimal_total cmos a m p
  obtain ⟨hbcd, hnumber⟩ := decimalCorrected_isBcd high low
  have hcarries := decimalCorrected_carries high low
  rw [← hsum, BitVec.ofInt_natCast, ← hvalue] at hbcd hnumber
  rw [← htotal] at hnumber hcarries
  refine ⟨hbcd, by exact_mod_cast hnumber, ?_⟩
  rw [hcarry]
  exact decide_eq_decide.mpr (by omega)

/-- The difference of `SbcDecimal`, from which it takes the result (R306). -/
def sbcDecimalTotal (cmos : Bool) (a m : Byte) (c : Bool) : Int :=
  let low : Int := (a.toNat % 16 : Nat) - (m.toNat % 16 : Nat) + c.toNat - 1
  if cmos then
    let d : Int := a.toNat - m.toNat + c.toNat - 1
    let high := if d < 0 then d - 96 else d
    if low < 0 then high - 6 else high
  else
    let d : Int := (a.toNat / 16 * 16 : Nat) - (m.toNat / 16 * 16 : Nat) + if low < 0 then (low - 6) % 16 - 16 else low
    if d < 0 then d - 96 else d

theorem sbcDecimal_total (cmos : Bool) (a m : Byte) (p : Flags) :
    (sbcDecimal cmos a m p).value = BitVec.ofInt 8 (sbcDecimalTotal cmos a m p.c) := by
  cases cmos <;> simp only [sbcDecimal, highDigit_eq, lowDigit_eq, carryNat_eq] <;> rfl

theorem sbcDecimalTotal_of_isBcd (cmos : Bool) {a m : Byte} (c : Bool) (ha : isBcd a) (hm : isBcd m) :
    sbcDecimalTotal cmos a m c =
      decimalCorrected (a.toNat / 16 - m.toNat / 16) (a.toNat % 16 - m.toNat % 16 + c.toNat - 1) := by
  obtain ⟨hal, hah⟩ := ha
  obtain ⟨hml, hmh⟩ := hm
  have hc := Bool.toNat_le c
  cases cmos <;> simp only [sbcDecimalTotal, decimalCorrected, if_true, if_false, Bool.false_eq_true] <;>
    split <;> split <;> omega

/-- Settles O34: the difference is the corrected one of the digits' differences, and C is the binary subtract's. -/
theorem decimalSubtractIsDecimal : Obligations.DecimalSubtractIsDecimal := by
  intro cmos a m p ha hm r total
  let high : Int := a.toNat / 16 - m.toNat / 16
  let low : Int := a.toNat % 16 - m.toNat % 16 + p.c.toNat - 1
  have htotal : total = 10 * high + low := by
    simp only [total, high, low, bcdValue]
    omega
  obtain ⟨hbcd, hnumber⟩ := decimalCorrected_isBcd high low
  rw [← sbcDecimalTotal_of_isBcd cmos p.c ha hm, ← sbcDecimal_total] at hbcd hnumber
  rw [← htotal] at hnumber
  refine ⟨hbcd, hnumber, ?_⟩
  rw [(sbcDecimal_carry_overflow cmos a m p).1, sbcBinary_eq, carryNat_eq]
  obtain ⟨hal, hah⟩ := ha
  obtain ⟨hml, hmh⟩ := hm
  have hc := Bool.toNat_le p.c
  refine decide_eq_decide.mpr ?_
  simp only [total, bcdValue]
  omega

end Sys2Proof.Machine
end

section
/-! SUPPORT AND PROOF. Logic, shifts, increments and decrements (O35 to O38). A rule of AND, ORA or EOR is the common
logic handler of one operation (`readRule_of_logic`). In the state its resolver leaves, a read-modify-write handler
writes A in accumulator mode and one byte of memory in any other (`rmwHandler_ready`), so what is left of its rule is
that the statement's numbers are the model's bits (`rmwRule_of_result`). -/

namespace Sys2Proof.Machine

open Sys2Proof.Claims

/-! ## The state after `ReadOperand` (R215, R510) -/

theorem regs_setA (s : State) (v : Byte) : regs (s.setA v) = { regs s with a := v } := rfl

theorem regs_setP (s : State) (p : Flags) : regs (s.setP p) = { regs s with p := p } := rfl

theorem readOperand_ready_busLog (o : Operand) (s : State) : (readOperand o (ready o s)).busLog = readLog o s := by
  rw [← (operand_ready o s).2, readOperand_eq]
  rfl

/-- An instruction whose handler leaves `op_penalty` pays no crossing (R504, R510). -/
theorem HasForm.formCycles_eq {i : Instr} {f : Form} (h : HasForm i f) (hpenalty : setsPenalty i = false) (o : Operand)
    (s : State) : formCycles f o s = f.cycles := by
  rw [formCycles, h.star, hpenalty, Bool.false_and, Bool.false_and]
  rfl

/-! ## Logic (R350 to R354) -/

theorem and_hasForms : HasForms .and andForms :=
  hasForms_of_tables true (fun _ => ⟨rfl, rfl, rfl⟩) (fun o o' h => by simp only [opcodeOf, h]) (by decide)

theorem ora_hasForms : HasForms .ora oraForms :=
  hasForms_of_tables true (fun _ => ⟨rfl, rfl, rfl⟩) (fun o o' h => by simp only [opcodeOf, h]) (by decide)

theorem eor_hasForms : HasForms .eor eorForms :=
  hasForms_of_tables true (fun _ => ⟨rfl, rfl, rfl⟩) (fun o o' h => by simp only [opcodeOf, h]) (by decide)

theorem bit_hasForms : HasForms .bit bitForms :=
  hasForms_of_tables false (fun _ => ⟨rfl, rfl, rfl⟩) (fun o o' h => by simp only [opcodeOf, h]) (by decide)

/-- A rule of AND, ORA or EOR: A takes `f` of A and the operand, N and Z are the result's. -/
theorem readRule_of_logic {mk : Operand → Instr} {forms : List Form} (f : Byte → Byte → Byte)
    (hforms : HasForms mk forms) (hhandler : ∀ o, handlerOf (mk o) = logicHandler f o ∧ extraCycles (mk o) = 0) :
    ReadRule mk forms always (fun m s => { regs s with a := f s.a m, p := withNZ s.p (f s.a m) }) noExtra := by
  refine readRule_of_handler hforms (fun o t => ?bus) (fun o s _ => ?regs) fun o s _ => ?cycles
  case bus =>
    rw [(hhandler o).1, logicHandler_eq, readOperand_eq]
    exact ⟨rfl, rfl⟩
  case regs =>
    rw [(hhandler o).1, logicHandler_eq, (operand_ready o s).1, ready_a, regs_setPenalty, regs_setNZ, regs_setA,
      State.setA_p, readOperand_p, ready_p, regs_readOperand, regs_ready]
  case cycles => rw [handlerOf_cycles (hhandler o).2, ready_cycles, noExtra, Nat.add_zero]

/-- BIT's rule: P alone is written, from A and the operand (R354). -/
theorem bit_rule : ReadRule .bit bitForms always (fun m s => { regs s with p := bitFlags s.a m s.p }) noExtra := by
  refine readRule_of_handler bit_hasForms (fun o t => ?bus) (fun o s _ => ?regs) fun o s _ => ?cycles
  case bus =>
    rw [handlerOf, bitHandler_eq, readOperand_eq]
    exact ⟨rfl, rfl⟩
  case regs =>
    rw [handlerOf, bitHandler_eq, (operand_ready o s).1, ready_a, ready_p, regs_setP, regs_readOperand, regs_ready]
  case cycles => rw [handlerOf_cycles rfl, ready_cycles, noExtra, Nat.add_zero]

/-- Settles O35: three operations of the common logic handler, and BIT. -/
theorem logicFollowsRules : Obligations.LogicFollowsRules := by
  refine ⟨?and, ?ora, ?eor, ?bit⟩
  case and => exact readRule_of_logic (fun a m => a &&& m) and_hasForms fun _ => ⟨rfl, rfl⟩
  case ora => exact readRule_of_logic (fun a m => a ||| m) ora_hasForms fun _ => ⟨rfl, rfl⟩
  case eor => exact readRule_of_logic (fun a m => a ^^^ m) eor_hasForms fun _ => ⟨rfl, rfl⟩
  case bit => simpa only [bitFlags_eq] using bit_rule

/-! ## Read-modify-write (R215, R216, R355) -/

/-- The read-modify-write handler in its resolved state: the result goes to A in accumulator mode, to the byte at the
effective address in any other, and P is written before it. -/
theorem rmwHandler_ready (f : Byte → Flags → AluResult) (o : Operand) (s : State) :
    let r := f (operandByte o s) s.p
    let u := (readOperand o (ready o s)).setP r.p
    rmwHandler f o (ready o s) = if o = .acc then u.setA r.value else busWrite (eaOf o s) r.value u := by
  simp only [rmwHandler_eq, (operand_ready o s).1, ready_p, writeOperand_eq, readOperand_eq, State.setP_scratch,
    State.setBusLog_scratch, State.setScratch_scratch, ready_accMode, decide_eq_true_eq, eaOf]

/-- A rule of a read-modify-write instruction, from its forms and what its operation answers. -/
theorem rmwRule_of_result {mk : Operand → Instr} {forms : List Form} {f : Byte → Flags → AluResult}
    {out : Byte → Flags → Byte × Flags} (hforms : HasForms mk forms)
    (hhandler : ∀ o, handlerOf (mk o) = rmwHandler f o ∧ extraCycles (mk o) = 0 ∧ setsPenalty (mk o) = false)
    (hout : ∀ v p, out v p = ((f v p).value, (f v p).p)) : RmwRule mk forms out := by
  intro w hw o s ho
  obtain ⟨hoperand, hform⟩ := hforms w hw o ho
  obtain ⟨hrmw, hextra, hpenalty⟩ := hhandler o
  obtain ⟨t, hexec, hhost, htook, htregs, htmem, htlog⟩ :=
    exec_form hform (s := s) (k := 0) (by rw [handlerOf_cycles hextra, ready_cycles, Nat.add_zero])
  rw [Nat.add_zero, hform.formCycles_eq hpenalty] at htook
  rw [hoperand, hrmw, rmwHandler_ready] at htregs htmem htlog
  refine ⟨hform.opcode, t, hexec, hhost, htook, ?_⟩
  simp only [hout]
  generalize f (operandByte o s) s.p = r at htregs htmem htlog ⊢
  have huregs : regs ((readOperand o (ready o s)).setP r.p) = { regs s with p := r.p } := by
    rw [regs_setP, regs_readOperand, regs_ready]
  have hulog : ((readOperand o (ready o s)).setP r.p).busLog = readLog o s := readOperand_ready_busLog o s
  split
  case isTrue hacc =>
    rw [if_pos hacc] at htregs htmem htlog
    refine ⟨?regs, sameMemory_of_mem ?mem, ?log⟩
    case regs => rw [htregs, regs_setA, huregs]
    case mem => simpa using htmem
    case log => exact (htlog.trans hulog).trans (by rw [hacc]; rfl)
  case isFalse hmemory =>
    rw [if_neg hmemory] at htregs htmem htlog
    refine ⟨?regs, fun a => ?stored, ?log⟩
    case regs => rw [htregs, ← huregs, busWrite_eq]; rfl
    case stored =>
      rw [State.byteAt, htmem]
      exact stored_busWrite (by simp) (by simp) (eaOf o s) r.value a
    case log => rw [htlog, ← hulog, busWrite_eq]; rfl

/-! ## Shifts and rotates (R356 to R359) -/

theorem asl_hasForms : HasForms .asl aslForms :=
  hasForms_of_tables false (fun _ => ⟨rfl, rfl, rfl⟩) (fun o o' h => by simp only [opcodeOf, h]) (by decide)

theorem lsr_hasForms : HasForms .lsr lsrForms :=
  hasForms_of_tables false (fun _ => ⟨rfl, rfl, rfl⟩) (fun o o' h => by simp only [opcodeOf, h]) (by decide)

theorem rol_hasForms : HasForms .rol rolForms :=
  hasForms_of_tables false (fun _ => ⟨rfl, rfl, rfl⟩) (fun o o' h => by simp only [opcodeOf, h]) (by decide)

theorem ror_hasForms : HasForms .ror rorForms :=
  hasForms_of_tables false (fun _ => ⟨rfl, rfl, rfl⟩) (fun o o' h => by simp only [opcodeOf, h]) (by decide)

/-- C may be written before or after N and Z (R356 to R359). -/
theorem nzFlags_carry (p : Flags) (c : Bool) (v : Byte) : nzFlags { p with c := c } v = { withNZ p v with c := c } := by
  rw [withNZ_eq]
  rfl

/-- Settles O36: each shift is the read-modify-write handler of its operation. -/
theorem shiftsFollowRules : Obligations.ShiftsFollowRules :=
  ⟨rmwRule_of_result asl_hasForms (fun _ => ⟨rfl, rfl, rfl⟩) fun v p => by rw [aslResult_eq, nzFlags_carry],
   rmwRule_of_result lsr_hasForms (fun _ => ⟨rfl, rfl, rfl⟩) fun v p => by rw [lsrResult_eq, nzFlags_carry],
   rmwRule_of_result rol_hasForms (fun _ => ⟨rfl, rfl, rfl⟩) fun v p => by rw [rolResult_eq, nzFlags_carry],
   rmwRule_of_result ror_hasForms (fun _ => ⟨rfl, rfl, rfl⟩) fun v p => by rw [rorResult_eq, nzFlags_carry]⟩

/-! ## Increments and decrements (R360 to R365) -/

theorem inc_hasForms : HasForms .inc incForms :=
  hasForms_of_tables false (fun _ => ⟨rfl, rfl, rfl⟩) (fun o o' h => by simp only [opcodeOf, h]) (by decide)

theorem dec_hasForms : HasForms .dec decForms :=
  hasForms_of_tables false (fun _ => ⟨rfl, rfl, rfl⟩) (fun o o' h => by simp only [opcodeOf, h]) (by decide)

/-- Settles O37: both are the read-modify-write handler of an operation that writes N and Z alone. -/
theorem incDecFollowRules : Obligations.IncDecFollowRules :=
  ⟨rmwRule_of_result inc_hasForms (fun _ => ⟨rfl, rfl, rfl⟩) fun v p => by rw [incResult_eq, ← withNZ_eq],
   rmwRule_of_result dec_hasForms (fun _ => ⟨rfl, rfl, rfl⟩) fun v p => by rw [decResult_eq, ← withNZ_eq]⟩

theorem byte_add_one (v : Byte) : v + 1 = BitVec.ofNat 8 (v.toNat + 1) := by bv_omega

theorem byte_sub_one (v : Byte) : v - 1 = BitVec.ofNat 8 (v.toNat + 255) := by bv_omega

/-- Settles O38: each handler writes one index register, one up or down modulo 256, and N and Z of it. -/
theorem indexStepsFollowRules : Obligations.IndexStepsFollowRules := by
  simp only [Obligations.IndexStepsFollowRules, ← byte_add_one, ← byte_sub_one]
  refine ⟨?inx, ?iny, ?dex, ?dey⟩
  case inx | iny | dex | dey =>
    exact impliedRule_of_handler ⟨rfl, rfl, rfl⟩ ⟨rfl, rfl, rfl⟩ (fun _ => ⟨rfl, rfl⟩) fun _ => regs_setNZ _ _

end Sys2Proof.Machine
end

section
/-! SUPPORT AND PROOF. Control transfer (O39 to O42). No handler here sets `op_penalty`, and JMP indirect has base cycles
of its own on each variant, so `exec_without_penalty` ends the instruction with the variant's base cycles and what its
handler adds. A branch rule is then the page test as a number; JSR and RTS are two pushes and two pulls, and the round
trip follows from their rules alone: the two slots that RTS reads are those that JSR stored. -/

namespace Sys2Proof.Machine

open Sys2Proof.Claims

/-! ## From the handler to the instruction (R503 to R511) -/

/-- An instruction whose handler leaves `op_penalty` completes as its handler left it, with the variant's base cycles and
the `k` that the handler adds by itself. -/
theorem exec_without_penalty {i : Instr} {opcode : Byte} {s : State} {k : Nat}
    (hinstr : documented i = true ∧ opcodeOf i = some opcode ∧ setsPenalty i = false)
    (hk : (handlerOf i (ready i.operand s)).cycles = s.cycles + k) :
    ∃ t, exec i s = .next t ∧ SameHost s t ∧ Took (baseCycles s.cfg.variant opcode + k) s t ∧
      let u := handlerOf i (ready i.operand s)
      regs t = regs u ∧ t.mem = u.mem ∧ t.busLog = u.busLog := by
  obtain ⟨hdoc, hopcode, hpenalty⟩ := hinstr
  let u := handlerOf i (ready i.operand s)
  let base := baseCycles s.cfg.variant opcode
  have keeps := (((Keeps.refl s).ready i.operand).handlerOf i).account s.cycles base
  have hexec : exec i s = .next (account s.cycles base u) := (exec_documented hdoc s).trans (perform_eq hopcode _ s)
  refine ⟨_, hexec, ⟨keeps.nmi, keeps.irq, keeps.hook, keeps.seq, keeps.cfg⟩, ?took, rfl, rfl, rfl⟩
  obtain ⟨n, hlast, hcycles, hinstructions⟩ | ⟨op, rfl, -⟩ := exec_counters hexec
  · have hnone : penaltyCycles u = 0 := by
      rw [handlerOf_penalty i (ready_opPenalty _ s), hpenalty, Bool.and_false]
      rfl
    have hcharged : (account s.cycles base u).cycles = s.cycles + k + base + 0 := by
      rw [(account_counters s.cycles base u).1, hnone, hk]
    obtain rfl : n = base + k := by omega
    exact ⟨hcycles, hinstructions, hlast⟩
  · cases hdoc

/-- Jumps, calls and returns add no cycles to the variant's base cycles. -/
theorem exec_jump {i : Instr} {opcode : Byte} (s : State)
    (hinstr : documented i = true ∧ opcodeOf i = some opcode ∧ setsPenalty i = false) (hextra : extraCycles i = 0) :
    ∃ t, exec i s = .next t ∧ SameHost s t ∧ Took (baseCycles s.cfg.variant opcode) s t ∧
      let u := handlerOf i (ready i.operand s)
      regs t = regs u ∧ t.mem = u.mem ∧ t.busLog = u.busLog :=
  exec_without_penalty (k := 0) hinstr (by rw [handlerOf_cycles hextra, ready_cycles, Nat.add_zero])

/-! ## Branches (R400 to R408) -/

theorem pagesDiffer_eq (u v : Addr) : pagesDiffer u v = decide (u.toNat / 256 ≠ v.toNat / 256) := by
  rw [pagesDiffer, Bool.eq_iff_iff, bne_iff_ne, decide_eq_true_iff, ne_eq, ← BitVec.toNat_inj, hiByte_toNat,
    hiByte_toNat]

/-- A taken branch in its resolved state: PC and the cycles, the page test against the address after the branch. -/
theorem branchHandler_taken {cond : Flags → Bool} {s : State} (h : cond s.p = true) (rel : Byte) :
    let target := BitVec.ofInt 16 (s.pc.toNat + rel.toInt)
    branchHandler cond (ready (.rel rel) s) =
      ((ready (.rel rel) s).setCycles
        (s.cycles + (1 + if target.toNat / 256 ≠ s.pc.toNat / 256 then 1 else 0))).setPc target := by
  have hbranch := branchHandler_eq cond (ready (.rel rel) s)
  have htarget : branchTarget s.pc (ready (.rel rel) s).scratch.rel = BitVec.ofInt 16 (s.pc.toNat + rel.toInt) := rfl
  rw [ready_p, if_pos h, pagesDiffer_eq, ready_pc, ready_cycles, Nat.add_assoc, htarget] at hbranch
  simpa only [decide_eq_true_eq] using hbranch

theorem branchHandler_not_taken {cond : Flags → Bool} {s : State} (h : cond s.p = false) (rel : Byte) :
    branchHandler cond (ready (.rel rel) s) = ready (.rel rel) s := by
  rw [branchHandler_eq, ready_p, h]
  rfl

/-- A branch's rule, from its opcode and the test that its handler makes of P. -/
theorem branchRule_of_test {mk : Byte → Instr} {opcode : Byte} {test : Flags → Bool} {cond : Flags → Prop}
    (hinstr : ∀ rel, documented (mk rel) = true ∧ opcodeOf (mk rel) = some opcode ∧ setsPenalty (mk rel) = false)
    (hbranch : ∀ rel, (mk rel).operand = .rel rel ∧ handlerOf (mk rel) = branchHandler test)
    (hcycles : baseCycles .nmos opcode = 2 ∧ baseCycles .cmos opcode = 2) (htest : ∀ p, cond p ↔ test p = true) :
    BranchRule mk opcode cond := by
  intro rel s
  obtain ⟨-, hopcode, -⟩ := hinstr rel
  obtain ⟨hoperand, hhandler⟩ := hbranch rel
  obtain ⟨hnmos, hcmos⟩ := hcycles
  have hbase : baseCycles s.cfg.variant opcode = 2 := baseCycles_of_variants hnmos hcmos _
  have run {k : Nat} := exec_without_penalty (s := s) (k := k) (hinstr rel)
  rw [hoperand, hhandler, hbase] at run
  refine ⟨hopcode, ?_⟩
  cases h : test s.p with
  | false =>
    have hnot : ¬ cond s.p := by rw [htest, h]; decide
    rw [branchHandler_not_taken h] at run
    obtain ⟨t, hexec, hhost, htook, hregs, hmem, hlog⟩ := run (k := 0) (ready_cycles _ s)
    exact ⟨t, hexec, hhost, sameMemory_of_mem (hmem.trans (ready_mem _ s)), hlog,
      fun _ => ⟨hregs.trans (regs_ready _ s), htook⟩, fun hc => absurd hc hnot⟩
  | true =>
    rw [branchHandler_taken h] at run
    obtain ⟨t, hexec, hhost, htook, hregs, hmem, hlog⟩ := run rfl
    have hpc : t.pc = BitVec.ofInt 16 (s.pc.toNat + rel.toInt) := congrArg Regs.pc hregs
    rw [← hpc] at htook
    refine ⟨t, hexec, hhost, sameMemory_of_mem (hmem.trans (ready_mem _ s)), hlog,
      fun hc => absurd ((htest _).mpr h) hc, fun _ => ⟨?regs, fun hsame => ?within, fun hdiffer => ?across⟩⟩
    case regs => rw [hregs, ← regs_ready (.rel rel) s]; rfl
    case within => rwa [if_neg (not_not_intro hsame)] at htook
    case across => rwa [if_pos hdiffer] at htook

/-- Settles O39: each branch is the common one, on a flag or its complement. -/
theorem branchesFollowRules : Obligations.BranchesFollowRules := by
  refine ⟨?bpl, ?bmi, ?bvc, ?bvs, ?bcc, ?bcs, ?bne, ?beq⟩
  case bpl | bvc | bcc | bne =>
    exact branchRule_of_test (fun _ => ⟨rfl, rfl, rfl⟩) (fun _ => ⟨rfl, rfl⟩) ⟨rfl, rfl⟩ fun _ =>
      (Bool.not_eq_true' _).symm.to_iff
  case bmi | bvs | bcs | beq =>
    exact branchRule_of_test (fun _ => ⟨rfl, rfl, rfl⟩) (fun _ => ⟨rfl, rfl⟩) ⟨rfl, rfl⟩ fun _ => Iff.rfl

/-! ## JMP (R211, R410, R411) -/

/-- Where the pointer's high byte is read, from the pointer as a number (R211). -/
theorem indirectHigh_eq (variant : Variant) (w : Addr) :
    indirectHigh variant w = match variant with
      | .nmos => BitVec.ofNat 16 (w.toNat / 256 * 256 + (w.toNat + 1) % 256)
      | .cmos => BitVec.ofNat 16 (w.toNat + 1) := by
  have hnmos := indirectHigh_nmos (hiByte w) (loByte w)
  have hcmos := indirectHigh_cmos (hiByte w) (loByte w)
  rw [mkAddr_hiByte_loByte, hiByte_toNat, loByte_toNat] at hnmos hcmos
  cases variant with
  | nmos => rw [hnmos, Nat.mod_add_mod]
  | cmos => rw [hcmos, Nat.div_add_mod']

/-- Settles O40: PC takes the resolver's `ea`, in indirect mode the word that the resolver's two reads give. -/
theorem jumpsFollowRules : Obligations.JumpsFollowRules := by
  refine ⟨fun w => ⟨rfl, rfl⟩, fun w s => ?absolute, fun w s => ?indirect⟩
  case absolute =>
    obtain ⟨t, hexec, hhost, htook, hregs, hmem, hlog⟩ := exec_jump (i := .jmpAbs w) s ⟨rfl, rfl, rfl⟩ rfl
    rw [baseCycles_of_variants rfl rfl] at htook
    exact ⟨t, hexec, hregs, hhost, sameMemory_of_mem hmem, hlog, htook⟩
  case indirect =>
    obtain ⟨t, hexec, hhost, htook, hregs, hmem, hlog⟩ := exec_jump (i := .jmpInd w) s ⟨rfl, rfl, rfl⟩ rfl
    intro hiAt r
    have hread : read16 w (indirectHigh s.cfg.variant w) s = r :=
      congrArg (fun hi => read16 w hi s) (indirectHigh_eq s.cfg.variant w)
    rw [← hread]
    exact ⟨t, hexec, hregs, hhost, sameMemory_of_mem hmem, hlog, htook⟩

/-! ## JSR and RTS (R412, R413) -/

/-- A further push, to a slot that none of the earlier writes used, stores its byte beside theirs. -/
theorem stored_push {writes : List (Addr × Byte)} {s u : State} (h : Stored writes s u)
    (hio : ∀ b, u.isIo b = s.isIo b) (hslot : ∀ w ∈ writes, w.1 ≠ stackAddr u.sp) (v : Byte) :
    Stored (writes ++ [(stackAddr u.sp, v)]) s (push v u) := by
  intro b
  have hearlier := h b
  rw [push_byteAt, hio, List.find?_append]
  by_cases hb : b = stackAddr u.sp
  · have hnone : writes.find? (fun w => w.1 == b) = none := by simpa [hb] using hslot
    rw [hnone] at hearlier ⊢
    subst hb
    cases s.isIo (stackAddr u.sp) <;> simp [hearlier]
  · simp [hb, Ne.symm hb, hearlier]

theorem stackAddr_ne_below (sp : Byte) : stackAddr sp ≠ stackAddr (sp - 1) := by
  rw [ne_eq, stackAddr_inj]
  bv_omega

/-- A pushed word, high byte first, lies in the slots at S and S - 1; `u` has the memory that `s` has. -/
theorem stored_push16 {s u : State} (hio : ∀ b, u.isIo b = s.isIo b) (hbyte : ∀ b, u.byteAt b = s.byteAt b)
    (v : Addr) :
    Stored [(stackAddr u.sp, hiByte v), (stackAddr (u.sp - 1), loByte v)] s (push16 v u) := by
  have hhigh : Stored [(stackAddr u.sp, hiByte v)] s (push (hiByte v) u) :=
    stored_push (writes := []) hbyte hio (fun _ hw => absurd hw List.not_mem_nil) (hiByte v)
  exact stored_push hhigh (fun b => (push_isIo ..).trans (hio b))
    (List.forall_mem_singleton.mpr (stackAddr_ne_below u.sp)) (loByte v)

/-- The address after a pulled one, modulo 2^16 (R413). -/
theorem mkAddr_add_one (hi lo : Byte) : mkAddr hi lo + 1 = BitVec.ofNat 16 (hi.toNat * 256 + lo.toNat + 1) := by
  rw [BitVec.ofNat_add, mkAddr_eq]
  rfl

/-- Settles O41: two pushes of PC - 1, two pulls to the address after. -/
theorem subroutinesFollowRules : Obligations.SubroutinesFollowRules := by
  refine ⟨fun w s => ⟨rfl, ?jsr⟩, rfl, fun s => ?rts⟩
  case jsr =>
    obtain ⟨t, hexec, hhost, htook, hregs, hmem, hlog⟩ := exec_jump (i := .jsr w) s ⟨rfl, rfl, rfl⟩ rfl
    rw [baseCycles_of_variants rfl rfl] at htook
    simp only [handlerOf, push16_eq] at hregs hlog
    refine ⟨t, hexec, hregs, hhost, fun b => ?stored, hlog, htook⟩
    rw [State.byteAt, hmem, ← ready_sp (.abs w) s]
    exact stored_push16 (ready_isIo _ s) (ready_byteAt _ s) (s.pc - 1) b
  case rts =>
    obtain ⟨t, hexec, hhost, htook, hregs, hmem, hlog⟩ := exec_jump (i := .rts) s ⟨rfl, rfl, rfl⟩ rfl
    rw [baseCycles_of_variants rfl rfl] at htook
    simp only [handlerOf, rtsHandler_eq, mkAddr_add_one] at hregs hmem hlog
    exact ⟨t, hexec, hregs, hhost, sameMemory_of_mem hmem, hlog, htook⟩

/-- Settles O42: RTS reads the two slots that JSR stored, and one more than PC - 1 is PC. -/
theorem callThenReturn : Obligations.CallThenReturn := by
  intro w s hmem
  obtain ⟨hjsr, -, hrts⟩ := subroutinesFollowRules
  obtain ⟨-, t, hcall, htregs, ⟨-, -, -, -, hcfg⟩, hstored, -⟩ := hjsr w s
  obtain ⟨u, hreturn, huregs, -⟩ := hrts t
  have htsp : t.sp = s.sp - 2 := congrArg Regs.sp htregs
  have htmem : stackIsMemory t := fun sp => by rw [State.isIo, hcfg]; exact hmem sp
  have hlow : t.byteAt (stackAddr (t.sp + 1)) = loByte (s.pc - 1) := by
    have hslot : t.sp + 1 = s.sp - 1 := by rw [htsp]; ring
    rw [hslot, hstored, List.find?_cons_of_neg (by simpa using stackAddr_ne_below s.sp)]
    simp [hmem _]
  have hhigh : t.byteAt (stackAddr (t.sp + 2)) = hiByte (s.pc - 1) := by
    rw [htsp, BitVec.sub_add_cancel, hstored]
    simp [hmem _]
  refine ⟨t, u, hcall, congrArg Regs.pc htregs, hreturn, ?pc, ?sp⟩
  case pc =>
    let lo := busRead (stackAddr (t.sp + 1)) t
    let hi := busRead (stackAddr (t.sp + 2)) lo.2
    have hlo : lo.1 = loByte (s.pc - 1) := (answer_of_memory (htmem _)).trans hlow
    have hhi : hi.1 = hiByte (s.pc - 1) := (answer_of_memory (s := lo.2) (htmem _)).trans hhigh
    calc u.pc = mkAddr hi.1 lo.1 + 1 := (congrArg Regs.pc huregs).trans (mkAddr_add_one _ _).symm
      _ = s.pc := by rw [hlo, hhi, mkAddr_hiByte_loByte, BitVec.sub_add_cancel]
  case sp => rw [show u.sp = t.sp + 2 from congrArg Regs.sp huregs, htsp, BitVec.sub_add_cancel]

end Sys2Proof.Machine
end

section
/-! SUPPORT AND PROOF. The stack, flag and system instructions (O43 to O46) and an illegal opcode run as a NOP (O48).
The documented ones are in implied mode, so the handler runs in the fetched state, its scratch cleared (`exec_implied`).
What an instruction that pushes or pulls one byte does is said once (`PushRule`, `PullRule`), and the flag round trips are
two uses of "the next pull reads the byte just pushed". The exception entry's facts are stated for any break bit and
vector. -/

namespace Sys2Proof.Machine

open Sys2Proof.Claims

/-! ## From the handler to the instruction (R503 to R511) -/

/-- An instruction in implied mode that adds no cycles and sets no penalty completes as its handler left the fetched
state, in the cycles that both variants charge. -/
theorem exec_implied {i : Instr} {opcode : Byte} {cycles : Nat}
    (hinstr : documented i = true ∧ i.operand = .imp ∧ setsPenalty i = false ∧ extraCycles i = 0)
    (htables : opcodeOf i = some opcode ∧ baseCycles .nmos opcode = cycles ∧ baseCycles .cmos opcode = cycles)
    (s : State) :
    ∃ t, exec i s = .next t ∧ SameHost s t ∧ Took cycles s t ∧
      let u := handlerOf i s.clearScratch
      regs t = regs u ∧ t.mem = u.mem ∧ t.busLog = u.busLog := by
  obtain ⟨hdoc, hoperand, hpenalty, hextra⟩ := hinstr
  obtain ⟨hopcode, hnmos, hcmos⟩ := htables
  obtain ⟨t, hexec, hhost, htook, heffect⟩ := exec_jump s ⟨hdoc, hopcode, hpenalty⟩ hextra
  rw [baseCycles_of_variants hnmos hcmos] at htook
  rw [hoperand] at heffect
  exact ⟨t, hexec, hhost, htook, heffect⟩

/-- Which bytes are stored is a matter of the final memory alone. -/
theorem stored_of_mem {writes : List (Addr × Byte)} {s t u : State} (h : Stored writes s u) (hmem : t.mem = u.mem) :
    Stored writes s t := fun b => by
  rw [State.byteAt, hmem]
  exact h b

/-! ## One byte pushed, one byte pulled (R120, R121, R451 to R454) -/

/-- A rule of an instruction that pushes one byte and changes no other register than S. -/
def PushRule (i : Instr) (opcode : Byte) (value : State → Byte) : Prop :=
  opcodeOf i = some opcode ∧
  ∀ s : State, ∃ t, exec i s = .next t ∧ regs t = { regs s with sp := s.sp - 1 } ∧ SameHost s t ∧
    Stored [(stackAddr s.sp, value s)] s t ∧ t.busLog = .write (stackAddr s.sp) (value s) :: s.busLog ∧ Took 3 s t

/-- A rule of an instruction that pulls one byte; `load` is what the byte does to the registers, S already raised. -/
def PullRule (i : Instr) (opcode : Byte) (load : Byte → Regs → Regs) : Prop :=
  opcodeOf i = some opcode ∧
  ∀ s : State,
    let r := busRead (stackAddr (s.sp + 1)) s
    ∃ t, exec i s = .next t ∧ regs t = load r.1 { regs s with sp := s.sp + 1 } ∧ SameHost s t ∧ SameMemory s t ∧
      t.busLog = r.2.busLog ∧ Took 4 s t

theorem pushRule_of_handler {i : Instr} {opcode : Byte} {value : State → Byte}
    (hinstr : documented i = true ∧ i.operand = .imp ∧ setsPenalty i = false ∧ extraCycles i = 0)
    (htables : opcodeOf i = some opcode ∧ baseCycles .nmos opcode = 3 ∧ baseCycles .cmos opcode = 3)
    (hhandler : ∀ s, handlerOf i s.clearScratch = push (value s) s.clearScratch) : PushRule i opcode value := by
  refine ⟨htables.1, fun s => ?_⟩
  obtain ⟨t, hexec, hhost, htook, hregs, hmem, hlog⟩ := exec_implied hinstr htables s
  rw [hhandler] at hregs hmem hlog
  refine ⟨t, hexec, ?regs, hhost, stored_of_mem (stored_busWrite ?io ?byte _ _) hmem, ?log, htook⟩
  case regs => rw [hregs, push_eq]; rfl
  case log => rw [hlog, push_eq]; rfl
  case io | byte => exact fun _ => rfl

theorem pullRule_of_handler {i : Instr} {opcode : Byte} {load : Byte → Regs → Regs}
    (hinstr : documented i = true ∧ i.operand = .imp ∧ setsPenalty i = false ∧ extraCycles i = 0)
    (htables : opcodeOf i = some opcode ∧ baseCycles .nmos opcode = 4 ∧ baseCycles .cmos opcode = 4)
    (hregs : ∀ s, regs (handlerOf i s) = load (pull s).1 (regs (pull s).2))
    (hbus : ∀ s, (handlerOf i s).mem = (pull s).2.mem ∧ (handlerOf i s).busLog = (pull s).2.busLog) :
    PullRule i opcode load := by
  refine ⟨htables.1, fun s => ?_⟩
  obtain ⟨t, hexec, hhost, htook, htregs, htmem, htlog⟩ := exec_implied hinstr htables s
  obtain ⟨hmem, hlog⟩ := hbus s.clearScratch
  exact ⟨t, hexec, htregs.trans (hregs _), hhost, sameMemory_of_mem (htmem.trans hmem), htlog.trans hlog, htook⟩

theorem pha_rule : PushRule .pha 0x48 State.a :=
  pushRule_of_handler ⟨rfl, rfl, rfl, rfl⟩ ⟨rfl, rfl, rfl⟩ fun _ => rfl

theorem php_rule : PushRule .php 0x08 (fun s => pImage true s.p) :=
  pushRule_of_handler ⟨rfl, rfl, rfl, rfl⟩ ⟨rfl, rfl, rfl⟩ fun _ => rfl

theorem pla_rule : PullRule .pla 0x68 (fun v r => { r with a := v, p := withNZ r.p v }) :=
  pullRule_of_handler ⟨rfl, rfl, rfl, rfl⟩ ⟨rfl, rfl, rfl⟩ (fun _ => regs_setNZ _ _) fun _ => ⟨rfl, rfl⟩

theorem plp_rule : PullRule .plp 0x28 (fun v r => { r with p := loadP v }) :=
  pullRule_of_handler ⟨rfl, rfl, rfl, rfl⟩ ⟨rfl, rfl, rfl⟩ (fun _ => rfl) fun _ => ⟨rfl, rfl⟩

/-- Settles O43: two pushes of one byte and two pulls of one. -/
theorem stackOpsFollowRules : Obligations.StackOpsFollowRules := by
  obtain ⟨hpha, pha⟩ := pha_rule
  obtain ⟨hphp, php⟩ := php_rule
  obtain ⟨hpla, pla⟩ := pla_rule
  obtain ⟨hplp, plp⟩ := plp_rule
  exact ⟨hpha, hphp, hpla, hplp, fun s => ⟨pha s, php s, pla s, plp s⟩⟩

/-! ## Flags and NOP (R455 to R462) -/

/-- Settles O44: each handler writes one flag, NOP's nothing. -/
theorem flagOpsFollowRules : Obligations.FlagOpsFollowRules := by
  refine ⟨?clc, ?sec, ?cli, ?sei, ?cld, ?sed, ?clv, ?nop⟩
  case clc | sec | cli | sei | cld | sed | clv | nop =>
    exact impliedRule_of_handler ⟨rfl, rfl, rfl⟩ ⟨rfl, rfl, rfl⟩ (fun _ => ⟨rfl, rfl⟩) fun _ => rfl

/-! ## Any byte through P (R465) -/

/-- A pull straight after a push reads the byte just pushed, where its slot is memory: the pull's load acts on the
registers from before the push, S among them. -/
theorem push_then_pull {i j : Instr} {opcode opcode' : Byte} {value : State → Byte} {load : Byte → Regs → Regs}
    (hpush : PushRule i opcode value) (hpull : PullRule j opcode' load) {s : State}
    (hio : s.isIo (stackAddr s.sp) = false) :
    ∃ t u, exec i s = .next t ∧ exec j t = .next u ∧ regs u = load (value s) (regs s) ∧ u.cfg = s.cfg := by
  obtain ⟨-, hpush⟩ := hpush
  obtain ⟨-, hpull⟩ := hpull
  obtain ⟨t, hexec, hregs, ⟨-, -, -, -, hcfg⟩, hstored, -⟩ := hpush s
  obtain ⟨u, hexec', hregs', ⟨-, -, -, -, hcfg'⟩, -⟩ := hpull t
  have hslot : t.sp + 1 = s.sp := by
    rw [show t.sp = s.sp - 1 from congrArg Regs.sp hregs, BitVec.sub_add_cancel]
  have htio : t.isIo (stackAddr s.sp) = false := by rw [State.isIo, hcfg]; exact hio
  have hread : (busRead (stackAddr s.sp) t).1 = value s := by
    rw [busRead_eq, answer_of_memory htio, hstored]
    simp [hio]
  refine ⟨t, u, hexec, hexec', ?_, hcfg'.trans hcfg⟩
  rw [hregs', hslot, hread, hregs]
  rfl

/-- The image of a loaded byte with B set is that byte with bits 5 and 4 set (R57, R58). -/
theorem pImage_true_loadP (v : Byte) : pImage true (loadP v) = v ||| 0x30 := by
  revert v
  decide

/-- N and Z of a byte with bits 5 and 4 set: N stays the byte's bit 7, and the byte is not 0. -/
theorem withNZ_or_unused (v : Byte) : withNZ (loadP v) (v ||| 0x30) = { loadP v with z := false } := by
  revert v
  decide

/-- Settles O45: each round trip is a push and the pull of the same slot. -/
theorem flagRoundTrip : Obligations.FlagRoundTrip := by
  intro s hio
  refine ⟨?throughP, ?image⟩
  case throughP =>
    obtain ⟨t, u, hpha, hplp, huregs, hcfg⟩ := push_then_pull pha_rule plp_rule hio
    have hup : u.p = loadP s.a := congrArg Regs.p huregs
    have husp : u.sp = s.sp := congrArg Regs.sp huregs
    have huio : u.isIo (stackAddr u.sp) = false := by rw [State.isIo, hcfg, husp]; exact hio
    obtain ⟨v, w, hphp, hpla, hwregs, -⟩ := push_then_pull php_rule pla_rule huio
    rw [hup, pImage_true_loadP] at hwregs
    have hwp : w.p = withNZ u.p (s.a ||| 0x30) := congrArg Regs.p hwregs
    rw [hup, withNZ_or_unused] at hwp
    exact ⟨t, u, v, w, hpha, hplp, hphp, hpla, hup, congrArg Regs.a hwregs, hwp,
      (congrArg Regs.sp hwregs).trans husp⟩
  case image =>
    obtain ⟨t, u, hphp, hplp, huregs, -⟩ := push_then_pull php_rule plp_rule hio
    exact ⟨t, u, hphp, hplp, (congrArg Regs.p huregs).trans (loadP_pImage true s.p), congrArg Regs.sp huregs⟩

/-! ## Exception entry (R463, R610) -/

/-- The three pushes of an entry fill the slots at S, S - 1 and S - 2; `u` has the memory that `s` has. -/
theorem stored_afterPushes {s u : State} (hio : ∀ b, u.isIo b = s.isIo b) (hbyte : ∀ b, u.byteAt b = s.byteAt b)
    (b : Bool) (pc : Addr) : Stored (entryBytes b pc u) s (afterPushes b pc u) := by
  have hword := stored_push16 hio hbyte pc
  have hsp : (push16 pc u).sp = u.sp - 2 := by rw [push16_eq, State.setSp_sp]
  have hslots : ∀ w ∈ [(stackAddr u.sp, hiByte pc), (stackAddr (u.sp - 1), loByte pc)],
      w.1 ≠ stackAddr (push16 pc u).sp := by
    refine List.forall_mem_cons.mpr ⟨?_, List.forall_mem_singleton.mpr ?_⟩ <;>
      rw [hsp, ne_eq, stackAddr_inj] <;> bv_omega
  have hflags := stored_push hword (fun a => ((push_isIo ..).trans (push_isIo ..)).trans (hio a)) hslots (pImage b u.p)
  rwa [hsp] at hflags

/-- The reads of a vector after an entry's pushes do not look at the scratch or, the pushed PC being given, at PC. -/
theorem read16_afterPushes_congr {s u : State} {scratch : Scratch} {v : Addr} (hu : u = (s.setScratch scratch).setPc v)
    (b : Bool) (pc lo hi : Addr) :
    (read16 lo hi (afterPushes b pc u)).1 = (read16 lo hi (afterPushes b pc s)).1 ∧
      (read16 lo hi (afterPushes b pc u)).2.busLog = (read16 lo hi (afterPushes b pc s)).2.busLog := by
  have hpushes : afterPushes b pc u = ((afterPushes b pc s).setScratch scratch).setPc v := by
    simp only [hu, afterPushes, push16_eq, push_eq]
    rfl
  rw [hpushes]
  generalize afterPushes b pc s = w
  exact ⟨rfl, rfl⟩

/-- An entry loads PC by the two reads of its vector after the pushes, and writes S and P besides. -/
theorem enterException_rule (b : Bool) (vec : Addr) (s : State) :
    let r := read16 vec (vec + 1) (afterPushes b s.pc s)
    let t := enterException b vec s
    regs t = { regs s with sp := s.sp - 3, pc := r.1, p := entryFlags s } ∧
      t.mem = (afterPushes b s.pc s).mem ∧ t.busLog = r.2.busLog := by
  have hregs : regs (afterPushes b s.pc s) = { regs s with sp := s.sp - 3 } := by
    rw [afterPushes, entryPushes_eq]
    rfl
  have hentry := enterException_eq b vec s
  rw [← afterPushes] at hentry
  generalize afterPushes b s.pc s = u at hregs hentry ⊢
  rw [hentry]
  refine ⟨?regs, rfl, rfl⟩
  change { regs u with pc := (read16 vec (vec + 1) u).1, p := entryFlags s } = _
  rw [hregs]

/-- Settles O46: BRK is the entry with B set, PC past the byte after the opcode; RTI is three pulls. -/
theorem brkAndRtiFollowRules : Obligations.BrkAndRtiFollowRules := by
  refine ⟨rfl, rfl, fun s => ?brk, fun s => ?rti⟩
  case brk =>
    obtain ⟨t, hexec, hhost, htook, hregs, hmem, hlog⟩ :=
      exec_implied (i := .brk) ⟨rfl, rfl, rfl, rfl⟩ ⟨rfl, rfl, rfl⟩ s
    let u := s.clearScratch.setPc (s.pc + 1)
    obtain ⟨huregs, humem, hulog⟩ := enterException_rule true 0xFFFE u
    obtain ⟨hword, hread⟩ := read16_afterPushes_congr (s := s) (u := u) rfl true u.pc 0xFFFE (0xFFFE + 1)
    rw [hword] at huregs
    rw [hread] at hulog
    have hstored : Stored (entryBytes true (s.pc + 1) s) s (afterPushes true u.pc u) :=
      stored_afterPushes (fun _ => rfl) (fun _ => rfl) true (s.pc + 1)
    exact ⟨t, hexec, hregs.trans huregs, hhost, stored_of_mem hstored (hmem.trans humem), hlog.trans hulog, htook⟩
  case rti =>
    obtain ⟨t, hexec, hhost, htook, hregs, hmem, hlog⟩ :=
      exec_implied (i := .rti) ⟨rfl, rfl, rfl, rfl⟩ ⟨rfl, rfl, rfl⟩ s
    simp only [handlerOf, returnFromException_eq, mkAddr_eq] at hregs hmem hlog
    exact ⟨t, hexec, hregs, hhost, sameMemory_of_mem hmem, hlog, htook⟩

/-! ## An illegal opcode as a NOP (R467, R510, R622) -/

/-- An illegal opcode under Nop with a shape is no error: it runs as that shape's NOP (R502). -/
theorem exec_illegal_nop {op : Byte} {s : State} {sh : Shape} (hillegal : isIllegalOpcode op = true)
    (hpolicy : s.cfg.illegalPolicy = some .nop) (hshape : shapeOf s.cfg op = some sh) :
    exec (.illegal op) s = .next (performNop sh s) := by
  simp only [exec, execIllegal, opcodeOf, hillegal, if_true, hpolicy, illegalAction, hshape]

/-- The accounting charges the base cycles and the penalty to a state whose counters stand as before. -/
theorem took_account {s u : State} (hcycles : u.cycles = s.cycles) (hinstructions : u.instructions = s.instructions)
    (base : Nat) : Took (base + penaltyCycles u) s (account s.cycles base u) := by
  obtain ⟨hc, hi, hl⟩ := account_counters s.cycles base u
  rw [hcycles, Nat.add_assoc] at hc hl
  rw [hinstructions] at hi
  rw [Nat.add_sub_cancel_left] at hl
  exact ⟨hc, hi, hl⟩

/-- Settles O48: the shape's resolver runs on the cleared scratch, and only PC, the record and the counters change. -/
theorem illegalOpcodeRunsAsNop : Obligations.IllegalOpcodeRunsAsNop := by
  intro op s sh hillegal hpolicy hshape r
  have keeps := (Keeps.refl s).performNop sh
  refine ⟨_, exec_illegal_nop hillegal hpolicy hshape, ?regs,
    ⟨keeps.nmi, keeps.irq, keeps.hook, keeps.seq, keeps.cfg⟩, sameMemory_of_mem ?mem, rfl, ?took⟩
  case regs => simp [regs, performNop, fetchAndResolve_pc]
  case mem => exact fetchAndResolve_mem sh.mode s.clearScratch
  case took =>
    have htook := took_account (s := s) (u := r.setPenalty sh.eligible) (fetchAndResolve_cycles ..)
      (fetchAndResolve_instructions ..) sh.base
    rw [Bool.and_comm]
    exact htook

end Sys2Proof.Machine
end

section
/-! SUPPORT AND PROOF. Dispatch (O4, O23) and the illegal opcodes that raise (O47, O49). The driver's fetch is one to
three bus reads in order, and writing the scratch `opcode` or PC between two of them does not matter to the next; that is
both statements about dispatch. A raise leaves everything that decides what the next step does, so `IllegalAt`, the
hypotheses of O49, hold again after the step. -/

namespace Sys2Proof.Machine

open Sys2Proof.Claims

/-! ## The fetch as bus reads (R501, R503) -/

/-- A fetch does not look at the scratch. -/
theorem fetch_setOpcode (op : Byte) (s : State) :
    fetch (s.setOpcode op) = ((fetch s).1, (fetch s).2.setOpcode op) := rfl

/-- Two fetches are two bus reads at neighbouring addresses, and then PC is written. -/
theorem fetch_fetch (s : State) :
    fetch (fetch s).2 =
      ((busRead (s.pc + 1) (busRead s.pc s).2).1, (busRead (s.pc + 1) (busRead s.pc s).2).2.setPc (s.pc + 2)) := by
  have hpc : s.pc + 2 = s.pc + 1 + 1 := by ring
  rw [hpc]
  rfl

theorem fetch_fetch_fetch (s : State) :
    fetch (fetch (fetch s).2).2 =
      ((busRead (s.pc + 2) (busRead (s.pc + 1) (busRead s.pc s).2).2).1,
       (busRead (s.pc + 2) (busRead (s.pc + 1) (busRead s.pc s).2).2).2.setPc (s.pc + 3)) := by
  have hpc : s.pc + 3 = s.pc + 2 + 1 := by ring
  rw [fetch_fetch s, hpc]
  rfl

/-- The three bytes at PC, as three reads answer them, decode to what the driver's fetch decodes to; the driver makes
only the first `length` of the reads (R501, R502). -/
theorem fetchInstr_of_decode {s : State} {i : Instr} {rest : List Byte} :
    let r0 := busRead s.pc s
    let r1 := busRead (s.pc + 1) r0.2
    let r2 := busRead (s.pc + 2) r1.2
    decode [r0.1, r1.1, r2.1] = .ok (i, rest) →
    let after := if i.length = 1 then r0.2 else if i.length = 2 then r1.2 else r2.2
    fetchInstr s = (i, (after.setPc (s.pc + BitVec.ofNat 16 i.length)).setOpcode r0.1) := by
  intro r0 r1 r2 hdecode after
  have hop : r0.1 = s.answer s.pc := rfl
  simp only [decode, hop] at hdecode
  obtain ⟨hcount, hfetch⟩ | ⟨hcount, hfetch⟩ | ⟨hcount, hfetch⟩ := fetchInstr_cases s
  case inl =>
    simp only [hcount, Except.ok.injEq, Prod.mk.injEq] at hdecode
    obtain ⟨rfl, -⟩ := hdecode
    have hlength := length_instrOf (s.answer s.pc) 0 0
    rw [hcount] at hlength
    rw [hfetch]
    simp only [after, hlength]
    rfl
  case inr.inl =>
    simp only [hcount, Except.ok.injEq, Prod.mk.injEq] at hdecode
    obtain ⟨rfl, -⟩ := hdecode
    have hlength := length_instrOf (s.answer s.pc) r1.1 0
    rw [hcount] at hlength
    rw [hfetch, fetch_setOpcode, fetch_fetch]
    simp only [after, hlength]
    rfl
  case inr.inr =>
    simp only [hcount, Except.ok.injEq, Prod.mk.injEq] at hdecode
    obtain ⟨rfl, -⟩ := hdecode
    have hlength := length_instrOf (s.answer s.pc) r1.1 r2.1
    rw [hcount] at hlength
    rw [hfetch, fetch_setOpcode, fetch_setOpcode, fetch_fetch_fetch, fetch_fetch]
    simp only [after, hlength]
    rfl

/-- Settles O4: the three reads decode to the instruction that the driver fetches. -/
theorem stepRunsDecodedInstruction : Obligations.StepRunsDecodedInstruction := by
  intro s i rest hcfg s1 r0 r1 r2 hdecode after
  rw [step_configured hcfg, fetchInstr_of_decode hdecode]

/-! ## The fetch and the resolver (R203, R500, R503; log 7) -/

/-- The mode table is the opcode map's mode (R500). -/
theorem mode_of_modeTable {op : Byte} {m : Mode} (h : modeTable op = some m) : (instrOf op 0 0).operand.mode = m := by
  unfold modeTable at h
  split at h
  · cases h
  · exact Option.some.inj h

/-- Settles O23: by the number of operand bytes of the mode, each fetched by the driver as the mode's resolver would. -/
theorem fetchThenResolveIsMode : Obligations.FetchThenResolveIsMode := by
  intro s m htable opened f read
  have hmode : (instrOf (s.answer s.pc) 0 0).operand.mode = m := mode_of_modeTable htable
  have hoperand (b1 b2 : Byte) : (instrOf (s.answer s.pc) b1 b2).operand = operandOf m b1 (mkAddr b2 b1) := by
    rw [operand_instrOf, hmode]
  have hcount : operandCount (s.answer s.pc) = m.operandBytes := by rw [operandCount, hmode]
  refine ⟨?mode, ?resolved⟩
  case mode =>
    obtain ⟨b1, b2, hinstr⟩ := fetchInstr_instr s
    rw [hinstr, mode_instrOf, hmode]
  case resolved =>
    obtain ⟨hn, hfetch⟩ | ⟨hn, hfetch⟩ | ⟨hn, hfetch⟩ := fetchInstr_cases s
    case inl =>
      simp only [f, hfetch, hoperand]
      cases m with
      | acc | imp => rfl
      | _ => cases hcount.symm.trans hn
    case inr.inl =>
      simp only [f, hfetch, hoperand]
      cases m with
      | imm | zp | zpx | zpy | izx | izy | rel => rfl
      | _ => cases hcount.symm.trans hn
    case inr.inr =>
      simp only [f, hfetch, hoperand]
      cases m with
      | abs | abx | aby | ind => rfl
      | _ => cases hcount.symm.trans hn

/-! ## An illegal opcode raises (R502, R620) -/

/-- Where the policy has no shape for it, an illegal opcode raises (R502). -/
theorem exec_illegal_raises {op : Byte} {s : State} {policy : IllegalPolicy} (hillegal : isIllegalOpcode op = true)
    (hpolicy : s.cfg.illegalPolicy = some policy) (haction : illegalAction s.cfg policy op = none) :
    exec (.illegal op) s = .next (raiseIllegal op s) := by
  simp only [exec, execIllegal, opcodeOf, hillegal, if_true, hpolicy, haction]

/-- Settles O47: Strict has no shape for any opcode, and Nop none where the configuration gives none. -/
theorem illegalOpcodeRaises : Obligations.IllegalOpcodeRaises := by
  intro op s hillegal hpolicy
  obtain hstrict | ⟨hnop, hshape⟩ := hpolicy
  · exact exec_illegal_raises hillegal hstrict rfl
  · exact exec_illegal_raises hillegal hnop hshape

/-- PC stands at a byte of memory that is a strict illegal opcode, and no interrupt is pending. -/
structure IllegalAt (op : Byte) (s : State) : Prop where
  family : s.cfg.family = .mos6502
  policy : s.cfg.illegalPolicy = some .strict
  nmi : s.nmiPending = false
  irq : s.irqPending = false
  memory : s.isIo s.pc = false
  byte : s.byteAt s.pc = op
  isIllegal : isIllegalOpcode op = true

/-- The state after the step at a strict illegal opcode: its one read, the opcode in the scratch, and the result. -/
def afterIllegal (op : Byte) (s : State) : State :=
  ((s.setOpcode op).setBusLog (.read s.pc op :: s.busLog)).setLastStep (some (.illegal s.pc op 0))

/-- The state after the fetch at an illegal opcode: its one read, and PC past it (R501, R620). -/
def fetchedIllegal (op : Byte) (s : State) : State :=
  ((s.setBusLog (.read s.pc op :: s.busLog)).setPc (s.pc + 1)).setOpcode op

theorem fetchInstr_illegalAt {op : Byte} {s : State} (h : IllegalAt op s) :
    fetchInstr s = (.illegal op, fetchedIllegal op s) := by
  have hanswer : s.answer s.pc = op := (answer_of_memory h.memory).trans h.byte
  have hcount : operandCount op = 0 := by
    rw [operandCount, instrOf_illegal h.isIllegal]
    rfl
  obtain ⟨-, hfetch⟩ | ⟨hn, -⟩ | ⟨hn, -⟩ := fetchInstr_cases s
  · rw [hfetch, hanswer, instrOf_illegal h.isIllegal, fetch_eq, hanswer]
    rfl
  · rw [hanswer, hcount] at hn
    cases hn
  · rw [hanswer, hcount] at hn
    cases hn

/-- PC goes past the opcode and back, and no cycle passes (R620). -/
theorem recordResult_raiseIllegal (op : Byte) (s : State) :
    recordResult s.cycles (raiseIllegal op (fetchedIllegal op s)) = afterIllegal op s := by
  have hpc : (fetchedIllegal op s).pc - 1 = s.pc := BitVec.add_sub_cancel s.pc 1
  have hcycles : s.cycles - s.cycles = 0 := Nat.sub_self s.cycles
  calc recordResult s.cycles (raiseIllegal op (fetchedIllegal op s))
      = ((fetchedIllegal op s).setPc ((fetchedIllegal op s).pc - 1)).setLastStep
          (some (.illegal ((fetchedIllegal op s).pc - 1) op (s.cycles - s.cycles))) := rfl
    _ = afterIllegal op s := by rw [hpc, hcycles]; rfl

/-- The whole step at a strict illegal opcode (R514, R620). -/
theorem step_illegalAt {op : Byte} {s : State} (h : IllegalAt op s) : step s = .next (afterIllegal op s) := by
  have hcfg : configRefusal s.cfg = none := by simp [configRefusal, h.family, h.policy]
  have hservice : serviceInterrupts s = s := by
    obtain ⟨hnmi, -⟩ | ⟨-, hirq, -⟩ | ⟨-, -, hnone⟩ := serviceInterrupts_cases s
    · rw [h.nmi] at hnmi
      cases hnmi
    · rw [h.irq] at hirq
      cases hirq
    · rw [hnone, ← h.irq, State.setIrq_self]
  have hraise : exec (.illegal op) (fetchedIllegal op s) = .next (raiseIllegal op (fetchedIllegal op s)) :=
    exec_illegal_raises h.isIllegal h.policy rfl
  rw [step_configured hcfg, hservice, fetchInstr_illegalAt h, hraise, finishStep_raised rfl,
    recordResult_raiseIllegal]

theorem afterIllegal_effect (op : Byte) (s : State) :
    regs (afterIllegal op s) = regs s ∧ (afterIllegal op s).lastStep = some (.illegal s.pc op 0) ∧
      (afterIllegal op s).busLog = .read s.pc op :: s.busLog := ⟨rfl, rfl, rfl⟩

/-- The step leaves everything that made it raise, so the next one raises again (R514). -/
theorem IllegalAt.again {op : Byte} {s : State} (h : IllegalAt op s) : IllegalAt op (afterIllegal op s) :=
  ⟨h.family, h.policy, h.nmi, h.irq, h.memory, h.byte, h.isIllegal⟩

/-- Settles O49: the same step twice. -/
theorem illegalStepRepeats : Obligations.IllegalStepRepeats := by
  intro s op hfamily hpolicy hnmi hirq hmemory hbyte hillegal
  have h : IllegalAt op s := ⟨hfamily, hpolicy, hnmi, hirq, hmemory, hbyte, hillegal⟩
  have hfirst := afterIllegal_effect op s
  have hsecond := afterIllegal_effect op (afterIllegal op s)
  generalize hu : afterIllegal op (afterIllegal op s) = u at hsecond
  have hstep : step (afterIllegal op s) = .next u := (step_illegalAt h.again).trans (congrArg _ hu)
  obtain ⟨hregs', hlast', hlog'⟩ := hsecond
  obtain ⟨hregs, hlast, hlog⟩ := hfirst
  have hpc : (afterIllegal op s).pc = s.pc := congrArg Regs.pc hregs
  rw [hpc] at hlast' hlog'
  exact ⟨afterIllegal op s, u, step_illegalAt h, hregs, ⟨rfl, rfl, rfl, rfl, rfl⟩, rfl, rfl, rfl, hlast, hlog, hstep,
    hregs'.trans hregs, hlast', hlog'⟩

end Sys2Proof.Machine
end

section
/-! SUPPORT AND PROOF. What a step costs (O8) and the bounded run (O58). A documented instruction's cost is bounded by
what the tables give its opcode (`cost_within`), an illegal opcode's by its shape. The run is followed by an invariant of
the cycles consumed and the state (`runLoop_ends`), once for the counters, once for the overshoot and once for the
refusals; that it ends is that each completed step consumes something. -/

namespace Sys2Proof.Machine

open Sys2Proof.Claims

/-! ## What an instruction costs (R510, R720, R721) -/

/-- The most that an instruction costs above its base cycles: its handler's own, and the page-cross penalty. -/
def surcharge (i : Instr) : Nat :=
  extraCycles i + if setsPenalty i && indexesPage i.operand.mode then 1 else 0

theorem opcodeMap_surcharges (b : Byte) (w : Addr) :
    (opcodeMap b w).map (fun row => row.map surcharge) = (opcodeMap 0 0).map (fun row => row.map surcharge) := rfl

/-- The surcharge comes from the opcode byte alone. -/
theorem surcharge_instrOf (op b1 b2 : Byte) : surcharge (instrOf op b1 b2) = surcharge (instrOf op 0 0) := by
  have h := instrOf_cell surcharge op b1 b2
  rw [opcodeMap_surcharges] at h
  exact Option.some.inj (h.trans (instrOf_cell surcharge op 0 0).symm)

/-- The tables' bounds: at least 2 base cycles, and at most 7 cycles in all (R720, R721). -/
theorem cost_within (variant : Variant) :
    ∀ op : Byte, isIllegalOpcode op = false →
      2 ≤ baseCycles variant op ∧ baseCycles variant op + surcharge (instrOf op 0 0) ≤ 7 := by
  cases variant with
  | nmos => decide
  | cmos => decide

/-- A charge of one cycle under a stronger condition is no larger. -/
theorem charge_le {p q : Bool} (h : p = true → q = true) : (if p then 1 else 0) ≤ if q then 1 else 0 := by
  cases p with
  | false => exact Nat.zero_le _
  | true => rw [h rfl]

/-- The page-cross penalty is charged only where the handler sets `op_penalty` and the mode can cross (R510, R214). -/
theorem penaltyCycles_handlerOf_le (i : Instr) (s : State) :
    penaltyCycles (handlerOf i (ready i.operand s)) ≤ if setsPenalty i && indexesPage i.operand.mode then 1 else 0 := by
  rw [handlerOf_penalty i (ready_opPenalty _ s), ← crossed]
  refine charge_le fun hcharged => ?_
  obtain ⟨hcrossed, hsets⟩ := Bool.and_eq_true_iff.mp hcharged
  cases hindex : indexesPage i.operand.mode with
  | true => rw [hsets, Bool.true_and]
  | false =>
    rw [crossed_of_not_indexesPage hindex] at hcrossed
    cases hcrossed

/-- A documented instruction takes its base cycles and at most its surcharge (R510). -/
theorem exec_documented_cost {i : Instr} {op : Byte} {s t : State} (hdoc : documented i = true)
    (hop : opcodeOf i = some op) (h : exec i s = .next t) :
    ∃ k, k ≤ surcharge i ∧ t.lastStep = some (.ok (baseCycles s.cfg.variant op + k)) := by
  obtain ⟨op', hop', rfl⟩ := exec_next hdoc h
  obtain rfl : op = op' := Option.some.inj (hop.symm.trans hop')
  let u := handlerOf i (ready i.operand s)
  obtain ⟨-, ⟨k, hk, hcycles⟩, -⟩ := handlerOf_counters i (ready i.operand s)
  refine ⟨k + penaltyCycles u, Nat.add_le_add hk (penaltyCycles_handlerOf_le i s), ?_⟩
  have hcount : u.cycles + baseCycles s.cfg.variant op + penaltyCycles u - s.cycles =
      baseCycles s.cfg.variant op + (k + penaltyCycles u) := by
    have hu : u.cycles = s.cycles + k := hcycles.trans (by rw [ready_cycles])
    omega
  exact ((account_counters s.cycles _ u).2.2).trans (by rw [hcount])

/-- An illegal opcode run as a NOP takes its shape's base cycles and at most its penalty (R467, R510). -/
theorem performNop_cost (sh : Shape) (s : State) :
    ∃ k, k ≤ (if sh.eligible then 1 else 0) ∧ (performNop sh s).lastStep = some (.ok (sh.base + k)) := by
  let u := (fetchAndResolve sh.mode s.clearScratch).setPenalty sh.eligible
  obtain ⟨-, -, hlast⟩ := took_account (s := s) (u := u) (fetchAndResolve_cycles ..) (fetchAndResolve_instructions ..)
    sh.base
  exact ⟨penaltyCycles u, charge_le fun hcharged => (Bool.and_eq_true_iff.mp hcharged).2, hlast⟩

/-- A completed instruction costs 2 to 7 cycles (R720, R721). -/
theorem exec_cost {op b1 b2 : Byte} {s t : State} {n : Nat} (hshapes : ShapesWithin s.cfg)
    (h : exec (instrOf op b1 b2) s = .next t) (hlast : t.lastStep = some (.ok n)) : 2 ≤ n ∧ n ≤ 7 := by
  cases hop : isIllegalOpcode op with
  | false =>
    obtain ⟨hlow, hhigh⟩ := cost_within s.cfg.variant op hop
    obtain ⟨k, hk, hcost⟩ := exec_documented_cost (documented_instrOf hop b1 b2) (opcodeOf_instrOf op b1 b2) h
    rw [surcharge_instrOf] at hk
    cases hlast.symm.trans hcost
    omega
  | true =>
    rw [instrOf_illegal hop] at h
    obtain ⟨r, hexec⟩ | ⟨sh, hmem, hexec⟩ | hexec := execIllegal_cases op s <;>
      cases h.symm.trans hexec
    · obtain ⟨hlow, hhigh⟩ : 2 ≤ sh.base ∧ sh.base + (if sh.eligible then 1 else 0) ≤ 7 := hshapes _ hmem
      obtain ⟨k, hk, hcost⟩ := performNop_cost sh s
      cases hlast.symm.trans hcost
      omega
    · cases hlast

/-! ## What a step costs (R513, R610) -/

/-- Up to the fetch a step has taken an interrupt entry's 7 cycles or none (R610, R613). -/
theorem fetched_cycles (s : State) :
    (fetchInstr (serviceInterrupts s)).2.cycles = s.cycles ∨ (fetchInstr (serviceInterrupts s)).2.cycles = s.cycles + 7 := by
  obtain ⟨-, -, -, -, -, -, hcycles, -⟩ := serviceInterrupts_frame s
  rwa [fetchInstr_cycles]

/-- Settles O8: an entry's 7 cycles or none, then an instruction's 2 to 7 or a raise's none. -/
theorem stepCostBounds : Obligations.StepCostBounds := by
  intro s t hshapes h
  have hentry := fetched_cycles s
  obtain ⟨u, hexec, hraised | ⟨v, hcompleted⟩⟩ := step_cases h
  case inl =>
    obtain ⟨op, hlast⟩ := hraised.lastStep
    obtain ⟨op', rfl, -⟩ := hraised
    have hcycles : (raiseIllegal op' (fetchInstr (serviceInterrupts s)).2).cycles =
      (fetchInstr (serviceInterrupts s)).2.cycles := rfl
    rw [hlast, hcycles]
    dsimp only
    omega
  case inr =>
    obtain ⟨b1, b2, hinstr⟩ := fetchInstr_instr (serviceInterrupts s)
    have hcfg : (fetchInstr (serviceInterrupts s)).2.cfg = s.cfg := by
      obtain ⟨-, -, -, -, hcfg, -⟩ := serviceInterrupts_frame s
      rw [fetchInstr_cfg, hcfg]
    rw [hcompleted.lastStep]
    obtain ⟨⟨n, hlast, hcycles⟩, -, hhook, -⟩ := hcompleted
    rw [hinstr] at hexec
    obtain ⟨hlow, hhigh⟩ := exec_cost (hcfg ▸ hshapes) hexec hlast
    simp only [(callHook_frame hhook).cycles, State.setHook_cycles, hcycles]
    omega

/-! ## The outcomes of a step (R512) -/

/-- A step is refused, completes, or raises an illegal opcode. -/
theorem step_outcomes (s : State) :
    (∃ r, step s = .refused r) ∨
    (∃ t n, step s = .next t ∧ t.lastStep = some (.ok n)) ∨
    (∃ t pc op n, step s = .next t ∧ t.lastStep = some (.illegal pc op n)) := by
  cases hstep : step s with
  | fault f => cases f
  | refused r => exact .inl ⟨r, rfl⟩
  | next t =>
    have hresult := stepResultMatchesCounters s t hstep
    cases hlast : t.lastStep with
    | none => rw [hlast] at hresult; exact hresult.elim
    | some r =>
      cases r with
      | ok n => exact .inr (.inl ⟨t, n, rfl, hlast⟩)
      | illegal pc op n => exact .inr (.inr ⟨t, pc, op, n, rfl, hlast⟩)

theorem step_ok_counters {s t : State} {n : Nat} (h : step s = .next t) (hlast : t.lastStep = some (.ok n)) :
    t.cycles = s.cycles + n := by
  have hresult := stepResultMatchesCounters s t h
  rw [hlast] at hresult
  exact hresult.1

theorem step_illegal_counters {s t : State} {pc : Addr} {op : Byte} {n : Nat} (h : step s = .next t)
    (hlast : t.lastStep = some (.illegal pc op n)) : t.cycles = s.cycles + n ∧ t.pc = pc := by
  have hresult := stepResultMatchesCounters s t h
  rw [hlast] at hresult
  exact ⟨hresult.1, hresult.2.2⟩

theorem step_ok_cost {s t : State} {n : Nat} (hshapes : ShapesWithin s.cfg) (h : step s = .next t)
    (hlast : t.lastStep = some (.ok n)) : 2 ≤ n ∧ n ≤ 14 := by
  have hresult := stepCostBounds s t hshapes h
  rw [hlast] at hresult
  exact hresult

theorem step_illegal_cost {s t : State} {pc : Addr} {op : Byte} {n : Nat} (hshapes : ShapesWithin s.cfg)
    (h : step s = .next t) (hlast : t.lastStep = some (.illegal pc op n)) : n ≤ 7 := by
  have hresult := stepCostBounds s t hshapes h
  rw [hlast] at hresult
  dsimp only at hresult
  omega

/-! ## The loop of `run` (R513) -/

/-- Cycles consumed before count on both sides of the loop's test, and in what it returns. -/
theorem runLoop_consumedBefore (k c budget consumed : Nat) (s : State) :
    runLoop k (c + budget) (c + consumed) s = (runLoop k budget consumed s).map (consumedBefore c) := by
  induction k generalizing consumed s with
  | zero =>
    by_cases hdone : budget ≤ consumed
    · rw [runLoop_done hdone, runLoop_done (by omega)]
      rfl
    · rw [runLoop, runLoop, if_neg hdone, if_neg (by omega)]
      rfl
  | succ k ih =>
    by_cases hdone : budget ≤ consumed
    · rw [runLoop_done hdone, runLoop_done (by omega)]
      rfl
    · have hmore : ¬ c + budget ≤ c + consumed := by omega
      obtain ⟨r, hstep⟩ | ⟨t, n, hstep, hlast⟩ | ⟨t, pc, op, n, hstep, hlast⟩ := step_outcomes s
      · rw [runLoop_refused hdone k hstep, runLoop_refused hmore k hstep]
        rfl
      · rw [runLoop_ok hdone k hstep hlast, runLoop_ok hmore k hstep hlast, Nat.add_assoc, ih]
      · rw [runLoop_illegal hdone k hstep hlast, runLoop_illegal hmore k hstep hlast, Nat.add_assoc]
        rfl

/-- Every completed step of a run keeps a condition on the cycles consumed and the state. -/
def RunKeeps (budget : Nat) (Inv : Nat → State → Prop) : Prop :=
  ∀ c u t n, c < budget → Inv c u → step u = .next t → t.lastStep = some (.ok n) → Inv (c + n) t

/-- How the loop ends under such an invariant: with the budget used up, at a step that raises, or at a step that is
refused. -/
theorem runLoop_ends {Inv : Nat → State → Prop} {budget : Nat} (hkeeps : RunKeeps budget Inv)
    {k consumed : Nat} {s : State} {o : Host.Outcome (RunResult × State) Fault Refusal} (hinv : Inv consumed s)
    (h : runLoop k budget consumed s = some o) :
    (∃ c t, budget ≤ c ∧ Inv c t ∧ o = .next (.ok c, t)) ∨
    (∃ c u t pc op n, c < budget ∧ Inv c u ∧ step u = .next t ∧ t.lastStep = some (.illegal pc op n) ∧
      o = .next (.illegal pc op (c + n), t)) ∨
    (∃ c u r, Inv c u ∧ step u = .refused r ∧ o = .refused r) := by
  induction k generalizing consumed s with
  | zero =>
    by_cases hdone : budget ≤ consumed
    · rw [runLoop_done hdone, Option.some.injEq] at h
      exact .inl ⟨_, _, hdone, hinv, h.symm⟩
    · rw [runLoop, if_neg hdone] at h
      cases h
  | succ k ih =>
    by_cases hdone : budget ≤ consumed
    · rw [runLoop_done hdone, Option.some.injEq] at h
      exact .inl ⟨_, _, hdone, hinv, h.symm⟩
    · obtain ⟨r, hstep⟩ | ⟨t, n, hstep, hlast⟩ | ⟨t, pc, op, n, hstep, hlast⟩ := step_outcomes s
      · rw [runLoop_refused hdone k hstep, Option.some.injEq] at h
        exact .inr (.inr ⟨_, _, _, hinv, hstep, h.symm⟩)
      · rw [runLoop_ok hdone k hstep hlast] at h
        exact ih (hkeeps _ _ _ _ (by omega) hinv hstep hlast) h
      · rw [runLoop_illegal hdone k hstep hlast, Option.some.injEq] at h
        exact .inr (.inl ⟨_, _, _, _, _, _, by omega, hinv, hstep, hlast, h.symm⟩)

/-- Where every completed step costs something the loop ends within as many steps as cycles are left. -/
theorem runLoop_terminates {k budget consumed : Nat} {s : State} (hshapes : ShapesWithin s.cfg)
    (hk : budget ≤ consumed + k) : ∃ o, runLoop k budget consumed s = some o := by
  induction k generalizing consumed s with
  | zero => exact ⟨_, runLoop_done hk 0 s⟩
  | succ k ih =>
    by_cases hdone : budget ≤ consumed
    · exact ⟨_, runLoop_done hdone _ s⟩
    · obtain ⟨r, hstep⟩ | ⟨t, n, hstep, hlast⟩ | ⟨t, pc, op, n, hstep, hlast⟩ := step_outcomes s
      · exact ⟨_, runLoop_refused hdone k hstep⟩
      · obtain ⟨hcost, -⟩ := step_ok_cost hshapes hstep hlast
        obtain ⟨hcfg, -⟩ := stepKeepsConfiguration s t hstep
        rw [runLoop_ok hdone k hstep hlast]
        exact ih (hcfg ▸ hshapes) (by omega)
      · exact ⟨_, runLoop_illegal hdone k hstep hlast⟩

/-! ## `run` (R513) -/

/-- The first step of a run with a budget (R513). -/
theorem runReturns_first_step {budget : Nat} {s : State} (hbudget : 0 < budget) :
    (∀ r, step s = .refused r → RunReturns budget s (.refused r)) ∧
    (∀ t pc op n, step s = .next t → t.lastStep = some (.illegal pc op n) →
      RunReturns budget s (.next (.illegal pc op n, t))) ∧
    (∀ t n, step s = .next t → t.lastStep = some (.ok n) →
      (budget ≤ n → RunReturns budget s (.next (.ok n, t))) ∧
      (∀ left o, budget = n + left → 0 < left → RunReturns left t o → RunReturns budget s (consumedBefore n o))) := by
  have hmore : ¬ budget ≤ 0 := by omega
  refine ⟨fun r hstep => ?refused, fun t pc op n hstep hlast => ?raised, fun t n hstep hlast => ⟨fun hn => ?used, ?more⟩⟩
  case refused => exact ⟨1, runLoop_refused hmore 0 hstep⟩
  case raised => exact ⟨1, by rw [run, runLoop_illegal hmore 0 hstep hlast, Nat.zero_add]⟩
  case used => exact ⟨1, by rw [run, runLoop_ok hmore 0 hstep hlast, Nat.zero_add, runLoop_done hn]⟩
  case more =>
    rintro left o rfl - ⟨k, hrun⟩
    refine ⟨k + 1, ?_⟩
    have hshift := runLoop_consumedBefore k n left 0 t
    rw [← run, hrun] at hshift
    rw [run, runLoop_ok hmore k hstep hlast, Nat.zero_add]
    exact hshift

/-- A run that ends with its budget used up ends in the invariant. -/
theorem RunKeeps.of_ok {budget n : Nat} {Inv : Nat → State → Prop} {s t : State} (hkeeps : RunKeeps budget Inv)
    (hinv : Inv 0 s) (h : RunReturns budget s (.next (.ok n, t))) : budget ≤ n ∧ Inv n t := by
  obtain ⟨k, h⟩ := h
  obtain ⟨c, u, hused, hend, ho⟩ | ⟨c, u, v, pc, op, m, -, -, -, -, ho⟩ | ⟨c, u, r, -, -, ho⟩ :=
    runLoop_ends hkeeps hinv h <;> cases ho
  exact ⟨hused, hend⟩

/-- A run that ends at an illegal opcode has its last step from the invariant, within the budget. -/
theorem RunKeeps.of_illegal {budget n : Nat} {pc : Addr} {op : Byte} {Inv : Nat → State → Prop} {s t : State}
    (hkeeps : RunKeeps budget Inv) (hinv : Inv 0 s) (h : RunReturns budget s (.next (.illegal pc op n, t))) :
    ∃ c u m, n = c + m ∧ c < budget ∧ Inv c u ∧ step u = .next t ∧ t.lastStep = some (.illegal pc op m) := by
  obtain ⟨k, h⟩ := h
  obtain ⟨c, u, -, -, ho⟩ | ⟨c, u, v, pc, op, m, hc, hlast, hstep, hresult, ho⟩ | ⟨c, u, r, -, -, ho⟩ :=
    runLoop_ends hkeeps hinv h <;> cases ho
  exact ⟨c, u, m, rfl, hc, hlast, hstep, hresult⟩

theorem runKeeps_counters (budget : Nat) (s : State) : RunKeeps budget (fun c t => t.cycles = s.cycles + c) :=
  fun c u t n _ hinv hstep hlast => by
    have hcycles : u.cycles = s.cycles + c := hinv
    simp only [step_ok_counters hstep hlast, hcycles, Nat.add_assoc]

/-- A step that begins within the budget ends less than a step's cost above it. -/
theorem runKeeps_overshoot {budget : Nat} {s : State} (hshapes : ShapesWithin s.cfg) :
    RunKeeps budget (fun c t => t.cfg = s.cfg ∧ c < budget + 14) := fun c u t n hc hinv hstep hlast => by
  obtain ⟨hcfg, -⟩ := hinv
  obtain ⟨-, hcost⟩ := step_ok_cost (hcfg ▸ hshapes) hstep hlast
  exact ⟨(stepKeepsConfiguration u t hstep).1.trans hcfg, by omega⟩

theorem runKeeps_noHook (budget : Nat) (s : State) : RunKeeps budget (fun _ t => t.cfg = s.cfg ∧ t.hook = none) :=
  fun c u t n _ hinv hstep _ => by
    obtain ⟨hcfg, hnone⟩ := hinv
    obtain ⟨_, -, -, -, -, hempty, -⟩ := hookCalledOncePerInstruction u t hstep
    exact ⟨(stepKeepsConfiguration u t hstep).1.trans hcfg, (hempty hnone).1⟩

/-- What a run returns is what the cycle counter shows (R512, R513). -/
theorem runReturns_counters {budget : Nat} {s : State} :
    (∀ n t, RunReturns budget s (.next (.ok n, t)) → budget ≤ n ∧ t.cycles = s.cycles + n) ∧
    (∀ pc op n t, RunReturns budget s (.next (.illegal pc op n, t)) → t.cycles = s.cycles + n ∧ t.pc = pc) := by
  refine ⟨fun n t h => (runKeeps_counters budget s).of_ok rfl h, fun pc op n t h => ?raised⟩
  case raised =>
    obtain ⟨c, u, m, rfl, -, hinv, hstep, hlast⟩ := (runKeeps_counters budget s).of_illegal rfl h
    obtain ⟨hcycles, hpc⟩ := step_illegal_counters hstep hlast
    exact ⟨by rw [hcycles, hinv, Nat.add_assoc], hpc⟩

/-- A run overshoots its budget by less than one step (R513). -/
theorem runReturns_overshoot {budget : Nat} {s : State} (hshapes : ShapesWithin s.cfg) :
    (∀ n t, RunReturns budget s (.next (.ok n, t)) → n < budget + 14) ∧
    (∀ pc op n t, RunReturns budget s (.next (.illegal pc op n, t)) → n < budget + 14) := by
  have hstart : s.cfg = s.cfg ∧ 0 < budget + 14 := ⟨rfl, by omega⟩
  refine ⟨fun n t h => ((runKeeps_overshoot hshapes).of_ok hstart h).2.2, fun pc op n t h => ?raised⟩
  case raised =>
    obtain ⟨c, u, m, rfl, hc, ⟨hcfg, -⟩, hstep, hlast⟩ := (runKeeps_overshoot hshapes).of_illegal hstart h
    have hcost := step_illegal_cost (hcfg ▸ hshapes) hstep hlast
    omega

/-- In an accepted configuration and without a hook no step of a run is refused (R513, R521). -/
theorem runReturns_result {budget : Nat} {s : State} {o : Host.Outcome (RunResult × State) Fault Refusal}
    (hconf : configured s = true) (hhook : s.hook = none) (h : RunReturns budget s o) : ∃ r, o = .next r := by
  obtain ⟨k, h⟩ := h
  have ends := runLoop_ends (runKeeps_noHook budget s) ⟨rfl, hhook⟩ h
  obtain ⟨c, t, -, -, rfl⟩ | ⟨c, u, t, pc, op, n, -, -, -, -, rfl⟩ | ⟨c, u, r, ⟨hcfg, hnone⟩, hstep, -⟩ := ends
  · exact ⟨_, rfl⟩
  · exact ⟨_, rfl⟩
  · have hready : Ready u = true := by
      rw [Ready, configured, hcfg, hookObeys, hnone, Bool.and_true]
      exact hconf
    obtain ⟨t, hnext⟩ := stepAlwaysCompletes u hready
    cases hstep.symm.trans hnext

/-- Settles O58: the first step, and the three invariants of the loop. -/
theorem runStopsAtBudget : Obligations.RunStopsAtBudget := by
  intro budget s
  obtain ⟨hok, hraised⟩ := runReturns_counters (budget := budget) (s := s)
  refine ⟨⟨0, runLoop_done (Nat.le_refl 0) 0 s⟩, fun _ _ => runReturns_unique, runReturns_first_step, hok, hraised,
    fun hshapes => ?bounds⟩
  case bounds =>
    obtain ⟨hover, hover'⟩ := runReturns_overshoot (budget := budget) hshapes
    obtain ⟨o, hrun⟩ := runLoop_terminates (k := budget) (budget := budget) (consumed := 0) hshapes (by omega)
    refine ⟨hover, hover', ⟨o, budget, hrun⟩, fun hconf hhook => ?_⟩
    obtain ⟨r, rfl⟩ := runReturns_result hconf hhook ⟨budget, hrun⟩
    exact ⟨r, budget, hrun⟩

end Sys2Proof.Machine
end

section
/-! SUPPORT AND PROOF. The microprogram sequencer (O60). A boundary is the choice of the next operation, which is the
interrupt check and one of three operations. A micro-operation runs as the statement says because its words are computed
from the registers and the kept bytes alone (`SameWords`): assignments that start from the same words, one on the state
after the bus access and one on the state before it, stay in step. -/

namespace Sys2Proof.Machine

open Sys2Proof.Claims

/-! ## The boundary (R541, R543) -/

/-- The choice of the next operation, by the three cases of the interrupt check (R543, R613). -/
theorem choosesNext_nextOperation (fam : MicroFamily) (s : State) :
    ChoosesNext fam s (.next (.boundary, nextOperation fam s)) := by
  simp only [nextOperation]
  obtain ⟨hnmi, haccept⟩ | ⟨hnmi, hirq, hmask, haccept⟩ | ⟨hnmi, hnone, haccept⟩ := acceptInterrupt_cases s <;>
    rw [haccept]
  case inl =>
    exact ⟨fun _ => rfl, fun h => by simp [hnmi] at h, fun h => by simp [hnmi] at h⟩
  case inr.inl =>
    exact ⟨fun h => by simp [hnmi] at h, fun _ _ _ => rfl, fun _ h => by simp [hirq, hmask] at h⟩
  case inr.inr =>
    refine ⟨fun h => by simp [hnmi] at h, fun _ hirq hmask => ?_, fun _ _ => rfl⟩
    simp [hirq, hmask] at hnone

/-- Before the first operation the boundary only chooses (log 12). -/
theorem microBoundary_first {fam : MicroFamily} {s : State} (hop : s.seq.currentOp = none) :
    microBoundary fam s = .next (nextOperation fam s) := by
  simp only [microBoundary, hop]

/-- After an interrupt's entry the boundary adds its cycles and decodes (log 12). -/
theorem microBoundary_entry {fam : MicroFamily} {s : State} {op : Nat} (hop : s.seq.currentOp = some op)
    (hentry : s.seq.entry = true) :
    microBoundary fam s = .next (decodeOperation fam (s.setCycles (s.cycles + fam.cycles op s))) := by
  simp only [microBoundary, hop, hentry, if_true]

/-- The state in which the hook is called after an instruction: its cycles added and the instruction counted (R511,
R543). -/
def counted (fam : MicroFamily) (op : Nat) (s : State) : State :=
  (s.setCycles (s.cycles + fam.cycles op s)).setInstructions (s.instructions + 1)

/-- After an instruction the boundary chooses in the state that the hook leaves (R520, R543). -/
theorem microBoundary_instruction {fam : MicroFamily} {s w : State} {op : Nat} (hop : s.seq.currentOp = some op)
    (hentry : s.seq.entry = false) (hhook : callHook (counted fam op s) = .next w) :
    microBoundary fam s = .next (nextOperation fam w) := by
  rw [counted] at hhook
  simp only [microBoundary, hop, hentry, Bool.false_eq_true, if_false, State.setCycles_instructions, hhook]

/-- After an instruction a refused hook refuses the boundary (log 13). -/
theorem microBoundary_refused {fam : MicroFamily} {s : State} {op : Nat} {r : Refusal}
    (hop : s.seq.currentOp = some op) (hentry : s.seq.entry = false) (hhook : callHook (counted fam op s) = .refused r) :
    microBoundary fam s = .refused r := by
  rw [counted] at hhook
  simp only [microBoundary, hop, hentry, Bool.false_eq_true, if_false, State.setCycles_instructions, hhook]

theorem microStepCall_refused {fam : MicroFamily} {s : State} {r : Refusal} (h : currentMicroOp s = none)
    (hb : microBoundary fam s = .refused r) (wait hold : Bool) : microStepCall fam wait hold s = .refused r := by
  simp only [microStepCall, h, hb]

/-! ## The words of a micro-operation (R541; log 12) -/

/-- Two states in which every expression of a micro-operation has the same value: the registers and the kept bytes
agree. -/
def SameWords (s t : State) : Prop := regs s = regs t ∧ s.seq.scratch = t.seq.scratch

theorem exprWord_congr {s t : State} (h : SameWords s t) (e : MicroExpr) : exprWord e s = exprWord e t := by
  obtain ⟨hregs, hkept⟩ := h
  obtain ⟨ha, hx, hy, hsp, hpc, hp⟩ := (Regs.mk.injEq ..).mp hregs
  induction e with
  | const w => rfl
  | reg r => cases r <;> simp only [exprWord, regWord, ha, hx, hy, hsp, hpc]
  | flag f => simp only [exprWord, hp]
  | kept k => simp only [exprWord, hkept]
  | apply op l r ihl ihr => simp only [exprWord, ihl, ihr]
  | choose test yes no iht ihy ihn => simp only [exprWord, iht, ihy, ihn]

theorem loByte_eq_ofNat (w : Addr) : loByte w = BitVec.ofNat 8 w.toNat :=
  BitVec.eq_of_toNat_eq (by rw [loByte_toNat, BitVec.toNat_ofNat])

theorem bne_zero_eq_decide (w : Addr) : (w != 0) = decide (w ≠ 0) := by
  by_cases h : w = 0
  · rw [h]
    rfl
  · rw [decide_eq_true h, bne_iff_ne]
    exact h

/-- The model's assignment is the statement's (R541; log 12). -/
theorem microAssign_eq_assigned (s : State) (e : MicroTarget × MicroExpr) : microAssign s e = assigned s e := by
  obtain ⟨target, expr⟩ := e
  cases target with
  | reg r => cases r <;> simp only [microAssign, assigned, loByte_eq_ofNat] <;> rfl
  | flag f => cases f <;> simp only [microAssign, assigned, bne_zero_eq_decide] <;> rfl
  | keep => simp only [microAssign, assigned, loByte_eq_ofNat]; rfl

/-- An assignment writes by its word alone. -/
theorem microAssign_sameWords {s t : State} (h : SameWords s t) (e : MicroTarget × MicroExpr) :
    SameWords (microAssign s e) (microAssign t e) := by
  obtain ⟨target, expr⟩ := e
  have hword := exprWord_congr h expr
  obtain ⟨hregs, hkept⟩ := h
  obtain ⟨ha, hx, hy, hsp, hpc, hp⟩ := (Regs.mk.injEq ..).mp hregs
  cases target with
  | reg r => cases r <;> simp [SameWords, regs, microAssign, hword, ha, hx, hy, hsp, hpc, hp, hkept]
  | flag f => simp [SameWords, regs, microAssign, hword, ha, hx, hy, hsp, hpc, hp, hkept]
  | keep => exact ⟨hregs, by simp only [microAssign, State.keep, hword, State.setSeq_seq, hkept]⟩

theorem microAssigns_sameWords {s t : State} (h : SameWords s t) (l : List (MicroTarget × MicroExpr)) :
    SameWords (l.foldl microAssign s) (l.foldl assigned t) := by
  induction l generalizing s t with
  | nil => exact h
  | cons e l ih =>
    rw [List.foldl_cons, List.foldl_cons, ← microAssign_eq_assigned t e]
    exact ih (microAssign_sameWords h e)

/-! ## A micro-operation runs (R541) -/

/-- The bytes kept after a bus access: a byte read is the newest (R68). -/
def keptAfter (m : MicroAccess) (s : State) : List Byte :=
  match m with
  | .read addr => s.answer (exprWord addr s) :: s.seq.scratch
  | _ => s.seq.scratch

theorem performAccess_effect (m : MicroAccess) (s : State) :
    (performAccess m s).busLog = accessEvent m s ++ s.busLog ∧
    SameWords (performAccess m s) { s with seq := { s.seq with scratch := keptAfter m s } } := by
  cases m with
  | none => exact ⟨rfl, rfl, rfl⟩
  | read addr => exact ⟨rfl, rfl, rfl⟩
  | write addr value => simp only [performAccess, busWrite_eq]; exact ⟨rfl, rfl, rfl⟩

/-- Memory after a bus access: a write's one byte, and else as before (R541). -/
theorem performAccess_memory (m : MicroAccess) (s t : State) :
    t.mem = (performAccess m s).mem →
      match m with
      | .write addr value => Stored [(exprWord addr s, loByte (exprWord value s))] s t
      | _ => t.mem = s.mem := by
  intro hmem
  cases m with
  | none => exact hmem
  | read addr => exact hmem
  | write addr value => exact stored_of_mem (stored_busWrite (fun _ => rfl) (fun _ => rfl) _ _) hmem

/-- A micro-operation that need not yield runs as the statement says. -/
theorem microRan_of_runs {s : State} {u : MicroOp} {wait hold : Bool} (h : currentMicroOp s = some u)
    (hy : mustYield u wait hold s = false) (fam : MicroFamily) : MicroRan u s (microStepCall fam wait hold s) := by
  obtain ⟨frame, hmem, hlog⟩ := runMicroOp_frame u s
  obtain ⟨hevent, hstart⟩ := performAccess_effect u.access s
  obtain ⟨hregs, hkept⟩ := microAssigns_sameWords hstart u.assigns
  refine ⟨_, microStepCall_runs h hy fam, frame.cycles, frame.instructions, frame.nmi, frame.irq, frame.hook,
    frame.lastStep, frame.scratch, frame.cfg, frame.currentOp, frame.entry, congrArg (· + 1) frame.microStep, rfl,
    hlog.trans hevent, performAccess_memory u.access s _ hmem, ?_⟩
  exact ⟨hregs, hkept⟩

/-! ## Yield or run (R542) -/

theorem accessesBus_eq (u : MicroOp) : MicroOp.accessesBus u = decide (u.access ≠ .none) := by
  by_cases h : u.access = .none <;> simp [MicroOp.accessesBus, h]

/-- Settles O60: a boundary by what its operation was, a micro-operation by whether it must yield. -/
theorem microStepFollowsRule : Obligations.MicroStepFollowsRule := by
  intro fam wait hold s o
  refine ⟨fun hop => ?first, fun op hop hend => ?boundary, fun op u hop hat => ?operation⟩
  case first =>
    have hcurrent : currentMicroOp s = none := by simp only [currentMicroOp, hop, Option.bind_none]
    have ho := microStepCall_boundary hcurrent (microBoundary_first (fam := fam) hop) wait hold
    simp only [o, ho]
    exact choosesNext_nextOperation fam s
  case boundary =>
    have hcurrent : currentMicroOp s = none := by simp only [currentMicroOp, hop, Option.bind_some, hend]
    refine ⟨fun hentry => ?entry, fun hentry => ⟨fun r hhook => ?refused, fun w hhook => ?chooses⟩⟩
    case entry => exact microStepCall_boundary hcurrent (microBoundary_entry hop hentry) wait hold
    case refused => exact microStepCall_refused hcurrent (microBoundary_refused hop hentry hhook) wait hold
    case chooses =>
      have ho := microStepCall_boundary hcurrent (microBoundary_instruction hop hentry hhook) wait hold
      simp only [o, ho]
      exact choosesNext_nextOperation fam w
  case operation =>
    have hcurrent : currentMicroOp s = some u := by simp only [currentMicroOp, hop, Option.bind_some, hat]
    refine ⟨fun haccess hpoint hinput => ?yieldsAfter, fun hfree => ?runs,
      fun haccess hpoint => ⟨fun hinput => ?yieldsBefore, fun hsuspended hwait hhold => ?runsBefore⟩⟩
    case yieldsAfter =>
      refine microStepCall_yields hcurrent ?_ fam
      simp [mustYield, accessesBus_eq, haccess, hpoint, hinput]
    case runs =>
      refine microRan_of_runs hcurrent ?_ fam
      obtain haccess | ⟨hpoint, hwait, hhold⟩ := hfree
      · simp [mustYield, accessesBus_eq, haccess]
      · simp [mustYield, hpoint, hwait, hhold]
    case yieldsBefore =>
      refine microStepCall_yields hcurrent ?_ fam
      obtain hsuspended | hinput := hinput
      · simp [mustYield, accessesBus_eq, haccess, hpoint, hsuspended]
      · simp [mustYield, accessesBus_eq, haccess, hpoint, Bool.or_assoc, hinput]
    case runsBefore =>
      refine microRan_of_runs hcurrent ?_ fam
      simp [mustYield, hpoint, hsuspended, hwait, hhold]

end Sys2Proof.Machine
end

section
/-! SUPPORT AND PROOF. The interrupts (O50 to O53). The entry of NMI and IRQ is `enterException` with B clear and 7 cycles.
The three bytes it pushes lie in three different slots (`entryBytes_slots`), so RTI's three pulls read them back. A masked
IRQ, or one beside an NMI, is dropped by the interrupt check, and a step sees the latches through that check alone. -/

namespace Sys2Proof.Machine

open Sys2Proof.Claims

/-! ## The entry (R610) -/

/-- Settles O50: the entry that BRK has too, with B clear, and 7 cycles. -/
theorem interruptEntryFollowsRule : Obligations.InterruptEntryFollowsRule := by
  intro vec s r t
  obtain ⟨hregs, hmem, hlog⟩ := enterException_rule false vec s
  obtain ⟨hcycles, hinstructions, hlast, hscratch⟩ := interruptEntry_counters vec s
  have keeps := (Keeps.refl s).interruptEntry vec
  have hpushed : Stored (entryBytes false s.pc s) s (afterPushes false s.pc s) :=
    stored_afterPushes (fun _ => rfl) (fun _ => rfl) false s.pc
  exact ⟨hregs, ⟨keeps.nmi, keeps.irq, keeps.hook, keeps.seq, keeps.cfg⟩, stored_of_mem hpushed hmem, hlog, hcycles,
    hinstructions, hscratch, hlast⟩

/-! ## The interrupt check (R611 to R613) -/

/-- Settles O51: in each case of the check the conditions of the other two are false. -/
theorem interruptCheckFollowsRule : Obligations.InterruptCheckFollowsRule := by
  intro s
  obtain ⟨hnmi, h⟩ | ⟨hnmi, hirq, hmask, h⟩ | ⟨hnmi, hnone, h⟩ := serviceInterrupts_cases s <;> rw [h]
  case inl => exact ⟨fun _ => rfl, by simp [hnmi], by simp [hnmi]⟩
  case inr.inl => exact ⟨by simp [hnmi], fun _ _ _ => rfl, by simp [hirq, hmask]⟩
  case inr.inr =>
    refine ⟨by simp [hnmi], fun _ hirq hmask => ?_, fun _ _ => rfl⟩
    simp [hirq, hmask] at hnone

/-- The check drops an IRQ that I masks or that comes beside an NMI. -/
theorem serviceInterrupts_raiseIrq {s : State} (h : s.p.i = true ∨ s.nmiPending = true) :
    serviceInterrupts (raiseIrq s) = serviceInterrupts s := by
  obtain ⟨entry, -, dropped⟩ := interruptCheckFollowsRule s
  obtain ⟨entry', -, dropped'⟩ := interruptCheckFollowsRule (raiseIrq s)
  cases hnmi : s.nmiPending with
  | true => exact (entry' hnmi).trans (entry hnmi).symm
  | false =>
    have hmask : s.p.i = true := by simpa [hnmi] using h
    exact (dropped' hnmi (.inr hmask)).trans (dropped hnmi (.inr hmask)).symm

/-- Settles O52: refused or not, the step goes on from the same checked state. -/
theorem maskedIrqHasNoEffect : Obligations.MaskedIrqHasNoEffect := by
  intro s h
  cases hcfg : configRefusal s.cfg with
  | some r => rw [step_refused hcfg, step_refused (s := raiseIrq s) hcfg]
  | none =>
    rw [step_configured hcfg, step_configured (s := raiseIrq s) hcfg, serviceInterrupts_raiseIrq h]
    rfl

/-! ## Entry, then RTI (R615, R616) -/

/-- The first of the stores at an address is the byte there, where no device answers. -/
theorem byteAt_of_stored {writes : List (Addr × Byte)} {s t : State} {a : Addr} {v : Byte}
    (h : Stored writes s t) (hio : s.isIo a = false) (hfind : writes.find? (fun w => w.1 == a) = some (a, v)) :
    t.byteAt a = v := by
  rw [h, hfind]
  exact if_neg (by rw [hio]; exact Bool.false_ne_true)

/-- Where page 0x01 is memory, the three slots of an entry hold the bytes pushed there: the slots are distinct. -/
theorem entryBytes_slots {b : Bool} {pc : Addr} {s t : State} (hmem : stackIsMemory s)
    (h : Stored (entryBytes b pc s) s t) :
    t.byteAt (stackAddr s.sp) = hiByte pc ∧ t.byteAt (stackAddr (s.sp - 1)) = loByte pc ∧
      t.byteAt (stackAddr (s.sp - 2)) = pImage b s.p := by
  have hlow : (stackAddr s.sp == stackAddr (s.sp - 1)) = false := beq_false_of_ne (stackAddr_ne_below s.sp)
  have hflags : (stackAddr s.sp == stackAddr (s.sp - 2)) = false :=
    beq_false_of_ne (by rw [ne_eq, stackAddr_inj]; bv_omega)
  have hflags' : (stackAddr (s.sp - 1) == stackAddr (s.sp - 2)) = false :=
    beq_false_of_ne (by rw [ne_eq, stackAddr_inj]; bv_omega)
  refine ⟨byteAt_of_stored h (hmem _) ?high, byteAt_of_stored h (hmem _) ?low, byteAt_of_stored h (hmem _) ?flags⟩
  case high => simp only [entryBytes, List.find?_cons, beq_self_eq_true]
  case low => simp only [entryBytes, List.find?_cons, hlow, beq_self_eq_true]
  case flags => simp only [entryBytes, List.find?_cons, hflags, hflags', beq_self_eq_true]

/-- RTI loads the flags and PC whose image and bytes lie in the three slots above S (R616). -/
theorem rti_loads {t : State} {b : Bool} {p : Flags} {pc : Addr} (hmem : stackIsMemory t)
    (hflags : t.byteAt (stackAddr (t.sp + 1)) = pImage b p) (hlow : t.byteAt (stackAddr (t.sp + 2)) = loByte pc)
    (hhigh : t.byteAt (stackAddr (t.sp + 3)) = hiByte pc) :
    ∃ u, exec .rti t = .next u ∧ regs u = { regs t with sp := t.sp + 3, p := p, pc := pc } := by
  obtain ⟨-, -, -, hrti⟩ := brkAndRtiFollowRules
  obtain ⟨u, hexec, hregs, -⟩ := hrti t
  let image := busRead (stackAddr (t.sp + 1)) t
  let lo := busRead (stackAddr (t.sp + 2)) image.2
  have himage : image.1 = pImage b p := (answer_of_memory (hmem _)).trans hflags
  have hlo : lo.1 = loByte pc := (answer_of_memory (s := image.2) (hmem _)).trans hlow
  have hhi : (busRead (stackAddr (t.sp + 3)) lo.2).1 = hiByte pc :=
    (answer_of_memory (s := lo.2) (hmem _)).trans hhigh
  rw [← mkAddr_eq, himage, hlo, hhi, loadP_pImage, mkAddr_hiByte_loByte] at hregs
  exact ⟨u, hexec, hregs⟩

/-- Settles O53: RTI's three pulls read the three bytes that the entry pushed, the last one first. -/
theorem returnResumesInterrupted : Obligations.ReturnResumesInterrupted := by
  intro vec s hmem
  obtain ⟨hregs, ⟨-, -, -, -, hcfg⟩, hstored, -⟩ := interruptEntryFollowsRule vec s
  generalize interruptEntry vec s = t at hregs hcfg hstored ⊢
  obtain ⟨hhigh, hlow, hflags⟩ := entryBytes_slots hmem hstored
  have htsp : t.sp = s.sp - 3 := congrArg Regs.sp hregs
  have hslot1 : t.sp + 1 = s.sp - 2 := by rw [htsp]; ring
  have hslot2 : t.sp + 2 = s.sp - 1 := by rw [htsp]; ring
  have hslot3 : t.sp + 3 = s.sp := by rw [htsp]; ring
  have htmem : stackIsMemory t := fun sp => by rw [State.isIo, hcfg]; exact hmem sp
  rw [← hslot1] at hflags
  rw [← hslot2] at hlow
  rw [← hslot3] at hhigh
  obtain ⟨u, hexec, huregs⟩ := rti_loads htmem hflags hlow hhigh
  refine ⟨u, hexec, huregs.trans ?_⟩
  rw [hregs, hslot3]
  rfl

end Sys2Proof.Machine
end

section
/-! SUPPORT AND PROOF. Reset, creation, save and restore (O54 to O57). Creation is a reset (`create_eq`), so what it
leaves is what `reset()` leaves of the instance before it. `restore` undoes `save` because the two bytes of PC and the
image of P give PC and P back. -/

namespace Sys2Proof.Machine

open Sys2Proof.Claims

/-! ## Reset and creation (R700, R701, R703) -/

theorem resetFlags_eq (cfg : Config) :
    resetFlags cfg =
      { n := cfg.resetRegs.n, v := cfg.resetRegs.v, z := cfg.resetRegs.z, c := cfg.resetRegs.c, i := true
        d := match cfg.variant with
          | .cmos => false
          | .nmos => cfg.resetRegs.d } := by
  unfold resetFlags
  cases cfg.variant <;> rfl

/-- The result of the last step stands (R512). -/
theorem hostReset_lastStep (s : State) : (hostReset s).lastStep = s.lastStep := rfl

/-- Settles O54: every field, and PC from the two bytes of the vector. -/
theorem resetFollowsRule : Obligations.ResetFollowsRule := by
  intro s g t lo hi
  refine ⟨?regs, rfl, rfl, rfl, rfl, rfl, rfl, rfl, rfl, rfl, rfl, rfl, rfl⟩
  have hregs : regs t =
      { a := g.a, x := g.x, y := g.y, sp := g.s, pc := mkAddr hi.1 lo.1, p := resetFlags s.cfg } := rfl
  rw [resetFlags_eq, mkAddr_eq] at hregs
  exact hregs

/-- Settles O55: the reset of an instance that has run nothing. -/
theorem creationFollowsRule : Obligations.CreationFollowsRule := by
  intro cfg mem g before lo hi s
  obtain ⟨hregs, hnmi, hirq, hacc, hcross, hpenalty, hcycles, hinstructions, hhook, hmem, hcfg, -, hlog⟩ :=
    resetFollowsRule before
  exact ⟨hregs, hcycles, hinstructions, hnmi, hirq, hhook, hacc, hcross, hpenalty, hostReset_lastStep before, hcfg, hmem,
    hlog⟩

/-- Settles O56: both vector bytes are unlisted and read as 0x00, the other registers are the chosen ones. -/
theorem resetStateChoices : Obligations.ResetStateChoices := ⟨rfl, rfl⟩

/-! ## Save and restore (R630, R631) -/

theorem hiByte_eq_ofNat (w : Addr) : hiByte w = BitVec.ofNat 8 (w.toNat / 256) := by
  have := w.isLt
  exact BitVec.eq_of_toNat_eq (by rw [hiByte_toNat, BitVec.toNat_ofNat]; omega)

/-- A saved register file is restored as it was (R630, R631). -/
theorem restore_save (s u : State) :
    (restore (save s) u).1 = .ok ∧ regs (restore (save s) u).2 = regs s := by
  rw [save, restore_seven, mkAddr_hiByte_loByte, loadP_pImage]
  exact ⟨rfl, rfl⟩

/-- Settles O57: the layout, seven bytes, a saved buffer, and another length. -/
theorem saveAndRestore : Obligations.SaveAndRestore := by
  refine ⟨fun s => ?layout, fun b0 b1 b2 b3 b4 b5 b6 s => ?seven, restore_save, fun _ s h => restore_other h s⟩
  case layout => rw [save, loByte_eq_ofNat, hiByte_eq_ofNat]
  case seven => rw [restore_seven, mkAddr_eq]; rfl

end Sys2Proof.Machine
end
